-- ==== Sys2Proof/Word.lean ====
section
/-! DEFINITION. The words of the machine: the 32-bit register word, the 8-bit byte, the 21-bit symbol, and `mask`
(00_scope.md R9 to R12, 10_state.md R22 and R39). -/

namespace Sys2Proof

/-- A host register, REG_W = 32 bits (R22, R90). -/
abbrev Word := BitVec 32

/-- An element of BYTE_MEM, BYTE_BITS = 8 (R9, R61). -/
abbrev Byte := BitVec 8

/-- A symbol, SYM_W = 21 bits, with no check that it is a code point (R18, R39). -/
abbrev Symbol := BitVec 21

/-- `mask(k) = 2^k - 1` (R12). -/
def mask (k : Nat) : Nat := 2 ^ k - 1

end Sys2Proof
end

