-- ==== Sys2Proof/Config.lean ====
section
/-! DEFINITION. What an instance of the core fixes: the parameters ADDR_W, DEFAULT_PRIMARY, DEFAULT_TRAILING and
P_LASTFIT of 00_scope.md R10, as plain data, and the free values that stand for the default tables the spec leaves
open (R141, N3). -/

namespace Sys2Proof

/-- A table of exactly `n` entries ("holds by construction", R142). -/
structure Table (α : Type) (n : Nat) where
  entries : List α
  size : entries.length = n
  deriving DecidableEq, Repr

/-- Entry `i` of a table; every index in range selects an entry (R151). -/
def Table.get {α : Type} {n : Nat} (t : Table α n) (i : Fin n) : α :=
  t.entries[i.val]'(by rw [t.size]; exact i.isLt)

/-- The table with entry `i` replaced. -/
def Table.set {α : Type} {n : Nat} (t : Table α n) (i : Nat) (x : α) : Table α n :=
  ⟨t.entries.set i x, by rw [List.length_set]; exact t.size⟩

/-- The table whose every entry is `x`. -/
def Table.fill {α : Type} (n : Nat) (x : α) : Table α n :=
  ⟨List.replicate n x, List.length_replicate⟩

/-- The table whose entry `v` is `f v`. -/
def Table.ofFn {α : Type} (n : Nat) (f : Nat → α) : Table α n :=
  ⟨(List.range n).map f, by rw [List.length_map, List.length_range]⟩

/-- P_LASTFIT (R10, R209): what a last primary symbol does whose value is too wide for its bit budget. -/
inductive LastFit where
  | mask
  | orTrunc
  | corrupt
  deriving DecidableEq, Repr

/-- The OPEN parameters of R10. They are arguments of the model (R20); no step changes them. -/
structure Config where
  /-- ADDR_W: each buffer memory has `2 ^ addrW` elements (R60). -/
  addrW : Nat
  /-- DEFAULT_PRIMARY (R141). -/
  defaultP : Table Symbol 2048
  /-- DEFAULT_TRAILING (R141). -/
  defaultT : Table Symbol 8
  /-- P_LASTFIT (R209). -/
  lastFit : LastFit
  deriving DecidableEq, Repr

namespace Config

/-- How many 21-bit values are neither CR nor LF. -/
abbrev nonWsCount : Nat := 2097150

/-- The `k`-th symbol that is neither LF (0x0A) nor CR (0x0D), in rising order: a numbering of exactly the symbols a
default table may hold (R141). -/
def nonWsSymbol (k : Fin nonWsCount) : Symbol :=
  if k.val < 10 then BitVec.ofNat 21 k.val
  else if k.val < 12 then BitVec.ofNat 21 (k.val + 1)
  else BitVec.ofNat 21 (k.val + 2)

/-- FREE VALUE (log 5): the number, among the symbols that are not CR or LF, of each entry of DEFAULT_PRIMARY. -/
opaque freePrimary : Nat → Fin nonWsCount

/-- FREE VALUE (log 5): the same for DEFAULT_TRAILING. -/
opaque freeTrailing : Nat → Fin nonWsCount

/-- The instance `State.reset` starts from. ADDR_W = 16 is the test vectors' (DESIGN CHOICE, log 3), P_LASTFIT = MASK is
the spec's default (DESIGN CHOICE, log 4), and the default tables are free values that meet R141 (log 5). A statement
about every state holds for every instance, since the parameters stand in the state. -/
def given : Config where
  addrW := 16
  defaultP := Table.ofFn 2048 fun v => nonWsSymbol (freePrimary v)
  defaultT := Table.ofFn 8 fun t => nonWsSymbol (freeTrailing t)
  lastFit := .mask

end Config

end Sys2Proof
end

