-- ==== Sys2Proof/Machine/HostOp.lean ====
section
/-! DEFINITION. The host's side as data: the registers of the 16-word window (10_state.md R22), the host operations of
30_encoding.md R98 with WAIT of R99, and the two agents (20_memory.md R71). -/

namespace Sys2Proof.Machine

/-- The words of the register window (R22). -/
inductive Reg where
  | cmd
  | status
  | srcBase
  | srcLen
  | dstBase
  | dstCap
  | result
  | errPos
  | tblIndex
  | tblData
  | plen
  | tlen
  | id
  /-- Offsets 0x34 to 0x3C: read 0, writes ignored (R127). -/
  | reserved
  deriving DecidableEq, Repr

/-- One host operation, one host step (R98). A register access carries its width in bytes and its byte offset, so that
the accesses R67 calls BAD_ACCESS can be written down; a buffer access carries naturals, so that an index or a value
out of range can (R132). -/
inductive HostOp where
  /-- `WR`: a write of `w` by an access of `size` bytes at byte offset `off`; the legal ones have `size = 4`. -/
  | wr (size off : Nat) (w : Word)
  /-- `RD`: a read by an access of `size` bytes at byte offset `off`. -/
  | rd (size off : Nat)
  /-- `SB a, v`: BYTE_MEM[a] <- v. -/
  | sb (a v : Nat)
  /-- `LB a`: read BYTE_MEM[a]. -/
  | lb (a : Nat)
  /-- `SS a, s`: SYM_MEM[a] <- s. -/
  | ss (a v : Nat)
  /-- `LS a`: read SYM_MEM[a]. -/
  | ls (a : Nat)
  /-- `RESET`: the platform's reset input (R290). -/
  | reset
  /-- `WAIT`: repeat `RD STATUS` until STATE is not BUSY (R99), one read a step (R134). -/
  | wait
  deriving DecidableEq, Repr

/-- Who takes the next step when both agents have one (R71). -/
inductive Agent where
  | host
  | engine
  deriving DecidableEq, Repr

end Sys2Proof.Machine
end

