-- ==== Sys2Proof/Machine/State.lean ====
section
/-! DEFINITION. The state of the core (10_state.md R20 to R44), the reasons a step can stop, and the state after the
power-on reset (R44, 70_reset_and_hazards.md R290, R291, R293). -/

namespace Sys2Proof.Machine

/-- STATUS.STATE (R26). -/
inductive EngineState where
  /-- 0: no command since reset or CLEAR. -/
  | idle
  /-- 1: an ENCODE or DECODE is running. -/
  | busy
  /-- 2: the last command completed without error. -/
  | done
  /-- 3: the last command ended with the error in ERR. -/
  | error
  deriving DecidableEq, Repr

/-- STATUS.ERR (R27, R261). Codes 8 to 15 are never produced, so they have no name. -/
inductive ErrCode where
  /-- 0. -/
  | none
  /-- 1: BUILD with PLEN other than 2048. -/
  | cfgPsize
  /-- 2: BUILD with PLEN = 2048 and TLEN other than 8. -/
  | cfgTsize
  /-- 3: BUILD with both sizes right and a staged CR or LF. -/
  | cfgCtrl
  /-- 4: a DECODE symbol step meets a corrupt symbol. -/
  | corrupt
  /-- 5: an illegal command word. -/
  | illegal
  /-- 6: an operand range beyond the memory, or a DECLEN result beyond 32 bits. -/
  | range
  /-- 7: DST_CAP below the required length. -/
  | dstSmall
  deriving DecidableEq, Repr

/-- The ModelFault kinds (R270). -/
inductive ModelFault where
  /-- A read of a buffer element or STAGING entry not written since reset (R79). -/
  | unwritten
  /-- A host buffer access while BUSY (R297). -/
  | hazard
  /-- A register access R67 does not define, or a buffer access out of range or too wide (R132). -/
  | badAccess
  deriving DecidableEq, Repr

/-- Why the machine stops. Every constructor is safe: the run ends where the spec defines no continuation. -/
inductive Fault where
  /-- `raise ModelFault(kind)` (R270), raised by the host operations and by the reads of the engine, BUILD and DECODE;
  `faulted` is FAULTED with `kind` added. SAFE: R270 gives the raising step no defined effect on any other state. -/
  | raised (kind : ModelFault) (faulted : List ModelFault)
  /-- FAULTED is not empty, so no agent has a step (R133, R134, R270). Raised by `step`. SAFE. -/
  | halted (faulted : List ModelFault)
  /-- STATE = BUSY, yet L_OP or IDX enables none of the engine's steps (R133). Raised by `engineStep`. SAFE, and met in
  no reachable state: L_OP is ENCODE or DECODE and IDX <= L_LEN while BUSY (R133, R23). -/
  | noEngineStep
  deriving DecidableEq, Repr

/-- Why the model gives no meaning. -/
inductive Refusal where
  /-- The command has no meaning in the model yet; raised only by arms of `exec`. SAFE. No arm raises it now. -/
  | notModelled (mnemonic : String)
  /-- The instance has a default table with CR or LF, or ADDR_W out of range: it is refused when it is configured, before
  the run (R141, R270, I5). Raised by `State.configure`. SAFE. -/
  | illFormedConfig
  deriving DecidableEq, Repr

/-- BYTE_MEM or SYM_MEM: the written elements with their addresses, addresses strictly rising. An address that is not
listed is an element whose written mark is clear (R43), and has no value (R79). -/
abbrev Memory (α : Type) := List (Nat × α)

/-- The state of the core. Plain data; every field's rule and width stand beside it. -/
structure State where
  /-- The parameters of the instance (R10), never changed. MODEL's own field (log 3). -/
  cfg : Config
  /-- The host operations still to come, first one first (R134). MODEL's own field (log 1). -/
  ops : List HostOp
  /-- Who goes next, each time both agents have a step (R71, I24). MODEL's own field (log 2). -/
  turns : List Agent
  /-- The values the host's reads have returned, newest first (R98). MODEL's own field (log 14). -/
  replies : List Word
  /-- FAULTED (R43, R271). -/
  faulted : List ModelFault
  /-- STATUS.STATE (R25, R26). -/
  engine : EngineState
  /-- STATUS.VIOL, sticky (R25, R275). -/
  viol : Bool
  /-- STATUS.ERR (R25, R27). -/
  err : ErrCode
  /-- SRC_BASE (R30). -/
  srcBase : Word
  /-- SRC_LEN (R30). -/
  srcLen : Word
  /-- DST_BASE (R30). -/
  dstBase : Word
  /-- DST_CAP (R30). -/
  dstCap : Word
  /-- RESULT (R28). -/
  result : Word
  /-- ERR_POS (R28). -/
  errPos : Word
  /-- TBL_INDEX.INDEX (R31). -/
  tblIndex : BitVec 12
  /-- TBL_INDEX.BANK: false is STAGING, true is ACTIVE (R31). -/
  tblBank : Bool
  /-- PLEN (R33). -/
  plen : Word
  /-- TLEN (R33). -/
  tlen : Word
  /-- L_OP (R36). -/
  lOp : BitVec 4
  /-- L_SRC (R36). -/
  lSrc : Word
  /-- L_LEN (R36). -/
  lLen : Word
  /-- L_DST (R36). -/
  lDst : Word
  /-- L_CAP (R36). -/
  lCap : Word
  /-- IDX: the index, relative to L_SRC, of the next source element (R23). ADDR_W+1 bits; it never wraps (log 9). -/
  idx : Nat
  /-- OUT: the elements written so far (R24). ADDR_W+1 bits (log 9). -/
  out : Nat
  /-- ENC_STAGE (R37). -/
  encStage : BitVec 11
  /-- ENC_REM (R37). -/
  encRem : BitVec 4
  /-- DEC_ACC (R38). -/
  decAcc : BitVec 7
  /-- DEC_REM (R38). -/
  decRem : BitVec 3
  /-- DEC_RES (R38). -/
  decRes : BitVec 3
  /-- DEC_HASLAST (R38). -/
  decHasLast : Bool
  /-- DEC_LAST: position of the last non-whitespace symbol, relative to L_SRC (R38). ADDR_W bits (log 9). -/
  decLast : Nat
  /-- ACT_P (R40). -/
  actP : Table Symbol 2048
  /-- ACT_T (R40). -/
  actT : Table Symbol 8
  /-- STG_P with its written marks (R41, R43): `none` is an unwritten entry. -/
  stgP : Table (Option Symbol) 2048
  /-- STG_T with its written marks (R41, R43). -/
  stgT : Table (Option Symbol) 8
  /-- BYTE_MEM with its written marks (R60, R43). -/
  byteMem : Memory Byte
  /-- SYM_MEM with its written marks (R60, R43). -/
  symMem : Memory Symbol
  deriving DecidableEq, Repr

/-- The core of an instance right after the power-on reset (R44, R290, R291, R293). -/
def State.powerOn (c : Config) : State where
  cfg := c
  ops := []
  turns := []
  replies := []
  faulted := []
  engine := .idle
  viol := false
  err := .none
  srcBase := 0
  srcLen := 0
  dstBase := 0
  dstCap := 0
  result := 0
  errPos := 0
  tblIndex := 0
  tblBank := false
  plen := 0
  tlen := 0
  lOp := 0
  lSrc := 0
  lLen := 0
  lDst := 0
  lCap := 0
  idx := 0
  out := 0
  encStage := 0
  encRem := 0
  decAcc := 0
  decRem := 0
  decRes := 0
  decHasLast := false
  decLast := 0
  actP := c.defaultP
  actT := c.defaultT
  stgP := Table.fill 2048 none
  stgT := Table.fill 8 none
  byteMem := []
  symMem := []

/-- The machine right after reset. -/
def State.reset : State := State.powerOn Config.given

end Sys2Proof.Machine
end

