-- ==== Sys2Proof/Machine/Flags.lean ====
section
/-! DEFINITION. The STATUS register: the codes of its fields, the word a read returns, and the flags (10_state.md R25 to
R27 and R35, 40_control.md R126, 60_exceptions.md R275). -/

namespace Sys2Proof.Machine

/-- STATE [1:0] (R26). -/
def EngineState.code : EngineState → BitVec 2
  | .idle => 0
  | .busy => 1
  | .done => 2
  | .error => 3

/-- ERR [7:4] (R27). -/
def ErrCode.code : ErrCode → BitVec 4
  | .none => 0
  | .cfgPsize => 1
  | .cfgTsize => 2
  | .cfgCtrl => 3
  | .corrupt => 4
  | .illegal => 5
  | .range => 6
  | .dstSmall => 7

/-- The STATUS word: `zext32(ERR << 4 | VIOL << 2 | STATE)` (R126); bit 3 and bits 31:8 read 0 (R25). -/
def statusWord (s : State) : Word :=
  (s.err.code.setWidth 32 <<< 4) ||| ((BitVec.ofBool s.viol).setWidth 32 <<< 2) ||| s.engine.code.setWidth 32

/-- STATUS.STATE = BUSY. -/
def State.busy (s : State) : Bool := s.engine == .busy

/-- A host protocol violation sets VIOL and changes nothing else (R275). -/
def setViol (s : State) : State := { s with viol := true }

/-- The combinational flag `is_last` (R35, R204). -/
def isLast (s : State) : Bool := s.decHasLast && s.idx == s.decLast

end Sys2Proof.Machine
end

