-- ==== Sys2Proof/Machine/Lookup.lean ====
section
/-! DEFINITION. Operations on symbols and tables that no state enters: the whitespace test (00_scope.md R17), the inverse
lookup of a table (41_alphabet.md R148 to R150) and the reading of a whole staged table (R143). -/

namespace Sys2Proof.Machine

/-- `is_ws`: CR (0x0D) or LF (0x0A), and nothing else (R17). -/
def isWs (s : Symbol) : Bool := s == 0x0D#21 || s == 0x0A#21

/-- One pass over a table in rising index order, a later entry replacing an earlier one (R150): `i` is the index of the
next entry, `best` the highest index so far that holds `c`. -/
def lastIndexFrom (c : Symbol) : List Symbol → Nat → Option Nat → Option Nat
  | [], _, best => best
  | x :: xs, i, best => lastIndexFrom c xs (i + 1) (if x = c then some i else best)

/-- The highest index of a table that holds `c`, if any does (DUP_POLICY = HIGHEST, R150). -/
def lastIndexOf (c : Symbol) (table : List Symbol) : Option Nat := lastIndexFrom c table 0 none

/-- The values of a list of entries when every one is written, else `none` (R79). -/
def allSome {α : Type} : List (Option α) → Option (List α)
  | [] => some []
  | none :: _ => none
  | some x :: xs =>
    match allSome xs with
    | some ys => some (x :: ys)
    | none => none

/-- Reading a table keeps its size. -/
theorem allSome_length {α : Type} : ∀ {l : List (Option α)} {r : List α}, allSome l = some r → r.length = l.length
  | [], r, h => by cases h; rfl
  | none :: _, r, h => by cases h
  | some x :: xs, r, h => by
    unfold allSome at h
    split at h
    · next ys hys => cases h; simp [allSome_length hys]
    · cases h

/-- A staging table read whole: the candidate, or `none` when some entry is unwritten (R143). -/
def readStaged {n : Nat} (t : Table (Option Symbol) n) : Option (Table Symbol n) :=
  match h : allSome t.entries with
  | some l => some ⟨l, (allSome_length h).trans t.size⟩
  | none => none

/-- Some entry of the table is CR or LF (R143). -/
def hasWs {n : Nat} (t : Table Symbol n) : Bool := t.entries.any isWs

/-- The position of the last symbol that is not CR or LF, in one pass; `i` is the position of the next symbol (R201). -/
def lastNonWsFrom : List Symbol → Nat → Option Nat → Option Nat
  | [], _, best => best
  | x :: xs, i, best => lastNonWsFrom xs (i + 1) (if isWs x then best else some i)

/-- `max NW` of R201, or `none` when every symbol is whitespace. -/
def lastNonWs (src : List Symbol) : Option Nat := lastNonWsFrom src 0 none

end Sys2Proof.Machine
end

