-- ==== Sys2Proof/Syntax.lean ====
section
/-! DEFINITION. The commands of the core, one constructor for each row of spec/opcode_table.json (30_encoding.md R92).
A command word carries no register number and no immediate (R91), so no constructor has an argument: every operand is
in an operand register, read when the command is accepted (R93). -/

namespace Sys2Proof

/-- The seven commands (R92). -/
inductive Instr where
  /-- ENCLEN, OP = 0x1 (R240). -/
  | enclen
  /-- DECLEN, OP = 0x2 (R242). -/
  | declen
  /-- ENCODE, OP = 0x3 (R170). -/
  | encode
  /-- DECODE, OP = 0x4 (R200). -/
  | decode
  /-- BUILD, OP = 0x5 (R143). -/
  | build
  /-- LOADDEF, OP = 0x6 (R146). -/
  | loaddef
  /-- CLEAR, OP = 0x7 (R124). -/
  | clear
  deriving DecidableEq, Repr

end Sys2Proof
end

