-- ==== Sys2Proof/WellFormed.lean ====
section
/-! DEFINITION. The well-formedness checks, each a Bool: of a command (a command word has no operand field, R91, so every
command passes), of a host operation (20_memory.md R67, 40_control.md R132), and of a model instance
(00_scope.md R10, 41_alphabet.md R141). -/

namespace Sys2Proof

/-- A command has no operand that could be out of range (R91). -/
def Instr.wellFormed : Instr → Bool
  | .enclen => true
  | .declen => true
  | .encode => true
  | .decode => true
  | .build => true
  | .loaddef => true
  | .clear => true

/-- A register access the spec defines: 32-bit, at a multiple of 4 within 0x00 to 0x3C (R67). -/
def registerAccessOk (size off : Nat) : Bool :=
  size == 4 && off % 4 == 0 && off < 0x40

/-- A host operation that is no BAD_ACCESS on buffer memories of `2 ^ addrW` elements (R67, R132). -/
def Machine.HostOp.wellFormed (addrW : Nat) : Machine.HostOp → Bool
  | .wr size off _ => registerAccessOk size off
  | .rd size off => registerAccessOk size off
  | .sb a v => a < 2 ^ addrW && v < 2 ^ 8
  | .lb a => a < 2 ^ addrW
  | .ss a v => a < 2 ^ addrW && v < 2 ^ 21
  | .ls a => a < 2 ^ addrW
  | .reset => true
  | .wait => true

/-- A model instance: 1 <= ADDR_W <= 28 (R10) and no CR or LF in a default table (R141). -/
def Config.wellFormed (c : Config) : Bool :=
  1 ≤ c.addrW && c.addrW ≤ 28 && !c.defaultP.entries.any Machine.isWs && !c.defaultT.entries.any Machine.isWs

end Sys2Proof
end

