-- ==== Sys2Proof/Machine/Ops.lean ====
section
/-! DEFINITION. The shared operations: element reads and writes of a buffer memory (20_memory.md R63, R79), acceptance
(40_control.md R121), raising an Error and ending a command without one (60_exceptions.md R263), raising a ModelFault
(R270), the reset event (70_reset_and_hazards.md R290 to R293), and configuring an instance (41_alphabet.md R141). -/

namespace Sys2Proof.Machine

/-! ## Buffer memories -/

/-- `MemRead(M, a, 1)`: the element at index `a`, or `none` when it is unwritten (R63, R79). -/
def Memory.read {α : Type} : Memory α → Nat → Option α
  | [], _ => none
  | (k, x) :: m, a => if k = a then some x else Memory.read m a

/-- `MemWrite(M, a, 1, x)`: the element at index `a` becomes `x`, its written mark set (R63, R43). -/
def Memory.write {α : Type} : Memory α → Nat → α → Memory α
  | [], a, x => [(a, x)]
  | (k, y) :: m, a, x =>
    if a < k then (a, x) :: (k, y) :: m
    else if a = k then (a, x) :: m
    else (k, y) :: Memory.write m a x

/-- Elements written one after another from index `a` on. -/
def Memory.writeRun {α : Type} : Memory α → Nat → List α → Memory α
  | m, _, [] => m
  | m, a, x :: xs => Memory.writeRun (Memory.write m a x) (a + 1) xs

/-- The `n` elements from index `a` on, or `none` when one of them is unwritten (R79, R80). -/
def Memory.readRun {α : Type} (m : Memory α) : Nat → Nat → Option (List α)
  | _, 0 => some []
  | a, n + 1 =>
    match Memory.read m a, Memory.readRun m (a + 1) n with
    | some x, some xs => some (x :: xs)
    | _, _ => none

/-- The canonical form: addresses strictly rising. -/
abbrev Memory.wf {α : Type} (m : Memory α) : Prop := m.Pairwise fun p q => p.1 < q.1

/-- Every written element is one of the `size` elements of the memory (R60). -/
abbrev Memory.within {α : Type} (m : Memory α) (size : Nat) : Prop := ∀ p ∈ m, p.1 < size

/-! ## Model faults -/

/-- FAULTED with `kind` added (R270). -/
def addFault (kind : ModelFault) (faulted : List ModelFault) : List ModelFault :=
  if kind ∈ faulted then faulted else kind :: faulted

/-- `raise ModelFault(kind)`: the run is over, and no other state has a defined value (R270). -/
def modelFault (kind : ModelFault) (s : State) : Host.Outcome State Fault Refusal :=
  .fault (.raised kind (addFault kind s.faulted))

/-! ## Acceptance, and the two ways a command ends -/

/-- The common part of acceptance (R121), which is also all that leaving the ERROR state takes (R274). -/
def accept (s : State) : State := { s with err := .none, result := 0, errPos := 0 }

/-- `raise Error(code, pos)` (R263): the one operation by which a command ends with an error. Nothing is saved and
control goes nowhere (R273). OUT fits 32 bits in every state the invariant admits (log 16). -/
def raiseError (code : ErrCode) (pos : Word) (s : State) : State :=
  { s with
    engine := .error
    err := code
    errPos := pos
    result := if code = .corrupt then BitVec.ofNat 32 s.out else 0 }

/-- A command ends without error: STATE <- DONE and RESULT <- `r` (R28). -/
def finish (r : Word) (s : State) : State := { s with engine := .done, result := r }

/-! ## Reset and configuration -/

/-- The reset event (R290 to R293): every register, latch, table and memory as after power-on, and FAULTED as it was
(R271). The parameters and the host's own side are no part of the core and stay (log 15). -/
def resetEvent (s : State) : State :=
  { State.powerOn s.cfg with
    ops := s.ops
    turns := s.turns
    replies := s.replies
    faulted := s.faulted }

/-- Configuring an instance before the run: an ill-formed one is refused (R141, R270, I5). -/
def configure (c : Config) : Host.Outcome State Fault Refusal :=
  if c.wellFormed then .next (State.powerOn c) else .refused .illFormedConfig

end Sys2Proof.Machine
end

