-- ==== Sys2Proof/Machine/Operands.lean ====
section
/-! DEFINITION. Operands: the length formulas (44_length.md R241, R243), the range check and the latching of ENCODE's and
DECODE's operands (42_encode.md R170, 10_state.md R36), the engine's effective addresses (20_memory.md R69), the
forward and inverse lookups (41_alphabet.md R148 to R151), the register map (10_state.md R22) and the table port
(R31, R32, 30_encoding.md R97). -/

namespace Sys2Proof.Machine

/-! ## Lengths -/

/-- `encoded_len(n) = (8n + 10) div 11`, exact (R241). -/
def encodedLen (n : Nat) : Nat := (8 * n + 10) / 11

/-- `decoded_len(n) = (11n) div 8`, exact (R243). -/
def decodedLen (n : Nat) : Nat := 11 * n / 8

/-! ## Operands of ENCODE and DECODE -/

/-- The elements of each buffer memory, `2 ^ ADDR_W` (R60). -/
def State.memSize (s : State) : Nat := 2 ^ s.cfg.addrW

/-- SRC_BASE + SRC_LEN or DST_BASE + DST_CAP is beyond the memory, in exact arithmetic (R170, R200, R267). -/
def operandsOutOfRange (s : State) : Bool :=
  s.srcBase.toNat + s.srcLen.toNat > s.memSize || s.dstBase.toNat + s.dstCap.toNat > s.memSize

/-- The operands latched when ENCODE or DECODE is accepted (R36). -/
def latch (op : BitVec 4) (s : State) : State :=
  { s with lOp := op, lSrc := s.srcBase, lLen := s.srcLen, lDst := s.dstBase, lCap := s.dstCap }

/-- STATE <- BUSY: the engine has a step from now on (R123, R133). -/
def startEngine (s : State) : State := { s with engine := .busy }

/-- The source element of the next step, `L_SRC + IDX` (R69). -/
def srcAddr (s : State) : Nat := s.lSrc.toNat + s.idx

/-- Where the next emitted element goes, `L_DST + OUT` (R69). -/
def dstAddr (s : State) : Nat := s.lDst.toNat + s.out

/-! ## The symbol lookup ROM -/

/-- `P[v]` (R151). -/
def symbolP (s : State) (v : BitVec 11) : Symbol := s.actP.get ⟨v.toNat, v.isLt⟩

/-- `T[t]` (R151). -/
def symbolT (s : State) (t : BitVec 3) : Symbol := s.actT.get ⟨t.toNat, t.isLt⟩

/-- `PINV(c)` (R148). -/
def primaryInverse (s : State) (c : Symbol) : Option (BitVec 11) :=
  (lastIndexOf c s.actP.entries).map (BitVec.ofNat 11)

/-- `TINV(c)` (R149). -/
def trailingInverse (s : State) (c : Symbol) : Option (BitVec 3) :=
  (lastIndexOf c s.actT.entries).map (BitVec.ofNat 3)

/-! ## The register map and the table port -/

/-- The 16 words of the window, by offset / 4 (R22). -/
def registerMap : List Reg :=
  [.cmd, .status, .srcBase, .srcLen, .dstBase, .dstCap, .result, .errPos, .tblIndex, .tblData, .plen, .tlen, .id,
    .reserved, .reserved, .reserved]

/-- The register an access reaches, or `none` for an access R67 does not define. -/
def registerAt (size off : Nat) : Option Reg :=
  if registerAccessOk size off then registerMap[off / 4]? else none

/-- The byte offset of a register (R22); for the reserved words, the first of them. -/
def Reg.offset : Reg → Nat
  | .cmd => 0x00
  | .status => 0x04
  | .srcBase => 0x08
  | .srcLen => 0x0C
  | .dstBase => 0x10
  | .dstCap => 0x14
  | .result => 0x18
  | .errPos => 0x1C
  | .tblIndex => 0x20
  | .tblData => 0x24
  | .plen => 0x28
  | .tlen => 0x2C
  | .id => 0x30
  | .reserved => 0x34

/-- The ID constant (R29). -/
def idWord : Word := 0x00002048

/-- `zext32(BANK << 12 | INDEX)` (R126, R97). -/
def tblIndexWord (s : State) : Word :=
  ((BitVec.ofBool s.tblBank).setWidth 32 <<< 12) ||| s.tblIndex.setWidth 32

/-- A write of TBL_INDEX: bits 31:13 are dropped (R128). -/
def writeTblIndex (w : Word) (s : State) : State :=
  { s with tblIndex := w.extractLsb' 0 12, tblBank := w.getLsbD 12 }

/-- A read of TBL_DATA, or `none` when the selected STAGING entry is unwritten (R131). -/
def readTblData (s : State) : Option Word :=
  if hp : s.tblIndex.toNat < 2048 then
    if s.tblBank then some ((s.actP.get ⟨s.tblIndex.toNat, hp⟩).setWidth 32)
    else (s.stgP.get ⟨s.tblIndex.toNat, hp⟩).map (BitVec.setWidth 32)
  else if ht : s.tblIndex.toNat - 2048 < 8 then
    if s.tblBank then some ((s.actT.get ⟨s.tblIndex.toNat - 2048, ht⟩).setWidth 32)
    else (s.stgT.get ⟨s.tblIndex.toNat - 2048, ht⟩).map (BitVec.setWidth 32)
  else some 0

/-- A write of TBL_DATA: bits 31:21 are dropped; the ACTIVE bank and the indices that select nothing only set VIOL
(R130). -/
def writeTblData (w : Word) (s : State) : State :=
  if s.tblBank then setViol s
  else if s.tblIndex.toNat < 2048 then
    { s with stgP := s.stgP.set s.tblIndex.toNat (some (w.extractLsb' 0 21)) }
  else if s.tblIndex.toNat < 2056 then
    { s with stgT := s.stgT.set (s.tblIndex.toNat - 2048) (some (w.extractLsb' 0 21)) }
  else setViol s

end Sys2Proof.Machine
end

