-- ==== Sys2Proof/Machine/Encode.lean ====
section
/-! DEFINITION. ENCODE: its acceptance (42_encode.md R170, R171) and its engine steps (R172 to R174). -/

namespace Sys2Proof.Machine

/-- L_OP of a running ENCODE (R36, R92). -/
def opEncode : BitVec 4 := 0x3

/-- `init_encoder()` (R171). -/
def initEncoder (s : State) : State := { s with encStage := 0, encRem := 0, idx := 0, out := 0 }

/-- ENCODE is accepted, or ends at once with RANGE or DST_SMALL (R170). -/
def execEncode (s : State) : Host.Outcome State Fault Refusal :=
  if operandsOutOfRange s then .next (raiseError .range 0 (accept s))
  else if s.dstCap.toNat < encodedLen s.srcLen.toNat then .next (raiseError .dstSmall 0 (accept s))
  else .next (startEngine (initEncoder (latch opEncode (accept s))))

/-- One symbol goes to the destination: SYM_MEM[L_DST + OUT] <- `c` and OUT <- OUT + 1. -/
def emitSymbol (c : Symbol) (s : State) : State :=
  { s with symMem := Memory.write s.symMem (dstAddr s) c, out := s.out + 1 }

/-- `need = 11 - ENC_REM`: the bits missing from a full group (R172). -/
def encodeNeed (s : State) : Nat := 11 - s.encRem.toNat

/-- The formed index `(ENC_STAGE << need) | (b >> (8 - need))` (R172); it fits 11 bits by R176. -/
def encodeIndex (b : Byte) (s : State) : BitVec 11 :=
  BitVec.ofNat 11 ((s.encStage.toNat <<< encodeNeed s) ||| (b.toNat >>> (8 - encodeNeed s)))

/-- What the accumulator holds after a byte. -/
def setStage (stage rem : Nat) (s : State) : State :=
  { s with encStage := BitVec.ofNat 11 stage, encRem := BitVec.ofNat 4 rem }

/-- IDX <- IDX + 1 (R23). -/
def advance (s : State) : State := { s with idx := s.idx + 1 }

/-- The byte completes a group: one primary symbol is written and the low `8 - need` bits stay (R172). -/
def encodeEmit (b : Byte) (s : State) : State :=
  advance (setStage (b.toNat &&& mask (8 - encodeNeed s)) (8 - encodeNeed s)
    (emitSymbol (symbolP s (encodeIndex b s)) s))

/-- The byte completes no group and is folded into the accumulator (R173). -/
def encodeFold (b : Byte) (s : State) : State :=
  advance (setStage ((s.encStage.toNat <<< 8) ||| b.toNat) (s.encRem.toNat + 8) s)

/-- A byte step of ENCODE (R172, R173). -/
def encodeByteStep (s : State) : Host.Outcome State Fault Refusal :=
  match Memory.read s.byteMem (srcAddr s) with
  | none => modelFault .unwritten s
  | some b => .next (if encodeNeed s ≤ 8 then encodeEmit b s else encodeFold b s)

/-- The final symbol, when bits are left over: trailing for 1 to 3 bits, primary for 4 to 10, right-aligned (R174,
R180). -/
def encodeTail (s : State) : State :=
  if s.encRem.toNat = 0 then s
  else if s.encRem.toNat ≤ 3 then emitSymbol (symbolT s (s.encStage.setWidth 3)) s
  else emitSymbol (symbolP s s.encStage) s

/-- The final step of ENCODE: RESULT <- OUT after the final symbol, STATE <- DONE (R174). -/
def encodeFinal (s : State) : State := finish (BitVec.ofNat 32 (encodeTail s).out) (encodeTail s)

/-- The engine's step while L_OP = ENCODE (R133). -/
def encodeStep (s : State) : Host.Outcome State Fault Refusal :=
  if s.idx < s.lLen.toNat then encodeByteStep s
  else if s.idx = s.lLen.toNat then .next (encodeFinal s)
  else .fault .noEngineStep

end Sys2Proof.Machine
end

