-- ==== Sys2Proof/Machine/Decoder.lean ====
section
/-! DEFINITION. DECODE: its acceptance with the search for the last symbol (43_decode.md R200 to R202), its symbol steps
(R203 to R209) and its final step (R210, R211). -/

namespace Sys2Proof.Machine

/-- L_OP of a running DECODE (R36, R92). -/
def opDecode : BitVec 4 := 0x4

/-- `find_last()` on the source symbols (R201). -/
def setLast (src : List Symbol) (s : State) : State :=
  { s with decHasLast := (lastNonWs src).isSome, decLast := (lastNonWs src).getD 0 }

/-- `init_decoder()` (R202). -/
def initDecoder (s : State) : State := { s with decAcc := 0, decRem := 0, decRes := 0, idx := 0, out := 0 }

/-- DECODE is accepted, or ends at once with RANGE or DST_SMALL (R200). Acceptance reads the whole source, at the newly
latched operands (R201, R80, log 11), so an unwritten element is ModelFault(UNWRITTEN) here (R303). -/
def execDecode (s : State) : Host.Outcome State Fault Refusal :=
  if operandsOutOfRange s then .next (raiseError .range 0 (accept s))
  else if s.dstCap.toNat < decodedLen s.srcLen.toNat then .next (raiseError .dstSmall 0 (accept s))
  else
    match Memory.readRun s.symMem s.srcBase.toNat s.srcLen.toNat with
    | none => modelFault .unwritten s
    | some src => .next (startEngine (initDecoder (setLast src (latch opDecode (accept s)))))

/-- The bytes `a` holds in its top `8k` of `m` bits, most significant first (R208). -/
def cutBytes (a m k : Nat) : List Byte :=
  (List.range k).map fun j => BitVec.ofNat 8 ((a >>> (m - 8 * (j + 1))) &&& 0xFF)

/-- `m = DEC_REM + n`: the bits held after `n` more (R208). -/
def accBits (n : Nat) (s : State) : Nat := s.decRem.toNat + n

/-- The shifted accumulator, up to 18 bits (R208). -/
def accShifted (n bits : Nat) (s : State) : Nat :=
  ((s.decAcc.toNat <<< n) ||| bits) &&& mask (accBits n s)

/-- The bytes one accumulation writes, 0 to 2 of them (R208). -/
def accBytes (n bits : Nat) (s : State) : List Byte :=
  cutBytes (accShifted n bits s) (accBits n s) (accBits n s / 8)

/-- `accumulate(n, bits)`, the barrel shifter and the byte extraction (R208). -/
def accumulate (n bits : Nat) (s : State) : State :=
  { s with
    byteMem := Memory.writeRun s.byteMem (dstAddr s) (accBytes n bits s)
    out := s.out + accBits n s / 8
    decRem := BitVec.ofNat 3 (accBits n s % 8)
    decAcc := BitVec.ofNat 7 (accShifted n bits s &&& mask (accBits n s % 8)) }

/-- `raise Error(CORRUPT, IDX)` (R211). -/
def corruptHere (s : State) : State := raiseError .corrupt (BitVec.ofNat 32 s.idx) s

/-- The residue counter of this non-whitespace symbol, updated before the symbol is looked up (R204). -/
def updateResidue (s : State) : State := { s with decRes := BitVec.ofNat 3 ((s.decRes.toNat + 11) % 8) }

/-- The bits a primary symbol contributes: 11, or `11 - residue` when it is the last one (R205). -/
def primaryBits (s : State) : Nat := if isLast s then 11 - s.decRes.toNat else 11

/-- A primary hit, after the residue update (R205); a value too wide for its bits goes by P_LASTFIT (R209). -/
def decodePrimary (v : BitVec 11) (s : State) : State :=
  if v.toNat < 2 ^ primaryBits s then advance (accumulate (primaryBits s) v.toNat s)
  else
    match s.cfg.lastFit with
    | .mask => advance (accumulate (primaryBits s) (v.toNat &&& mask (primaryBits s)) s)
    | .orTrunc => advance (accumulate (primaryBits s) v.toNat s)
    | .corrupt => corruptHere s

/-- `need = 8 - DEC_REM`: the bits missing from the current byte (R206). -/
def trailingBits (s : State) : Nat := 8 - s.decRem.toNat

/-- A trailing hit, after the residue update: legal only as the last symbol and when its value fits (R206). -/
def decodeTrailing (t : BitVec 3) (s : State) : State :=
  if isLast s && t.toNat < 2 ^ trailingBits s then advance (accumulate (trailingBits s) t.toNat s)
  else corruptHere s

/-- A non-whitespace symbol: the residue, then the primary table, then the trailing table (R204 to R207). A symbol in
neither is corrupt (R207). -/
def decodeSymbol (c : Symbol) (s : State) : State :=
  match primaryInverse s c with
  | some v => decodePrimary v (updateResidue s)
  | none =>
    match trailingInverse s c with
    | some t => decodeTrailing t (updateResidue s)
    | none => corruptHere (updateResidue s)

/-- A symbol step of DECODE: CR and LF are skipped and change nothing but IDX (R203). -/
def decodeSymbolStep (s : State) : Host.Outcome State Fault Refusal :=
  match Memory.read s.symMem (srcAddr s) with
  | none => modelFault .unwritten s
  | some c => .next (if isWs c then advance s else decodeSymbol c s)

/-- The final step of DECODE: RESULT <- OUT, STATE <- DONE; bits still held are dropped (R210). -/
def decodeFinal (s : State) : State := finish (BitVec.ofNat 32 s.out) s

/-- The engine's step while L_OP = DECODE (R133). -/
def decodeStep (s : State) : Host.Outcome State Fault Refusal :=
  if s.idx < s.lLen.toNat then decodeSymbolStep s
  else if s.idx = s.lLen.toNat then .next (decodeFinal s)
  else .fault .noEngineStep

end Sys2Proof.Machine
end

