-- ==== Sys2Proof/Machine/Engine.lean ====
section
/-! DEFINITION. The engine's step (40_control.md R133). -/

namespace Sys2Proof.Machine

/-- The engine's step while STATE = BUSY, chosen by L_OP (R133). L_OP is never another value while BUSY. -/
def engineStep (s : State) : Host.Outcome State Fault Refusal :=
  if s.lOp = opEncode then encodeStep s
  else if s.lOp = opDecode then decodeStep s
  else .fault .noEngineStep

end Sys2Proof.Machine
end

