-- ==== Sys2Proof/Decode.lean ====
section
/-! DEFINITION. The decoder of command words, total on all 2^32 of them and rejecting by name (30_encoding.md R91 to R96),
the encoder written from the same table, and the host's entry point `decodeTableWord`. -/

namespace Sys2Proof

/-- Why a command word is ILLEGAL (R94). -/
inductive DecodeError where
  /-- RSV = w[31:4] is not 0. -/
  | rsvNotZero
  /-- RSV = 0 and OP is 0x0 or 0x8 to 0xF. -/
  | reservedOp
  deriving DecidableEq, Repr

/-- What a word decodes to. -/
inductive Decoded where
  | legal (i : Instr)
  | illegal (why : DecodeError)
  deriving DecidableEq, Repr

/-- OP = w[3:0] (R91). -/
def opField (w : Word) : BitVec 4 := w.extractLsb' 0 4

/-- RSV = w[31:4] (R91). -/
def rsvField (w : Word) : BitVec 28 := w.extractLsb' 4 28

/-- The opcode map (R92). -/
def instrOfOp (op : BitVec 4) : Option Instr :=
  if op = 0x1#4 then some .enclen
  else if op = 0x2#4 then some .declen
  else if op = 0x3#4 then some .encode
  else if op = 0x4#4 then some .decode
  else if op = 0x5#4 then some .build
  else if op = 0x6#4 then some .loaddef
  else if op = 0x7#4 then some .clear
  else none

/-- `decode_cmd` (R96): RSV is checked, then OP. -/
def decodeCmd (w : Word) : Decoded :=
  if rsvField w = 0#28 then
    match instrOfOp (opField w) with
    | some i => .legal i
    | none => .illegal .reservedOp
  else .illegal .rsvNotZero

/-- The opcode of a command (R92). -/
def opOf : Instr → BitVec 4
  | .enclen => 0x1#4
  | .declen => 0x2#4
  | .encode => 0x3#4
  | .decode => 0x4#4
  | .build => 0x5#4
  | .loaddef => 0x6#4
  | .clear => 0x7#4

/-- The command word: RSV = 0 above OP (R91, R92). -/
def encode (i : Instr) : Word := (0#28) ++ opOf i

/-- The word of `nbits` bits that spec/opcode_table.json numbers `w`; the bits above `nbits` are 0. -/
def tableWord (nbits w : Nat) : Word := BitVec.ofNat 32 (w % 2 ^ nbits)

/-- The command the decoder reads from a word of the opcode table. A command is one 32-bit word (R96) with no byte order
to observe (R66), so the table's numbering of its bits is the register's. -/
def decodeTableWord (nbits w : Nat) : Option Instr :=
  match decodeCmd (tableWord nbits w) with
  | .legal i => some i
  | .illegal _ => none

end Sys2Proof
end

