-- ==== Sys2Proof/Machine/Alphabet.lean ====
section
/-! DEFINITION. BUILD and LOADDEF (41_alphabet.md R143 to R147), the only commands that write the ACTIVE tables. -/

namespace Sys2Proof.Machine

/-- Both ACTIVE tables replaced at once (R143, R145). -/
def installTables (p : Table Symbol 2048) (t : Table Symbol 8) (s : State) : State :=
  { s with actP := p, actT := t }

/-- BUILD (R143): the checks in the order of R144, then all or nothing (R145). Every entry of both tables is read before
the CR/LF check, so an unwritten one is ModelFault(UNWRITTEN). -/
def execBuild (s : State) : Host.Outcome State Fault Refusal :=
  if s.plen ≠ 2048 then .next (raiseError .cfgPsize 0 (accept s))
  else if s.tlen ≠ 8 then .next (raiseError .cfgTsize 0 (accept s))
  else
    match readStaged s.stgP, readStaged s.stgT with
    | some p, some t =>
      if hasWs p || hasWs t then .next (raiseError .cfgCtrl 0 (accept s))
      else .next (finish 0 (installTables p t (accept s)))
    | _, _ => modelFault .unwritten s

/-- LOADDEF (R146): the default tables become active. -/
def execLoaddef (s : State) : Host.Outcome State Fault Refusal :=
  .next (finish 0 (installTables s.cfg.defaultP s.cfg.defaultT (accept s)))

end Sys2Proof.Machine
end

