-- ==== Sys2Proof/Machine/Control.lean ====
section
/-! DEFINITION. CLEAR (40_control.md R124). -/

namespace Sys2Proof.Machine

/-- CLEAR (R124): STATE <- IDLE; VIOL, ERR, RESULT and ERR_POS cleared; nothing else. -/
def execClear (s : State) : Host.Outcome State Fault Refusal :=
  .next { accept s with engine := .idle, viol := false }

end Sys2Proof.Machine
end

