-- ==== Sys2Proof/Machine/Length.lean ====
section
/-! DEFINITION. ENCLEN and DECLEN (44_length.md R240 to R244): they complete in their accepting step and read no table. -/

namespace Sys2Proof.Machine

/-- ENCLEN (R240): RESULT <- encoded_len(SRC_LEN). -/
def execEnclen (s : State) : Host.Outcome State Fault Refusal :=
  .next (finish (BitVec.ofNat 32 (encodedLen s.srcLen.toNat)) (accept s))

/-- DECLEN (R242): RESULT <- decoded_len(SRC_LEN), or RANGE when it does not fit 32 bits. -/
def execDeclen (s : State) : Host.Outcome State Fault Refusal :=
  if decodedLen s.srcLen.toNat > 2 ^ 32 - 1 then .next (raiseError .range 0 (accept s))
  else .next (finish (BitVec.ofNat 32 (decodedLen s.srcLen.toNat)) (accept s))

end Sys2Proof.Machine
end

