-- ==== Sys2Proof/Machine/Dispatch.lean ====
section
/-! DEFINITION. The accepting step of each legal command (40_control.md R123). -/

namespace Sys2Proof.Machine

def exec (i : Instr) (s : State) : Host.Outcome State Fault Refusal :=
  match i with
  | .enclen => Sys2Proof.Machine.execEnclen s
  | .declen => Sys2Proof.Machine.execDeclen s
  | .encode => Sys2Proof.Machine.execEncode s
  | .decode => Sys2Proof.Machine.execDecode s
  | .build => Sys2Proof.Machine.execBuild s
  | .loaddef => Sys2Proof.Machine.execLoaddef s
  | .clear => Sys2Proof.Machine.execClear s

end Sys2Proof.Machine
end

