-- ==== Sys2Proof/Machine/Host.lean ====
section
/-! DEFINITION. The host's step: the issue of a command (40_control.md R120 to R123), register reads and writes (R125 to
R131), the element ports of the buffer memories (R132), RESET (70_reset_and_hazards.md R290) and WAIT
(30_encoding.md R99). -/

namespace Sys2Proof.Machine

/-- A write of CMD (R120): while BUSY it only sets VIOL; otherwise the word is accepted, an illegal one ending at once
with ILLEGAL (R122). -/
def issueCommand (w : Word) (s : State) : Host.Outcome State Fault Refusal :=
  if s.busy then .next (setViol s)
  else
    match decodeCmd w with
    | .legal i => exec i s
    | .illegal _ => .next (raiseError .illegal 0 (accept s))

/-- A write of a register of the window (R120, R125, R127, R128, R130). -/
def writeReg (r : Reg) (w : Word) (s : State) : Host.Outcome State Fault Refusal :=
  match r with
  | .cmd => issueCommand w s
  | .status => .next s
  | .srcBase => .next { s with srcBase := w }
  | .srcLen => .next { s with srcLen := w }
  | .dstBase => .next { s with dstBase := w }
  | .dstCap => .next { s with dstCap := w }
  | .result => .next s
  | .errPos => .next s
  | .tblIndex => .next (writeTblIndex w s)
  | .tblData => .next (writeTblData w s)
  | .plen => .next { s with plen := w }
  | .tlen => .next { s with tlen := w }
  | .id => .next s
  | .reserved => .next s

/-- What a read of a register returns (R126, R127, R131); `none` when it is an unwritten STAGING entry (R79). -/
def readReg (r : Reg) (s : State) : Option Word :=
  match r with
  | .cmd => some 0
  | .status => some (statusWord s)
  | .srcBase => some s.srcBase
  | .srcLen => some s.srcLen
  | .dstBase => some s.dstBase
  | .dstCap => some s.dstCap
  | .result => some s.result
  | .errPos => some s.errPos
  | .tblIndex => some (tblIndexWord s)
  | .tblData => readTblData s
  | .plen => some s.plen
  | .tlen => some s.tlen
  | .id => some idWord
  | .reserved => some 0

/-- A read gives the host a value and changes nothing else (R64, R126). -/
def reply (w : Word) (s : State) : State := { s with replies := w :: s.replies }

/-- The outcome of a read: its value, or ModelFault(UNWRITTEN) (R79). -/
def answer (value : Option Word) (s : State) : Host.Outcome State Fault Refusal :=
  match value with
  | some w => .next (reply w s)
  | none => modelFault .unwritten s

/-- A buffer access: BAD_ACCESS when it is out of range or too wide, then HAZARD while BUSY, then the access (R132). -/
def bufferAccess (ok : Bool) (s : State) (access : Host.Outcome State Fault Refusal) :
    Host.Outcome State Fault Refusal :=
  if !ok then modelFault .badAccess s
  else if s.busy then modelFault .hazard s
  else access

/-- BYTE_MEM[a] <- v by the host. -/
def storeByte (a v : Nat) (s : State) : State := { s with byteMem := Memory.write s.byteMem a (BitVec.ofNat 8 v) }

/-- SYM_MEM[a] <- v by the host. -/
def storeSymbol (a v : Nat) (s : State) : State := { s with symMem := Memory.write s.symMem a (BitVec.ofNat 21 v) }

/-- WAIT (R99): one read of STATUS; the loop goes on while it shows BUSY. -/
def waitStep (s : State) : State :=
  let t := reply (statusWord s) s
  if s.busy then { t with ops := .wait :: t.ops } else t

/-- The effect of one host operation (R98); the operation is already taken off `ops`. -/
def hostStep (op : HostOp) (s : State) : Host.Outcome State Fault Refusal :=
  match op with
  | .wr size off w =>
    match registerAt size off with
    | some r => writeReg r w s
    | none => modelFault .badAccess s
  | .rd size off =>
    match registerAt size off with
    | some r => answer (readReg r s) s
    | none => modelFault .badAccess s
  | .sb a v => bufferAccess (HostOp.wellFormed s.cfg.addrW (.sb a v)) s (.next (storeByte a v s))
  | .lb a =>
    bufferAccess (HostOp.wellFormed s.cfg.addrW (.lb a)) s
      (answer ((Memory.read s.byteMem a).map (BitVec.setWidth 32)) s)
  | .ss a v => bufferAccess (HostOp.wellFormed s.cfg.addrW (.ss a v)) s (.next (storeSymbol a v s))
  | .ls a =>
    bufferAccess (HostOp.wellFormed s.cfg.addrW (.ls a)) s
      (answer ((Memory.read s.symMem a).map (BitVec.setWidth 32)) s)
  | .reset => .next (resetEvent s)
  | .wait => .next (waitStep s)

/-- The host operation that issues the command word `w`: `WR CMD, w` (R98, R120). -/
def issueOp (w : Word) : HostOp := .wr 4 Reg.cmd.offset w

end Sys2Proof.Machine
end

