-- ==== Sys2Proof/Machine/Step.lean ====
section
/-! DEFINITION. One step of the machine: which agent goes (20_memory.md R71, 40_control.md R133 and R134), and
`State.withFetchWord`. -/

namespace Sys2Proof.Machine

/-- One step. No agent has one once FAULTED is not empty (R270). The host has one while it has an operation left, the
engine while STATE = BUSY; when both have one, `turns` says which goes, and the engine goes when `turns` is used up,
which gives R305's weak fairness (log 2). When neither has one, the core keeps all its state (R281, log 8). -/
def step (s : State) : Host.Outcome State Fault Refusal :=
  if s.faulted ≠ [] then .fault (.halted s.faulted)
  else
    match s.ops, s.busy, s.turns with
    | [], false, _ => .next s
    | [], true, _ => engineStep s
    | op :: ops, false, _ => hostStep op { s with ops := ops }
    | _ :: _, true, [] => engineStep s
    | _ :: _, true, .engine :: turns => engineStep { s with turns := turns }
    | op :: ops, true, .host :: turns => hostStep op { s with ops := ops, turns := turns }

/-- `s` with the command word of the opcode table as the host's next operation, so that the very next step accepts it: a
command is accepted only while STATE is not BUSY and FAULTED is empty (R120, R134, log 19). -/
def State.withFetchWord (s : State) (nbits w : Nat) : State :=
  { s with
    ops := issueOp (tableWord nbits w) :: s.ops
    faulted := []
    engine := if s.busy then .idle else s.engine }

end Sys2Proof.Machine
end

