-- ==== Sys2Proof/Machine/Pseudo.lean ====
section
/-! DEFINITION. The pseudo-operations of 30_encoding.md R99 as functions to lists of host operations (WAIT is a host
operation of its own), and the test alphabet TA they stage. -/

namespace Sys2Proof.Machine

/-- `WR <reg>, <v>` on a register of the window (R98). -/
def wrReg (r : Reg) (v : Word) : HostOp := .wr 4 r.offset v

/-- `RD <reg>` on a register of the window (R98). -/
def rdReg (r : Reg) : HostOp := .rd 4 r.offset

/-- `ENCLEN n`. -/
def pseudoEnclen (n : Word) : List HostOp := [wrReg .srcLen n, issueOp (Sys2Proof.encode .enclen)]

/-- `DECLEN n`. -/
def pseudoDeclen (n : Word) : List HostOp := [wrReg .srcLen n, issueOp (Sys2Proof.encode .declen)]

/-- The operand writes, the command and the WAIT of `ENCODE` and `DECODE`. -/
def pseudoRun (i : Instr) (s n d c : Word) : List HostOp :=
  [wrReg .srcBase s, wrReg .srcLen n, wrReg .dstBase d, wrReg .dstCap c, issueOp (Sys2Proof.encode i), .wait]

/-- `ENCODE s, n, d, c`. -/
def pseudoEncode (s n d c : Word) : List HostOp := pseudoRun .encode s n d c

/-- `DECODE s, n, d, c`. -/
def pseudoDecode (s n d c : Word) : List HostOp := pseudoRun .decode s n d c

/-- `BUILD`. -/
def pseudoBuild : List HostOp := [issueOp (Sys2Proof.encode .build)]

/-- `LOADDEF`. -/
def pseudoLoaddef : List HostOp := [issueOp (Sys2Proof.encode .loaddef)]

/-- `CLEAR`. -/
def pseudoClear : List HostOp := [issueOp (Sys2Proof.encode .clear)]

/-- `STP v, s`: stage primary entry `v`. -/
def pseudoStp (v : Nat) (s : Word) : List HostOp := [wrReg .tblIndex (BitVec.ofNat 32 v), wrReg .tblData s]

/-- `STT t, s`: stage trailing entry `t`. -/
def pseudoStt (t : Nat) (s : Word) : List HostOp := [wrReg .tblIndex (BitVec.ofNat 32 (2048 + t)), wrReg .tblData s]

/-- `RDACT i`: read ACTIVE entry `i`. -/
def pseudoRdact (i : Nat) : List HostOp := [wrReg .tblIndex (BitVec.ofNat 32 (0x1000 + i)), rdReg .tblData]

/-- `LOADTA`: stage the test alphabet TA. -/
def pseudoLoadta : List HostOp :=
  [wrReg .plen 2048, wrReg .tlen 8]
    ++ (List.range 2048).flatMap (fun v => pseudoStp v (BitVec.ofNat 32 (0x3400 + v)))
    ++ (List.range 8).flatMap (fun t => pseudoStt t (BitVec.ofNat 32 (0x30 + t)))

end Sys2Proof.Machine
end

