-- ==== Sys2Proof/Machine/Codec.lean ====
section
/-! DEFINITION. The two whole commands as functions of their input, without steps: the bit stream (20_memory.md R65),
`ENC` (42_encode.md R181) and the outcome of DECODE (43_decode.md R221). No step of the machine calls them; claims compare
the machine with them. -/

namespace Sys2Proof.Machine

/-! ## The encoder (R65, R181) -/

/-- The bytes read as one number, the first byte most significant (R65). -/
def streamValue (bs : List Byte) : Nat := bs.foldl (fun v b => v * 256 + b.toNat) 0

/-- `stream[i .. i+len-1]`: the value of `len` stream bits from bit `i` on, bit `i` most significant (R181). -/
def streamBits (bs : List Byte) (i len : Nat) : Nat := (streamValue bs >>> (8 * bs.length - i - len)) % 2 ^ len

/-- The leftover bits as a final symbol: none, a trailing one for 1 to 3 bits, a primary one for 4 to 10 (R181). -/
def lastSymbols (p : Table Symbol 2048) (t : Table Symbol 8) (v r : Nat) : List Symbol :=
  if r = 0 then [] else if r ≤ 3 then [t.get (Fin.ofNat 8 v)] else [p.get (Fin.ofNat 2048 v)]

/-- `ENC(b)` (R181). -/
def encodedSymbols (p : Table Symbol 2048) (t : Table Symbol 8) (bs : List Byte) : List Symbol :=
  (List.range (8 * bs.length / 11)).map (fun k => p.get (Fin.ofNat 2048 (streamBits bs (11 * k) 11)))
    ++ lastSymbols p t (streamBits bs (11 * (8 * bs.length / 11)) (8 * bs.length % 11)) (8 * bs.length % 11)

/-! ## The decoder (R221) -/

/-- What a DECODE comes to: DONE (`none`) or CORRUPT at a position, and the bytes written (R221). -/
structure DecodeResult where
  corruptAt : Option Nat
  bytes : List Byte
  deriving DecidableEq, Repr

/-- The bits contributed so far: `count` of them, first one most significant in `value`. -/
structure BitStream where
  value : Nat
  count : Nat
  deriving DecidableEq, Repr

/-- Whole bytes cut from the top of a stream, the final partial byte dropped (R221, R210). -/
def BitStream.bytes (b : BitStream) : List Byte := cutBytes b.value b.count (b.count / 8)

/-- `n` more bits. A value of at most `n` bits is simply appended; the bits of a wider one (P_LASTFIT = OR_TRUNC, R209)
are ORed into what is left of the current byte, and the rest of them drop. -/
def BitStream.append (b : BitStream) (n x : Nat) : BitStream :=
  ⟨(b.value <<< n) ||| (x % 2 ^ (b.count % 8 + n)), b.count + n⟩

/-- The field a non-whitespace symbol contributes, as (bits, value), or `none` when it is corrupt (R205 to R207, R209).
`k` numbers the non-whitespace symbols from 1, so that the residue is `11k mod 8` (R202). -/
def fieldOf (fit : LastFit) (p : Table Symbol 2048) (t : Table Symbol 8) (last : Bool) (k held : Nat) (c : Symbol) :
    Option (Nat × Nat) :=
  match lastIndexOf c p.entries with
  | some v =>
    let n := if last then 11 - 11 * k % 8 else 11
    if v < 2 ^ n then some (n, v)
    else
      match fit with
      | .mask => some (n, v % 2 ^ n)
      | .orTrunc => some (n, v)
      | .corrupt => none
  | none =>
    match lastIndexOf c t.entries with
    | some v => if last && v < 2 ^ (8 - held % 8) then some (8 - held % 8, v) else none
    | none => none

/-- The symbols from position `pos` on, `k` non-whitespace symbols and the bits `b` being behind them (R221). -/
def decodeFrom (fit : LastFit) (p : Table Symbol 2048) (t : Table Symbol 8) (last : Option Nat) :
    List Symbol → Nat → Nat → BitStream → DecodeResult
  | [], _, _, b => ⟨none, b.bytes⟩
  | c :: cs, pos, k, b =>
    if isWs c then decodeFrom fit p t last cs (pos + 1) k b
    else
      match fieldOf fit p t (last == some pos) (k + 1) b.count c with
      | some (n, x) => decodeFrom fit p t last cs (pos + 1) (k + 1) (b.append n x)
      | none => ⟨some pos, b.bytes⟩

/-- The whole DECODE as a function (R221). -/
def decodedResult (fit : LastFit) (p : Table Symbol 2048) (t : Table Symbol 8) (src : List Symbol) : DecodeResult :=
  decodeFrom fit p t (lastNonWs src) src 0 0 ⟨0, 0⟩

end Sys2Proof.Machine
end

