-- ==== Sys2Proof/Safety.lean ====
section
/-! DEFINITION. The terms claims are stated in: the invariant of the machine (10_state.md R37, R38, R40, 42_encode.md R176
and R177, 43_decode.md R214 and R215), what a step leaves alone, the observation at the end of a run
(70_reset_and_hazards.md R304), and the round-trip precondition of an alphabet (41_alphabet.md R154). -/

namespace Sys2Proof.Machine

/-! ## Reading states and outcomes -/

/-- No entry of the table is CR or LF (R152). -/
def Clean {n : Nat} (t : Table Symbol n) : Prop := ∀ c ∈ t.entries, isWs c = false

/-- How many symbols are neither CR nor LF. -/
def nonWsCount (src : List Symbol) : Nat := (src.filter fun c => !isWs c).length

/-- An ENCODE is running (R133). -/
def EncodeRunning (s : State) : Prop := s.engine = .busy ∧ s.lOp = opEncode

/-- A DECODE is running (R133). -/
def DecodeRunning (s : State) : Prop := s.engine = .busy ∧ s.lOp = opDecode

/-! ## The invariant -/

/-- What holds between the steps of an ENCODE: R176, R177 and the capacity check of R170. -/
structure EncodeInv (s : State) : Prop where
  room : encodedLen s.lLen.toNat ≤ s.lCap.toNat
  rem_le : s.encRem.toNat ≤ 10
  stage_lt : s.encStage.toNat < 2 ^ s.encRem.toNat
  bits : 11 * s.out + s.encRem.toNat = 8 * s.idx

/-- What holds between the steps of a DECODE: R214, R215, the capacity check of R200 and the search of R201. -/
structure DecodeInv (s : State) : Prop where
  room : decodedLen s.lLen.toNat ≤ s.lCap.toNat
  acc_lt : s.decAcc.toNat < 2 ^ s.decRem.toNat
  bits : 8 * s.out + s.decRem.toNat ≤ 11 * s.idx
  source : ∃ src, Memory.readRun s.symMem s.lSrc.toNat s.lLen.toNat = some src
    ∧ (if s.decHasLast then some s.decLast else none) = lastNonWs src
    ∧ s.decRes.toNat = 3 * nonWsCount (src.take s.idx) % 8

/-- What holds while STATE = BUSY: the latched ranges (R36), IDX <= L_LEN (R23), RESULT and ERR_POS reading 0 (R298), and
the invariant of the running command. -/
structure RunningInv (s : State) : Prop where
  op : s.lOp = opEncode ∨ s.lOp = opDecode
  source_in : s.lSrc.toNat + s.lLen.toNat ≤ s.memSize
  dest_in : s.lDst.toNat + s.lCap.toNat ≤ s.memSize
  idx_le : s.idx ≤ s.lLen.toNat
  result_zero : s.result = 0
  errPos_zero : s.errPos = 0
  encode : s.lOp = opEncode → EncodeInv s
  decode : s.lOp = opDecode → DecodeInv s

/-- The invariant every step keeps. -/
structure Inv (s : State) : Prop where
  addrW_pos : 1 ≤ s.cfg.addrW
  addrW_le : s.cfg.addrW ≤ 28
  defaultP_clean : Clean s.cfg.defaultP
  defaultT_clean : Clean s.cfg.defaultT
  actP_clean : Clean s.actP
  actT_clean : Clean s.actT
  byteMem_wf : Memory.wf s.byteMem
  byteMem_in : Memory.within s.byteMem s.memSize
  symMem_wf : Memory.wf s.symMem
  symMem_in : Memory.within s.symMem s.memSize
  error_code : s.engine = .error ↔ s.err ≠ .none
  corrupt_pos : s.errPos ≠ 0 → s.err = .corrupt
  idle_zero : s.engine = .idle → s.result = 0 ∧ s.errPos = 0
  running : s.engine = .busy → RunningInv s

/-! ## What a step leaves alone -/

/-- Every element of both buffer memories reads as before. -/
def SameBuffers (s t : State) : Prop :=
  (∀ a, Memory.read t.byteMem a = Memory.read s.byteMem a) ∧ (∀ a, Memory.read t.symMem a = Memory.read s.symMem a)

/-- The operand registers, the table port's register and the candidate sizes. -/
def SameOperands (s t : State) : Prop :=
  t.srcBase = s.srcBase ∧ t.srcLen = s.srcLen ∧ t.dstBase = s.dstBase ∧ t.dstCap = s.dstCap
    ∧ t.tblIndex = s.tblIndex ∧ t.tblBank = s.tblBank ∧ t.plen = s.plen ∧ t.tlen = s.tlen

/-- The latched operands (R36). -/
def SameLatches (s t : State) : Prop :=
  t.lOp = s.lOp ∧ t.lSrc = s.lSrc ∧ t.lLen = s.lLen ∧ t.lDst = s.lDst ∧ t.lCap = s.lCap

/-- The encoder's registers (R37). -/
def SameEncoder (s t : State) : Prop := t.encStage = s.encStage ∧ t.encRem = s.encRem

/-- The decoder's accumulator and counter (R38). -/
def SameDecoder (s t : State) : Prop := t.decAcc = s.decAcc ∧ t.decRem = s.decRem ∧ t.decRes = s.decRes

/-- The decoder's last-symbol registers (R38). -/
def SameLast (s t : State) : Prop := t.decHasLast = s.decHasLast ∧ t.decLast = s.decLast

/-- The sequencing counters (R23, R24). -/
def SameCounters (s t : State) : Prop := t.idx = s.idx ∧ t.out = s.out

/-- The ACTIVE tables (R40). -/
def SameActive (s t : State) : Prop := t.actP = s.actP ∧ t.actT = s.actT

/-- The STAGING tables (R41). -/
def SameStaging (s t : State) : Prop := t.stgP = s.stgP ∧ t.stgT = s.stgT

/-- The model's own fields and FAULTED. -/
def SameHostSide (s t : State) : Prop :=
  t.cfg = s.cfg ∧ t.ops = s.ops ∧ t.turns = s.turns ∧ t.replies = s.replies ∧ t.faulted = s.faulted

/-- A command turned away at acceptance with `code`: R121's and R263's writes and nothing else. -/
def endedWith (code : ErrCode) (s : State) : State :=
  { s with engine := .error, err := code, errPos := 0, result := 0 }

/-- From `s` to `t` the decoder has taken `n` bits, the shifted accumulator being `a` (R208): the whole bytes of its
DEC_REM + n bits are written from L_DST + OUT on, first one most significant, the rest is kept, and every other element
of BYTE_MEM reads as before. -/
structure Accumulated (n a : Nat) (s t : State) : Prop where
  out_eq : t.out = s.out + (s.decRem.toNat + n) / 8
  rem_eq : t.decRem.toNat = (s.decRem.toNat + n) % 8
  acc_eq : t.decAcc.toNat = a % 2 ^ ((s.decRem.toNat + n) % 8)
  written : ∀ j, j < (s.decRem.toNat + n) / 8 →
    Memory.read t.byteMem (s.lDst.toNat + s.out + j)
      = some (BitVec.ofNat 8 (a / 2 ^ (s.decRem.toNat + n - 8 * (j + 1))))
  kept : ∀ b, b < s.lDst.toNat + s.out ∨ s.lDst.toNat + s.out + (s.decRem.toNat + n) / 8 ≤ b →
    Memory.read t.byteMem b = Memory.read s.byteMem b

/-- From `s` to `t` a symbol step has raised CORRUPT (R211, R263): the position and the bytes written so far are
reported, and no byte is written. DEC_RES is left out (R222 calls it unobservable, log 10). -/
structure Corrupted (s t : State) : Prop where
  engine_eq : t.engine = .error
  err_eq : t.err = .corrupt
  errPos_eq : t.errPos.toNat = s.idx
  result_eq : t.result.toNat = s.out
  buffers : SameBuffers s t
  counters : SameCounters s t

/-! ## The end of a run -/

/-- `k` steps of the machine. -/
def runSteps (k : Nat) (s : State) : Host.Outcome State Fault Refusal := Host.Core.run Sys2Proof.core k s

/-- Every byte the running ENCODE has still to read is written. -/
def SourceWritten (s : State) : Prop :=
  ∀ i, s.idx ≤ i → i < s.lLen.toNat → (Memory.read s.byteMem (s.lSrc.toNat + i)).isSome = true

/-- A fault-free run has ended: no host operation left and STATE not BUSY (R304). -/
def State.ended (s : State) : Bool := s.ops.isEmpty && !s.busy && s.faulted.isEmpty

/-- What is observed at the end of a fault-free run (R304). -/
structure Observation where
  status : Word
  result : Word
  errPos : Word
  byteMem : Memory Byte
  symMem : Memory Symbol
  actP : Table Symbol 2048
  actT : Table Symbol 8
  deriving DecidableEq, Repr

/-- The observation of a state (R304). -/
def State.observe (s : State) : Observation where
  status := statusWord s
  result := s.result
  errPos := s.errPos
  byteMem := s.byteMem
  symMem := s.symMem
  actP := s.actP
  actT := s.actT

/-! ## Alphabets -/

/-- The round-trip precondition (R154), with the CR/LF invariant every alphabet in use has (R152). -/
structure RoundTripAlphabet (p : Table Symbol 2048) (t : Table Symbol 8) : Prop where
  primary_distinct : p.entries.Nodup
  trailing_distinct : t.entries.Nodup
  disjoint : ∀ c ∈ p.entries, c ∉ t.entries
  primary_clean : Clean p
  trailing_clean : Clean t

end Sys2Proof.Machine
end

