-- ==== Sys2Proof/Certificates/Slice0/Obligations.lean ====
section
/-! DEFINITION. The statements about the machine, for the provers. Each docstring names the rule of spec/ it formalises; a
statement about a model's own field or choice says so. -/

open Sys2Proof Sys2Proof.Machine

/-! ## Command words -/

/-- R95: the legal words are the seven encodings 0x1 to 0x7, each one's own command, and every other word is illegal. -/
def Obligations.LegalWordsAreTheSevenEncodings : Prop :=
  (∀ w i, decodeCmd w = .legal i ↔ w = encode i)
    ∧ (∀ w : Word, (∃ i, decodeCmd w = .legal i) ↔ 1 ≤ w.toNat ∧ w.toNat ≤ 7)
    ∧ (∀ w, (∃ i, decodeCmd w = .legal i) ∨ ∃ why, decodeCmd w = .illegal why)

/-- R92: the opcode map on the words written out, the reserved opcodes, and two words with RSV not 0 (K-1 to K-4). -/
def Obligations.OpcodeMapWords : Prop :=
  decodeCmd 0x00000001 = .legal .enclen ∧ decodeCmd 0x00000002 = .legal .declen
    ∧ decodeCmd 0x00000003 = .legal .encode ∧ decodeCmd 0x00000004 = .legal .decode
    ∧ decodeCmd 0x00000005 = .legal .build ∧ decodeCmd 0x00000006 = .legal .loaddef
    ∧ decodeCmd 0x00000007 = .legal .clear
    ∧ (∀ n, n < 16 → n = 0 ∨ 8 ≤ n → decodeCmd (BitVec.ofNat 32 n) = .illegal .reservedOp)
    ∧ decodeCmd 0x00000013 = .illegal .rsvNotZero ∧ decodeCmd 0x80000003 = .illegal .rsvNotZero

/-! ## Issuing a command -/

/-- R120, R123: when the host's next operation writes a legal command word and STATE is not BUSY, the step is the meaning
of the decoded command, on the state with that operation taken off. -/
def Obligations.StepRunsDecodedCommand : Prop :=
  ∀ (s : State) (w : Word) (i : Instr) (ops : List HostOp),
    s.faulted = [] → s.busy = false → s.ops = .wr 4 0x00 w :: ops → decodeCmd w = .legal i →
      step s = exec i { s with ops := ops }

/-- R94: a word with RSV not 0, or with OP 0x0 or 0x8 to 0xF, ends at once with ILLEGAL, and changes nothing but STATE, ERR,
RESULT and ERR_POS. -/
def Obligations.IllegalWordEndsWithIllegal : Prop :=
  ∀ (s : State) (w : Word) (ops : List HostOp),
    s.faulted = [] → s.busy = false → s.ops = .wr 4 0x00 w :: ops →
    (w.extractLsb' 4 28 ≠ 0 ∨ w.extractLsb' 0 4 = 0 ∨ 8 ≤ (w.extractLsb' 0 4).toNat) →
      step s = .next (endedWith .illegal { s with ops := ops })

/-- R296: a CMD write while BUSY sets VIOL and is otherwise ignored. (`turns` is the model's own field, log 2: here it gives
the host this step.) -/
def Obligations.CommandWhileBusySetsViolOnly : Prop :=
  ∀ (s : State) (w : Word) (ops : List HostOp) (turns : List Agent),
    s.faulted = [] → s.busy = true → s.ops = .wr 4 0x00 w :: ops → s.turns = .host :: turns →
      step s = .next { s with ops := ops, turns := turns, viol := true }

/-! ## The length calculator -/

/-- R240, R241: ENCLEN leaves ceil(8n/11) in RESULT, exact for every 32-bit n, and ends DONE. -/
def Obligations.EnclenGivesEncodedLength : Prop :=
  ∀ s : State, ∃ t, exec .enclen s = .next t
    ∧ t.result.toNat = (8 * s.srcLen.toNat + 10) / 11
    ∧ 8 * s.srcLen.toNat ≤ 11 * t.result.toNat ∧ 11 * t.result.toNat < 8 * s.srcLen.toNat + 11
    ∧ t.engine = .done ∧ t.err = .none ∧ t.errPos = 0

/-- R242, R243: DECLEN leaves floor(11n/8) in RESULT and ends DONE while that fits 32 bits, which is exactly for n below
3123612579; from there on it ends with RANGE and RESULT 0. -/
def Obligations.DeclenGivesDecodedLengthOrRange : Prop :=
  ∀ s : State,
    (s.srcLen.toNat < 3123612579 → ∃ t, exec .declen s = .next t
      ∧ t.result.toNat = 11 * s.srcLen.toNat / 8 ∧ t.engine = .done ∧ t.err = .none ∧ t.errPos = 0)
    ∧ (3123612579 ≤ s.srcLen.toNat → exec .declen s = .next (endedWith .range s))
    ∧ (11 * s.srcLen.toNat / 8 > 2 ^ 32 - 1 ↔ 3123612579 ≤ s.srcLen.toNat)

/-- R246: the laws of the two length functions and their widths. -/
def Obligations.LengthLaws : Prop :=
  (∀ n, encodedLen (n + 11) = encodedLen n + 8) ∧ (∀ n, decodedLen (n + 8) = decodedLen n + 11)
    ∧ (∀ m n, m ≤ n → encodedLen m ≤ encodedLen n) ∧ (∀ n, encodedLen n ≤ n)
    ∧ (∀ n, encodedLen n = n ↔ n ≤ 3) ∧ (∀ n, n < 2 ^ 32 → encodedLen n < 2 ^ 32)
    ∧ (∀ n, n ≤ 2 ^ 28 → decodedLen n < 2 ^ 32)
    ∧ decodedLen (2 ^ 28) = 369098752 ∧ encodedLen (2 ^ 28) = 195225787

/-- R247: decoded_len(encoded_len(n)) - n is 0 or 1, and 1 exactly when 8n mod 11 is in 1 to 3. -/
def Obligations.DecodedLengthOfEncodedLength : Prop :=
  ∀ n, (decodedLen (encodedLen n) = n ∨ decodedLen (encodedLen n) = n + 1)
    ∧ (decodedLen (encodedLen n) = n + 1 ↔ 1 ≤ 8 * n % 11 ∧ 8 * n % 11 ≤ 3)

/-! ## The alphabet store -/

/-- R143, R144, R145: BUILD's outcome in every case. The sizes are checked first, then every entry is read, then CR and LF
are looked for; an error changes no table and reports one code; success installs both tables and leaves STAGING. -/
def Obligations.BuildChecksThenInstalls : Prop :=
  ∀ s : State,
    (s.plen ≠ 2048 → exec .build s = .next (endedWith .cfgPsize s))
    ∧ (s.plen = 2048 → s.tlen ≠ 8 → exec .build s = .next (endedWith .cfgTsize s))
    ∧ (s.plen = 2048 → s.tlen = 8 → (none ∈ s.stgP.entries ∨ none ∈ s.stgT.entries) →
        exec .build s = .fault (.raised .unwritten (addFault .unwritten s.faulted)))
    ∧ (∀ (p : Table Symbol 2048) (q : Table Symbol 8), s.plen = 2048 → s.tlen = 8 →
        s.stgP.entries = p.entries.map some → s.stgT.entries = q.entries.map some →
        ((∃ c, (c ∈ p.entries ∨ c ∈ q.entries) ∧ (c = 0x0D#21 ∨ c = 0x0A#21)) →
          exec .build s = .next (endedWith .cfgCtrl s))
        ∧ ((∀ c, c ∈ p.entries ∨ c ∈ q.entries → c ≠ 0x0D#21 ∧ c ≠ 0x0A#21) →
          ∃ t, exec .build s = .next t ∧ t.actP = p ∧ t.actT = q ∧ t.engine = .done ∧ t.err = .none
            ∧ t.result = 0 ∧ t.errPos = 0 ∧ SameStaging s t))

/-- R146: LOADDEF installs the default tables, ends DONE, and leaves STAGING, PLEN and TLEN. -/
def Obligations.LoaddefInstallsDefaults : Prop :=
  ∀ s : State, ∃ t, exec .loaddef s = .next t ∧ t.actP = s.cfg.defaultP ∧ t.actT = s.cfg.defaultT
    ∧ t.engine = .done ∧ t.err = .none ∧ t.result = 0 ∧ t.errPos = 0
    ∧ SameStaging s t ∧ t.plen = s.plen ∧ t.tlen = s.tlen

/-- R148, R149, R150: an inverse lookup gives the highest index holding the symbol, and nothing when no entry holds it. -/
def Obligations.InverseLookupGivesHighestIndex : Prop :=
  ∀ (s : State) (c : Symbol),
    (∀ v : BitVec 11, primaryInverse s c = some v ↔
      symbolP s v = c ∧ ∀ w : BitVec 11, v.toNat < w.toNat → symbolP s w ≠ c)
    ∧ (primaryInverse s c = none ↔ ∀ v : BitVec 11, symbolP s v ≠ c)
    ∧ (∀ v : BitVec 3, trailingInverse s c = some v ↔
      symbolT s v = c ∧ ∀ w : BitVec 3, v.toNat < w.toNat → symbolT s w ≠ c)
    ∧ (trailingInverse s c = none ↔ ∀ v : BitVec 3, symbolT s v ≠ c)

/-- R152: in every state that meets the invariant the ACTIVE tables hold no CR or LF, so no inverse lookup finds one, and an
ENCODE step leaves no CR or LF in SYM_MEM that was not there before. -/
def Obligations.ActiveTablesHoldNoWhitespace : Prop :=
  ∀ s : State, Inv s →
    (∀ v : BitVec 11, symbolP s v ≠ 0x0D ∧ symbolP s v ≠ 0x0A)
    ∧ (∀ v : BitVec 3, symbolT s v ≠ 0x0D ∧ symbolT s v ≠ 0x0A)
    ∧ primaryInverse s 0x0D = none ∧ primaryInverse s 0x0A = none
    ∧ trailingInverse s 0x0D = none ∧ trailingInverse s 0x0A = none
    ∧ (∀ t, EncodeRunning s → engineStep s = .next t → ∀ a c, Memory.read t.symMem a = some c →
        (c = 0x0D#21 ∨ c = 0x0A#21) → Memory.read s.symMem a = some c)

/-- R40: only a BUILD, a LOADDEF or a reset changes the ACTIVE tables, and while BUSY only a reset. -/
def Obligations.ActiveTablesChangeOnlyByBuildLoaddefReset : Prop :=
  ∀ s t : State, step s = .next t → (t.actP ≠ s.actP ∨ t.actT ≠ s.actT) →
    ∃ op ops, s.ops = op :: ops ∧
      (op = .reset ∨ (s.busy = false ∧ (op = .wr 4 0x00 0x00000005 ∨ op = .wr 4 0x00 0x00000006)))

/-- R41, R300: only a write of TBL_DATA with BANK = 0 or a reset changes the STAGING tables. -/
def Obligations.StagingChangesOnlyByTablePortOrReset : Prop :=
  ∀ s t : State, step s = .next t → (t.stgP ≠ s.stgP ∨ t.stgT ≠ s.stgT) →
    ∃ op ops, s.ops = op :: ops ∧ (op = .reset ∨ (s.tblBank = false ∧ ∃ w, op = .wr 4 0x24 w))

/-- R141, R270: an instance with CR or LF in a default table is refused when it is configured; one that is well formed starts
in its power-on state. -/
def Obligations.IllFormedInstanceRefused : Prop :=
  ∀ c : Config,
    ((∃ x, (x ∈ c.defaultP.entries ∨ x ∈ c.defaultT.entries) ∧ (x = 0x0D#21 ∨ x = 0x0A#21)) →
      configure c = .refused .illFormedConfig)
    ∧ (1 ≤ c.addrW → c.addrW ≤ 28 →
      (∀ x, x ∈ c.defaultP.entries ∨ x ∈ c.defaultT.entries → x ≠ 0x0D#21 ∧ x ≠ 0x0A#21) →
      configure c = .next (State.powerOn c))

/-! ## CLEAR, and what commands leave alone -/

/-- R124: CLEAR sets STATE to IDLE and clears VIOL, ERR, RESULT and ERR_POS; everything else stays. -/
def Obligations.ClearReturnsToIdle : Prop :=
  ∀ s : State, exec .clear s
    = .next { s with engine := .idle, viol := false, err := .none, result := 0, errPos := 0 }

/-- R263: when an accepted command ends in ERROR at acceptance, it has written STATE, ERR, RESULT and ERR_POS and nothing
else. -/
def Obligations.ErrorAtAcceptanceWritesNothingElse : Prop :=
  ∀ (i : Instr) (s t : State), exec i s = .next t → t.engine = .error → t = endedWith t.err s ∧ t.err ≠ .none

/-- The frame of the seven commands' accepting steps (R62, R121, R124, R143, R146, R170, R200): what each leaves unchanged
when it answers a next state. No command stores to a buffer memory at acceptance. -/
def Obligations.CommandFrame : Prop :=
  ∀ (i : Instr) (s t : State), exec i s = .next t →
    SameBuffers s t ∧ SameOperands s t ∧ SameStaging s t ∧ SameHostSide s t
    ∧ (i ≠ .encode → i ≠ .decode → SameLatches s t ∧ SameCounters s t)
    ∧ (i ≠ .encode → SameEncoder s t)
    ∧ (i ≠ .decode → SameDecoder s t ∧ SameLast s t)
    ∧ (i ≠ .build → i ≠ .loaddef → SameActive s t)
    ∧ (i ≠ .clear → t.viol = s.viol)

/-- R25: VIOL is sticky: only an accepted CLEAR or a reset clears it. -/
def Obligations.ViolIsSticky : Prop :=
  ∀ s t : State, step s = .next t → s.viol = true → t.viol = false →
    ∃ op ops, s.ops = op :: ops ∧ (op = .reset ∨ (s.busy = false ∧ op = .wr 4 0x00 0x00000007))

/-! ## ENCODE -/

/-- R170, R171: ENCODE checks its ranges, then its capacity, each before any write; otherwise it latches its operands, clears
the encoder and its counters, and STATE becomes BUSY. -/
def Obligations.EncodeAcceptance : Prop :=
  ∀ s : State,
    ((s.srcBase.toNat + s.srcLen.toNat > 2 ^ s.cfg.addrW ∨ s.dstBase.toNat + s.dstCap.toNat > 2 ^ s.cfg.addrW) →
      exec .encode s = .next (endedWith .range s))
    ∧ (s.srcBase.toNat + s.srcLen.toNat ≤ 2 ^ s.cfg.addrW → s.dstBase.toNat + s.dstCap.toNat ≤ 2 ^ s.cfg.addrW →
      s.dstCap.toNat < (8 * s.srcLen.toNat + 10) / 11 → exec .encode s = .next (endedWith .dstSmall s))
    ∧ (s.srcBase.toNat + s.srcLen.toNat ≤ 2 ^ s.cfg.addrW → s.dstBase.toNat + s.dstCap.toNat ≤ 2 ^ s.cfg.addrW →
      (8 * s.srcLen.toNat + 10) / 11 ≤ s.dstCap.toNat →
      ∃ t, exec .encode s = .next t ∧ t.engine = .busy ∧ t.err = .none ∧ t.result = 0 ∧ t.errPos = 0
        ∧ t.lOp = 0x3 ∧ t.lSrc = s.srcBase ∧ t.lLen = s.srcLen ∧ t.lDst = s.dstBase ∧ t.lCap = s.dstCap
        ∧ t.encStage = 0 ∧ t.encRem = 0 ∧ t.idx = 0 ∧ t.out = 0)

/-- R172: a byte that completes a group. The index formed from the accumulator and the top `need` bits of the byte fits 11
bits, its primary symbol is written at L_DST + OUT, and the low bits of the byte stay. -/
def Obligations.EncodeByteCompletesGroup : Prop :=
  ∀ (s : State) (b : Byte), Inv s → EncodeRunning s → s.idx < s.lLen.toNat →
    Memory.read s.byteMem (s.lSrc.toNat + s.idx) = some b → 3 ≤ s.encRem.toNat →
    ∃ t, engineStep s = .next t ∧
      ∃ h : (s.encStage.toNat <<< (11 - s.encRem.toNat)) ||| (b.toNat >>> (8 - (11 - s.encRem.toNat))) < 2048,
        Memory.read t.symMem (s.lDst.toNat + s.out) = some (s.actP.get ⟨_, h⟩)
        ∧ (∀ a, a ≠ s.lDst.toNat + s.out → Memory.read t.symMem a = Memory.read s.symMem a)
        ∧ (∀ a, Memory.read t.byteMem a = Memory.read s.byteMem a)
        ∧ t.out = s.out + 1 ∧ t.idx = s.idx + 1 ∧ t.engine = .busy
        ∧ t.encRem.toNat = 8 - (11 - s.encRem.toNat)
        ∧ t.encStage.toNat = b.toNat % 2 ^ (8 - (11 - s.encRem.toNat))

/-- R173: a byte that completes no group is folded into the accumulator, and no symbol is written. -/
def Obligations.EncodeByteFolds : Prop :=
  ∀ (s : State) (b : Byte), Inv s → EncodeRunning s → s.idx < s.lLen.toNat →
    Memory.read s.byteMem (s.lSrc.toNat + s.idx) = some b → s.encRem.toNat ≤ 2 →
    ∃ t, engineStep s = .next t ∧ t.encStage.toNat = s.encStage.toNat * 256 + b.toNat
      ∧ t.encRem.toNat = s.encRem.toNat + 8 ∧ t.idx = s.idx + 1 ∧ t.out = s.out ∧ t.engine = .busy
      ∧ SameBuffers s t

/-- R174, R180: the final step. Nothing is written when no bits are left; 1 to 3 bits go to the trailing table and 4 to 10 to
the primary table, right-aligned; RESULT is the count and STATE is DONE. -/
def Obligations.EncodeFinalSymbol : Prop :=
  ∀ s : State, Inv s → EncodeRunning s → s.idx = s.lLen.toNat →
    ∃ t, engineStep s = .next t ∧ t.engine = .done ∧ t.err = .none
      ∧ (s.encRem = 0 → t.result.toNat = s.out ∧ t.out = s.out ∧ SameBuffers s t)
      ∧ (s.encRem ≠ 0 → t.result.toNat = s.out + 1 ∧ t.out = s.out + 1
        ∧ (∀ a, a ≠ s.lDst.toNat + s.out → Memory.read t.symMem a = Memory.read s.symMem a)
        ∧ (∀ a, Memory.read t.byteMem a = Memory.read s.byteMem a)
        ∧ (s.encRem.toNat ≤ 3 → ∃ h : s.encStage.toNat < 8,
          Memory.read t.symMem (s.lDst.toNat + s.out) = some (s.actT.get ⟨s.encStage.toNat, h⟩))
        ∧ (4 ≤ s.encRem.toNat → ∃ h : s.encStage.toNat < 2048,
          Memory.read t.symMem (s.lDst.toNat + s.out) = some (s.actP.get ⟨s.encStage.toNat, h⟩)))

/-- R179, R181: an accepted ENCODE whose source is written ends DONE after exactly n + 1 engine steps, BUSY before each of
them, with the symbols of ENC(b) at L_DST, RESULT their number, and every other element as it was. (With no host
operation left the engine takes every step.) -/
def Obligations.EncodeRunWritesEncodedSymbols : Prop :=
  ∀ (s : State) (b : List Byte), s.faulted = [] → s.ops = [] →
    s.srcBase.toNat + s.srcLen.toNat ≤ 2 ^ s.cfg.addrW → s.dstBase.toNat + s.dstCap.toNat ≤ 2 ^ s.cfg.addrW →
    encodedLen s.srcLen.toNat ≤ s.dstCap.toNat →
    Memory.readRun s.byteMem s.srcBase.toNat s.srcLen.toNat = some b →
    ∃ t u, exec .encode s = .next t ∧ runSteps (s.srcLen.toNat + 1) t = .next u
      ∧ (∀ k, k ≤ s.srcLen.toNat → ∃ m, runSteps k t = .next m ∧ m.engine = .busy)
      ∧ u.engine = .done ∧ u.err = .none ∧ u.errPos = 0 ∧ u.result.toNat = encodedLen b.length
      ∧ Memory.readRun u.symMem s.dstBase.toNat (encodedLen b.length) = some (encodedSymbols s.actP s.actT b)
      ∧ (∀ a, a < s.dstBase.toNat ∨ s.dstBase.toNat + encodedLen b.length ≤ a →
        Memory.read u.symMem a = Memory.read s.symMem a)
      ∧ (∀ a, Memory.read u.byteMem a = Memory.read s.byteMem a)

/-! ## DECODE -/

/-- R200, R201, R202, R80: DECODE checks its ranges, then its capacity; otherwise it latches its operands, finds the last
non-whitespace symbol of its source, clears the decoder and its counters, and STATE becomes BUSY. (That the search reads
the range this same acceptance latches, SRC_BASE and SRC_LEN, is DEDUCED, log 11.) -/
def Obligations.DecodeAcceptance : Prop :=
  ∀ s : State,
    ((s.srcBase.toNat + s.srcLen.toNat > 2 ^ s.cfg.addrW ∨ s.dstBase.toNat + s.dstCap.toNat > 2 ^ s.cfg.addrW) →
      exec .decode s = .next (endedWith .range s))
    ∧ (s.srcBase.toNat + s.srcLen.toNat ≤ 2 ^ s.cfg.addrW → s.dstBase.toNat + s.dstCap.toNat ≤ 2 ^ s.cfg.addrW →
      s.dstCap.toNat < 11 * s.srcLen.toNat / 8 → exec .decode s = .next (endedWith .dstSmall s))
    ∧ (∀ src, s.srcBase.toNat + s.srcLen.toNat ≤ 2 ^ s.cfg.addrW → s.dstBase.toNat + s.dstCap.toNat ≤ 2 ^ s.cfg.addrW →
      11 * s.srcLen.toNat / 8 ≤ s.dstCap.toNat →
      Memory.readRun s.symMem s.srcBase.toNat s.srcLen.toNat = some src →
      ∃ t, exec .decode s = .next t ∧ t.engine = .busy ∧ t.err = .none ∧ t.result = 0 ∧ t.errPos = 0
        ∧ t.lOp = 0x4 ∧ t.lSrc = s.srcBase ∧ t.lLen = s.srcLen ∧ t.lDst = s.dstBase ∧ t.lCap = s.dstCap
        ∧ t.decAcc = 0 ∧ t.decRem = 0 ∧ t.decRes = 0 ∧ t.idx = 0 ∧ t.out = 0
        ∧ (t.decHasLast = false → t.decLast = 0 ∧ ∀ c ∈ src, c = 0x0D#21 ∨ c = 0x0A#21)
        ∧ (t.decHasLast = true → ∃ c, src[t.decLast]? = some c ∧ c ≠ 0x0D#21 ∧ c ≠ 0x0A#21
          ∧ ∀ j d, t.decLast < j → src[j]? = some d → d = 0x0D#21 ∨ d = 0x0A#21))

/-- R303: an unwritten source element is ModelFault(UNWRITTEN), for a DECODE at acceptance, whatever the other symbols are,
and for an ENCODE in the step that reads it. -/
def Obligations.UnwrittenSourceFaults : Prop :=
  (∀ (s : State) (i : Nat),
    s.srcBase.toNat + s.srcLen.toNat ≤ 2 ^ s.cfg.addrW → s.dstBase.toNat + s.dstCap.toNat ≤ 2 ^ s.cfg.addrW →
    11 * s.srcLen.toNat / 8 ≤ s.dstCap.toNat → i < s.srcLen.toNat →
    Memory.read s.symMem (s.srcBase.toNat + i) = none →
      exec .decode s = .fault (.raised .unwritten (addFault .unwritten s.faulted)))
  ∧ (∀ s : State, EncodeRunning s → s.idx < s.lLen.toNat →
    Memory.read s.byteMem (s.lSrc.toNat + s.idx) = none →
      engineStep s = .fault (.raised .unwritten (addFault .unwritten s.faulted)))

/-- R203: CR and LF are skipped; the position counter advances and nothing else changes. -/
def Obligations.DecodeSkipsWhitespace : Prop :=
  ∀ (s : State) (c : Symbol), DecodeRunning s → s.idx < s.lLen.toNat →
    Memory.read s.symMem (s.lSrc.toNat + s.idx) = some c → (c = 0x0D#21 ∨ c = 0x0A#21) →
      engineStep s = .next { s with idx := s.idx + 1 }

/-- R204, R205, R208: a primary symbol whose value fits contributes 11 bits, or 11 - residue when it is the last
non-whitespace symbol; the residue is updated first, and the whole bytes are written. -/
def Obligations.DecodePrimarySymbol : Prop :=
  ∀ (s : State) (c : Symbol) (v : BitVec 11) (n : Nat), Inv s → DecodeRunning s → s.idx < s.lLen.toNat →
    Memory.read s.symMem (s.lSrc.toNat + s.idx) = some c → c ≠ 0x0D#21 → c ≠ 0x0A#21 →
    primaryInverse s c = some v →
    n = (if s.decHasLast && s.idx == s.decLast then 11 - (s.decRes.toNat + 11) % 8 else 11) → v.toNat < 2 ^ n →
    ∃ t, engineStep s = .next t ∧ Accumulated n (s.decAcc.toNat * 2 ^ n + v.toNat) s t
      ∧ t.decRes.toNat = (s.decRes.toNat + 11) % 8 ∧ t.idx = s.idx + 1 ∧ t.engine = .busy
      ∧ (∀ a, Memory.read t.symMem a = Memory.read s.symMem a)

/-- R209: a last primary symbol whose value does not fit goes by P_LASTFIT: masked, ORed in and truncated, or CORRUPT. -/
def Obligations.DecodeTooWidePrimary : Prop :=
  ∀ (s : State) (c : Symbol) (v : BitVec 11) (n : Nat), Inv s → DecodeRunning s → s.idx < s.lLen.toNat →
    Memory.read s.symMem (s.lSrc.toNat + s.idx) = some c → c ≠ 0x0D#21 → c ≠ 0x0A#21 →
    primaryInverse s c = some v → s.decHasLast = true → s.idx = s.decLast →
    n = 11 - (s.decRes.toNat + 11) % 8 → 2 ^ n ≤ v.toNat →
    ∃ t, engineStep s = .next t ∧ (∀ a, Memory.read t.symMem a = Memory.read s.symMem a)
      ∧ (s.cfg.lastFit = .mask →
        Accumulated n (s.decAcc.toNat * 2 ^ n + v.toNat % 2 ^ n) s t ∧ t.idx = s.idx + 1 ∧ t.engine = .busy)
      ∧ (s.cfg.lastFit = .orTrunc →
        Accumulated n (((s.decAcc.toNat <<< n) ||| v.toNat) % 2 ^ (s.decRem.toNat + n)) s t
          ∧ t.idx = s.idx + 1 ∧ t.engine = .busy)
      ∧ (s.cfg.lastFit = .corrupt → Corrupted s t)

/-- R206: a trailing symbol is legal only as the last non-whitespace symbol and when its value fits the bits missing from
the current byte: it then writes exactly that byte and leaves the accumulator empty; otherwise it is CORRUPT. -/
def Obligations.DecodeTrailingSymbol : Prop :=
  ∀ (s : State) (c : Symbol) (v : BitVec 3), Inv s → DecodeRunning s → s.idx < s.lLen.toNat →
    Memory.read s.symMem (s.lSrc.toNat + s.idx) = some c → c ≠ 0x0D#21 → c ≠ 0x0A#21 →
    primaryInverse s c = none → trailingInverse s c = some v →
    ∃ t, engineStep s = .next t ∧ (∀ a, Memory.read t.symMem a = Memory.read s.symMem a)
      ∧ ((s.decHasLast = true ∧ s.idx = s.decLast ∧ v.toNat < 2 ^ (8 - s.decRem.toNat)) →
        Accumulated (8 - s.decRem.toNat) (s.decAcc.toNat * 2 ^ (8 - s.decRem.toNat) + v.toNat) s t
          ∧ t.out = s.out + 1 ∧ t.decRem = 0 ∧ t.decRes.toNat = (s.decRes.toNat + 11) % 8
          ∧ t.idx = s.idx + 1 ∧ t.engine = .busy)
      ∧ (¬ (s.decHasLast = true ∧ s.idx = s.decLast ∧ v.toNat < 2 ^ (8 - s.decRem.toNat)) → Corrupted s t)

/-- R207, R211: a symbol in neither table is CORRUPT at its position, with the bytes written before it. -/
def Obligations.DecodeUnknownSymbolIsCorrupt : Prop :=
  ∀ (s : State) (c : Symbol), Inv s → DecodeRunning s → s.idx < s.lLen.toNat →
    Memory.read s.symMem (s.lSrc.toNat + s.idx) = some c → c ≠ 0x0D#21 → c ≠ 0x0A#21 →
    primaryInverse s c = none → trailingInverse s c = none →
    ∃ t, engineStep s = .next t ∧ Corrupted s t

/-- R210: on input exhaustion RESULT is OUT and STATE is DONE; the bits still held are dropped and nothing is written. -/
def Obligations.DecodeFinalStep : Prop :=
  ∀ s : State, Inv s → DecodeRunning s → s.idx = s.lLen.toNat →
    ∃ t, engineStep s = .next t ∧ t.engine = .done ∧ t.err = .none ∧ t.result.toNat = s.out
      ∧ t = { s with engine := .done, result := t.result }

/-- R221, R306: an accepted DECODE comes to what its function says. It ends DONE after L_LEN + 1 engine steps, or CORRUPT at
position p after p + 1, BUSY before each of them; the bytes of the function are at L_DST, RESULT is their number, and
every other element is as it was. -/
def Obligations.DecodeRunComputesItsFunction : Prop :=
  ∀ (s : State) (src : List Symbol), s.faulted = [] → s.ops = [] →
    s.srcBase.toNat + s.srcLen.toNat ≤ 2 ^ s.cfg.addrW → s.dstBase.toNat + s.dstCap.toNat ≤ 2 ^ s.cfg.addrW →
    decodedLen s.srcLen.toNat ≤ s.dstCap.toNat →
    Memory.readRun s.symMem s.srcBase.toNat s.srcLen.toNat = some src →
    ∃ t u r, r = decodedResult s.cfg.lastFit s.actP s.actT src ∧ exec .decode s = .next t
      ∧ runSteps (r.corruptAt.getD src.length + 1) t = .next u
      ∧ (∀ k, k ≤ r.corruptAt.getD src.length → ∃ m, runSteps k t = .next m ∧ m.engine = .busy)
      ∧ (r.corruptAt = none → u.engine = .done ∧ u.err = .none ∧ u.errPos = 0)
      ∧ (∀ p, r.corruptAt = some p → p < src.length ∧ u.engine = .error ∧ u.err = .corrupt ∧ u.errPos.toNat = p)
      ∧ u.result.toNat = r.bytes.length
      ∧ Memory.readRun u.byteMem s.dstBase.toNat r.bytes.length = some r.bytes
      ∧ (∀ a, a < s.dstBase.toNat ∨ s.dstBase.toNat + r.bytes.length ≤ a →
        Memory.read u.byteMem a = Memory.read s.byteMem a)
      ∧ (∀ a, Memory.read u.symMem a = Memory.read s.symMem a)

/-! ## The two commands together -/

/-- R216, as functions: under the round-trip precondition the decoder's function gives back every byte sequence from its
encoding, whatever P_LASTFIT is. -/
def Obligations.CodecRoundTrip : Prop :=
  ∀ (fit : LastFit) (p : Table Symbol 2048) (q : Table Symbol 8) (b : List Byte), RoundTripAlphabet p q →
    decodedResult fit p q (encodedSymbols p q b) = ⟨none, b⟩

/-- R216, on the machine: a DECODE whose source range holds ENC(b) under a round-trip alphabet ends DONE after one step for
each symbol and a final one, with RESULT = n and the destination equal to b. -/
def Obligations.DecodeOfEncodeGivesInputBack : Prop :=
  ∀ (s : State) (b : List Byte), RoundTripAlphabet s.actP s.actT → s.faulted = [] → s.ops = [] →
    s.srcBase.toNat + s.srcLen.toNat ≤ 2 ^ s.cfg.addrW → s.dstBase.toNat + s.dstCap.toNat ≤ 2 ^ s.cfg.addrW →
    decodedLen s.srcLen.toNat ≤ s.dstCap.toNat →
    Memory.readRun s.symMem s.srcBase.toNat s.srcLen.toNat = some (encodedSymbols s.actP s.actT b) →
    ∃ t u, exec .decode s = .next t ∧ runSteps (s.srcLen.toNat + 1) t = .next u
      ∧ u.engine = .done ∧ u.err = .none ∧ u.result.toNat = b.length
      ∧ Memory.readRun u.byteMem s.dstBase.toNat b.length = some b

/-- R217: two sources with the same non-whitespace symbols decode to the same bytes and the same outcome; a corrupt position
moves only by the whitespace before it. -/
def Obligations.DecodeIgnoresWhitespace : Prop :=
  ∀ (fit : LastFit) (p : Table Symbol 2048) (q : Table Symbol 8) (src src' : List Symbol),
    src.filter (fun c => !isWs c) = src'.filter (fun c => !isWs c) →
    (decodedResult fit p q src).bytes = (decodedResult fit p q src').bytes
      ∧ ((decodedResult fit p q src).corruptAt = none → (decodedResult fit p q src').corruptAt = none)
      ∧ (∀ i, (decodedResult fit p q src).corruptAt = some i →
        ∃ j, (decodedResult fit p q src').corruptAt = some j ∧ src[i]? = src'[j]?
          ∧ nonWsCount (src.take i) = nonWsCount (src'.take j))

/-! ## The engine and the two agents -/

/-- The frame of an engine step (R20, R69, R173, R182, R263): an ENCODE step touches at most SYM_MEM[L_DST + OUT] and no byte, a
DECODE step only the bytes OUT counts from L_DST + OUT on and no symbol; operands, latches, tables, VIOL and the host's
side stay. -/
def Obligations.EngineStepFrame : Prop :=
  ∀ s t : State, engineStep s = .next t →
    SameOperands s t ∧ SameLatches s t ∧ SameActive s t ∧ SameStaging s t ∧ SameHostSide s t ∧ SameLast s t
    ∧ t.viol = s.viol
    ∧ (s.idx < s.lLen.toNat → t.engine = s.engine → t.engine = .busy → t.idx = s.idx + 1)
    ∧ (s.lOp = opEncode → SameDecoder s t ∧ s.out ≤ t.out ∧ t.out ≤ s.out + 1
      ∧ (∀ a, Memory.read t.byteMem a = Memory.read s.byteMem a)
      ∧ (∀ a, a ≠ dstAddr s → Memory.read t.symMem a = Memory.read s.symMem a)
      ∧ (t.out = s.out → ∀ a, Memory.read t.symMem a = Memory.read s.symMem a))
    ∧ (s.lOp = opDecode → SameEncoder s t ∧ s.out ≤ t.out ∧ t.out ≤ s.out + 2
      ∧ (∀ a, Memory.read t.symMem a = Memory.read s.symMem a)
      ∧ (∀ a, a < dstAddr s ∨ dstAddr s + (t.out - s.out) ≤ a →
        Memory.read t.byteMem a = Memory.read s.byteMem a))

/-- R134, R133: while FAULTED is empty and STATE is not BUSY, the step is the host's first operation, whatever it is, on the
state with that operation taken off. (`ops` and `turns` are the model's own fields, log 1 and 2: no turn is used up.) -/
def Obligations.HostStepsWhileNotBusy : Prop :=
  ∀ (s : State) (op : HostOp) (ops : List HostOp), s.faulted = [] → s.busy = false → s.ops = op :: ops →
    step s = hostStep op { s with ops := ops }

/-- R71: when both agents have a step, either may take it. (`turns` is the model's own field, log 2; the host's step is its
first operation and the engine's is `engineStep`.) With no host operation left a BUSY engine goes. -/
def Obligations.EitherEnabledAgentMayGo : Prop :=
  ∀ (s : State), s.faulted = [] → s.busy = true →
    (s.ops = [] → step s = engineStep s)
    ∧ (∀ op ops turns, s.ops = op :: ops →
      step { s with turns := .host :: turns } = hostStep op { s with ops := ops, turns := turns }
      ∧ step { s with turns := .engine :: turns } = engineStep { s with turns := turns })

/-- R301, R129: a register write other than CMD, made while an engine step is due, and that engine step can be taken in
either order with the same outcome. -/
def Obligations.RegisterWriteCommutesWithEngine : Prop :=
  ∀ (s t : State) (off : Nat) (w : Word), engineStep s = .next t → off % 4 = 0 → 0x04 ≤ off → off < 0x40 →
    ∃ s' u, hostStep (.wr 4 off w) s = .next s' ∧ engineStep s' = .next u ∧ hostStep (.wr 4 off w) t = .next u

/-- R133, R134, R270: once FAULTED is not empty no agent has a step. -/
def Obligations.FaultedMachineHasNoStep : Prop :=
  ∀ s : State, s.faulted ≠ [] → step s = .fault (.halted s.faulted)

/-- R281: an idle core keeps all its state. (That the step then answers the same state is the model's choice, log 8.) -/
def Obligations.IdleCoreKeepsItsState : Prop :=
  ∀ s : State, s.faulted = [] → s.busy = false → s.ops = [] → step s = .next s

/-- R306, R305: every WAIT ends. From a BUSY state that meets the invariant, whatever order of turns is still to come, the
host's WAIT is over after at most one step for each turn, the engine's remaining steps and one last read. (That the turns
are a finite list of the model's own, and that the engine goes when it is used up, is the model's choice, log 2: its form
of R305's weak fairness.) -/
def Obligations.WaitEnds : Prop :=
  ∀ (s : State) (ops : List HostOp), Inv s → s.faulted = [] → s.engine = .busy → s.ops = .wait :: ops →
    (s.lOp = opEncode → SourceWritten s) →
    ∃ k t, k ≤ s.turns.length + (s.lLen.toNat - s.idx + 1) + 1 ∧ runSteps k s = .next t
      ∧ t.ops = ops ∧ t.busy = false

/-! ## The invariant -/

/-- The power-on state meets the invariant. -/
def Obligations.ResetMeetsInvariant : Prop := Inv State.reset

/-- R176, R177, R214, R215, R23, R152, R298 and the canonical form of both memories: every step keeps the invariant. -/
def Obligations.StepKeepsInvariant : Prop :=
  ∀ s t : State, Inv s → step s = .next t → Inv t

/-! ## The host's accesses -/

/-- R126, with the codes of STATE (R26) and of ERR (R27, R261) and the fields of STATUS (R25): what a read of each register
returns; the read changes nothing else, in any STATE. (The list of answers is the model's own field, log 14.) -/
def Obligations.RegisterReadsReturn : Prop :=
  (EngineState.idle.code = 0#2 ∧ EngineState.busy.code = 1#2 ∧ EngineState.done.code = 2#2
    ∧ EngineState.error.code = 3#2)
  ∧ (ErrCode.none.code = 0#4 ∧ ErrCode.cfgPsize.code = 1#4 ∧ ErrCode.cfgTsize.code = 2#4 ∧ ErrCode.cfgCtrl.code = 3#4
    ∧ ErrCode.corrupt.code = 4#4 ∧ ErrCode.illegal.code = 5#4 ∧ ErrCode.range.code = 6#4
    ∧ ErrCode.dstSmall.code = 7#4)
  ∧ ∀ s : State,
    (∃ w : Word, hostStep (.rd 4 0x04) s = .next { s with replies := w :: s.replies }
      ∧ w.toNat = 16 * s.err.code.toNat + 4 * s.viol.toNat + s.engine.code.toNat)
    ∧ (∃ w : Word, hostStep (.rd 4 0x20) s = .next { s with replies := w :: s.replies }
      ∧ w.toNat = 4096 * s.tblBank.toNat + s.tblIndex.toNat)
    ∧ hostStep (.rd 4 0x00) s = .next { s with replies := 0 :: s.replies }
    ∧ hostStep (.rd 4 0x08) s = .next { s with replies := s.srcBase :: s.replies }
    ∧ hostStep (.rd 4 0x0C) s = .next { s with replies := s.srcLen :: s.replies }
    ∧ hostStep (.rd 4 0x10) s = .next { s with replies := s.dstBase :: s.replies }
    ∧ hostStep (.rd 4 0x14) s = .next { s with replies := s.dstCap :: s.replies }
    ∧ hostStep (.rd 4 0x18) s = .next { s with replies := s.result :: s.replies }
    ∧ hostStep (.rd 4 0x1C) s = .next { s with replies := s.errPos :: s.replies }
    ∧ hostStep (.rd 4 0x28) s = .next { s with replies := s.plen :: s.replies }
    ∧ hostStep (.rd 4 0x2C) s = .next { s with replies := s.tlen :: s.replies }
    ∧ hostStep (.rd 4 0x30) s = .next { s with replies := 0x00002048 :: s.replies }

/-- R125: the six operand registers take all 32 bits in any STATE, and nothing else changes. -/
def Obligations.OperandRegisterWrites : Prop :=
  ∀ (s : State) (w : Word),
    hostStep (.wr 4 0x08 w) s = .next { s with srcBase := w }
    ∧ hostStep (.wr 4 0x0C w) s = .next { s with srcLen := w }
    ∧ hostStep (.wr 4 0x10 w) s = .next { s with dstBase := w }
    ∧ hostStep (.wr 4 0x14 w) s = .next { s with dstCap := w }
    ∧ hostStep (.wr 4 0x28 w) s = .next { s with plen := w }
    ∧ hostStep (.wr 4 0x2C w) s = .next { s with tlen := w }

/-- R127: writes of STATUS, RESULT, ERR_POS and ID and of the reserved words are ignored, the reserved words read 0, and an
access R67 does not define is ModelFault(BAD_ACCESS). -/
def Obligations.IgnoredAndUndefinedAccesses : Prop :=
  (∀ (s : State) (w : Word) (off : Nat), off ∈ [0x04, 0x18, 0x1C, 0x30, 0x34, 0x38, 0x3C] →
    hostStep (.wr 4 off w) s = .next s)
  ∧ (∀ (s : State) (off : Nat), off ∈ [0x34, 0x38, 0x3C] →
    hostStep (.rd 4 off) s = .next { s with replies := 0 :: s.replies })
  ∧ (∀ (s : State) (w : Word) (size off : Nat), (size ≠ 4 ∨ off % 4 ≠ 0 ∨ 0x40 ≤ off) →
    hostStep (.wr size off w) s = .fault (.raised .badAccess (addFault .badAccess s.faulted))
    ∧ hostStep (.rd size off) s = .fault (.raised .badAccess (addFault .badAccess s.faulted)))

/-- R128: a write of TBL_INDEX keeps bits 11:0 and 12 and drops the rest. -/
def Obligations.TableIndexWrite : Prop :=
  ∀ (s : State) (w : Word), ∃ t, hostStep (.wr 4 0x20 w) s = .next t
    ∧ t.tblIndex.toNat = w.toNat % 4096 ∧ t.tblBank.toNat = w.toNat / 4096 % 2
    ∧ t = { s with tblIndex := t.tblIndex, tblBank := t.tblBank }

/-- R130: a write of TBL_DATA stores the low 21 bits in the selected STAGING entry and marks it written; with BANK = 1 or an
index from 2056 on it stores nothing and sets VIOL. -/
def Obligations.TableDataWrite : Prop :=
  ∀ (s : State) (w : Word) (c : Symbol), c.toNat = w.toNat % 2 ^ 21 →
    (s.tblBank = false → s.tblIndex.toNat < 2048 → ∃ t, hostStep (.wr 4 0x24 w) s = .next t
      ∧ (∀ v : Fin 2048, t.stgP.get v = if v.val = s.tblIndex.toNat then some c else s.stgP.get v)
      ∧ t = { s with stgP := t.stgP })
    ∧ (s.tblBank = false → 2048 ≤ s.tblIndex.toNat → s.tblIndex.toNat < 2056 → ∃ t, hostStep (.wr 4 0x24 w) s = .next t
      ∧ (∀ v : Fin 8, t.stgT.get v = if v.val = s.tblIndex.toNat - 2048 then some c else s.stgT.get v)
      ∧ t = { s with stgT := t.stgT })
    ∧ (s.tblBank = true ∨ 2056 ≤ s.tblIndex.toNat → hostStep (.wr 4 0x24 w) s = .next { s with viol := true })

/-- R131: a read of TBL_DATA returns the selected entry zero-extended, 0 when nothing is selected, and ModelFault(UNWRITTEN)
for an unwritten STAGING entry; it changes no state. -/
def Obligations.TableDataRead : Prop :=
  ∀ (s : State),
    (∀ v : Fin 2048, s.tblIndex.toNat = v.val →
      (s.tblBank = true →
        hostStep (.rd 4 0x24) s = .next { s with replies := (s.actP.get v).setWidth 32 :: s.replies })
      ∧ (∀ c, s.tblBank = false → s.stgP.get v = some c →
        hostStep (.rd 4 0x24) s = .next { s with replies := c.setWidth 32 :: s.replies })
      ∧ (s.tblBank = false → s.stgP.get v = none →
        hostStep (.rd 4 0x24) s = .fault (.raised .unwritten (addFault .unwritten s.faulted))))
    ∧ (∀ v : Fin 8, s.tblIndex.toNat = 2048 + v.val →
      (s.tblBank = true →
        hostStep (.rd 4 0x24) s = .next { s with replies := (s.actT.get v).setWidth 32 :: s.replies })
      ∧ (∀ c, s.tblBank = false → s.stgT.get v = some c →
        hostStep (.rd 4 0x24) s = .next { s with replies := c.setWidth 32 :: s.replies })
      ∧ (s.tblBank = false → s.stgT.get v = none →
        hostStep (.rd 4 0x24) s = .fault (.raised .unwritten (addFault .unwritten s.faulted))))
    ∧ (2056 ≤ s.tblIndex.toNat → hostStep (.rd 4 0x24) s = .next { s with replies := 0 :: s.replies })

/-- R132, for BYTE_MEM: SB and LB in range while not BUSY store and read one element; out of range or too wide is BAD_ACCESS,
and otherwise while BUSY is HAZARD; an unwritten element is UNWRITTEN. -/
def Obligations.ByteMemoryPort : Prop :=
  ∀ (s : State) (a v : Nat),
    (a < 2 ^ s.cfg.addrW → v < 2 ^ 8 → s.busy = false → ∃ t, hostStep (.sb a v) s = .next t
      ∧ Memory.read t.byteMem a = some (BitVec.ofNat 8 v)
      ∧ (∀ b, b ≠ a → Memory.read t.byteMem b = Memory.read s.byteMem b) ∧ t = { s with byteMem := t.byteMem })
    ∧ (2 ^ s.cfg.addrW ≤ a ∨ 2 ^ 8 ≤ v →
      hostStep (.sb a v) s = .fault (.raised .badAccess (addFault .badAccess s.faulted)))
    ∧ (a < 2 ^ s.cfg.addrW → v < 2 ^ 8 → s.busy = true →
      hostStep (.sb a v) s = .fault (.raised .hazard (addFault .hazard s.faulted)))
    ∧ (∀ x, a < 2 ^ s.cfg.addrW → s.busy = false → Memory.read s.byteMem a = some x →
      hostStep (.lb a) s = .next { s with replies := x.setWidth 32 :: s.replies })
    ∧ (a < 2 ^ s.cfg.addrW → s.busy = false → Memory.read s.byteMem a = none →
      hostStep (.lb a) s = .fault (.raised .unwritten (addFault .unwritten s.faulted)))
    ∧ (2 ^ s.cfg.addrW ≤ a → hostStep (.lb a) s = .fault (.raised .badAccess (addFault .badAccess s.faulted)))
    ∧ (a < 2 ^ s.cfg.addrW → s.busy = true →
      hostStep (.lb a) s = .fault (.raised .hazard (addFault .hazard s.faulted)))

/-- R132, for SYM_MEM: SS and LS, as SB and LB with 21-bit elements. -/
def Obligations.SymbolMemoryPort : Prop :=
  ∀ (s : State) (a v : Nat),
    (a < 2 ^ s.cfg.addrW → v < 2 ^ 21 → s.busy = false → ∃ t, hostStep (.ss a v) s = .next t
      ∧ Memory.read t.symMem a = some (BitVec.ofNat 21 v)
      ∧ (∀ b, b ≠ a → Memory.read t.symMem b = Memory.read s.symMem b) ∧ t = { s with symMem := t.symMem })
    ∧ (2 ^ s.cfg.addrW ≤ a ∨ 2 ^ 21 ≤ v →
      hostStep (.ss a v) s = .fault (.raised .badAccess (addFault .badAccess s.faulted)))
    ∧ (a < 2 ^ s.cfg.addrW → v < 2 ^ 21 → s.busy = true →
      hostStep (.ss a v) s = .fault (.raised .hazard (addFault .hazard s.faulted)))
    ∧ (∀ x, a < 2 ^ s.cfg.addrW → s.busy = false → Memory.read s.symMem a = some x →
      hostStep (.ls a) s = .next { s with replies := x.setWidth 32 :: s.replies })
    ∧ (a < 2 ^ s.cfg.addrW → s.busy = false → Memory.read s.symMem a = none →
      hostStep (.ls a) s = .fault (.raised .unwritten (addFault .unwritten s.faulted)))
    ∧ (2 ^ s.cfg.addrW ≤ a → hostStep (.ls a) s = .fault (.raised .badAccess (addFault .badAccess s.faulted)))
    ∧ (a < 2 ^ s.cfg.addrW → s.busy = true →
      hostStep (.ls a) s = .fault (.raised .hazard (addFault .hazard s.faulted)))

/-- R290 to R293, R271: a reset, in any STATE, clears STATUS and every register, latch and engine register, loads the
default tables, clears every written mark, and leaves FAULTED. (That the model's own fields stay, the parameters and the
host's side, is DEDUCED, log 15.) -/
def Obligations.ResetEventClearsTheCore : Prop :=
  ∀ s : State, ∃ t, hostStep .reset s = .next t ∧ statusWord t = 0
    ∧ t.srcBase = 0 ∧ t.srcLen = 0 ∧ t.dstBase = 0 ∧ t.dstCap = 0 ∧ t.result = 0 ∧ t.errPos = 0
    ∧ t.tblIndex = 0 ∧ t.tblBank = false ∧ t.plen = 0 ∧ t.tlen = 0
    ∧ t.lOp = 0 ∧ t.lSrc = 0 ∧ t.lLen = 0 ∧ t.lDst = 0 ∧ t.lCap = 0 ∧ t.idx = 0 ∧ t.out = 0
    ∧ t.encStage = 0 ∧ t.encRem = 0 ∧ t.decAcc = 0 ∧ t.decRem = 0 ∧ t.decRes = 0
    ∧ t.decHasLast = false ∧ t.decLast = 0
    ∧ t.actP = s.cfg.defaultP ∧ t.actT = s.cfg.defaultT
    ∧ (∀ v, t.stgP.get v = none) ∧ (∀ v, t.stgT.get v = none)
    ∧ (∀ a, Memory.read t.byteMem a = none) ∧ (∀ a, Memory.read t.symMem a = none)
    ∧ t.faulted = s.faulted ∧ t.cfg = s.cfg ∧ t.ops = s.ops ∧ t.turns = s.turns ∧ t.replies = s.replies

/-- R99: a WAIT reads STATUS once a step, and goes on while it shows BUSY. -/
def Obligations.WaitReadsStatusUntilNotBusy : Prop :=
  ∀ s : State,
    (s.busy = true → hostStep .wait s = .next { s with ops := .wait :: s.ops, replies := statusWord s :: s.replies })
    ∧ (s.busy = false → hostStep .wait s = .next { s with replies := statusWord s :: s.replies })
end

