-- ==== Sys2Proof/Laws/Lookup.lean ====
section
/-! SUPPORT. What the table operations give: one entry after a write, the inverse lookup as the highest index holding a
symbol (41_alphabet.md R148 to R150), the last non-whitespace position (43_decode.md R201), and a staging table read whole
(41_alphabet.md R143). -/

namespace Sys2Proof.Machine

/-! ## Tables -/

/-- Two tables with equal entries are equal. -/
theorem Table.ext_entries {α : Type} {n : Nat} {t u : Table α n} (h : t.entries = u.entries) : t = u := by
  cases t; cases u; cases h; rfl

/-- An entry of a table after a write of entry `i`. -/
theorem Table.get_set {α : Type} {n : Nat} (t : Table α n) (i : Nat) (x : α) (j : Fin n) :
    (t.set i x).get j = if i = j.val then x else t.get j := by
  simp only [Table.get, Table.set, List.getElem_set]

/-- An entry of a table is in it. -/
theorem Table.get_mem {α : Type} {n : Nat} (t : Table α n) (i : Fin n) : t.get i ∈ t.entries :=
  List.getElem_mem _

/-- An entry of a table by its position in the list. -/
theorem Table.getElem?_entries {α : Type} {n : Nat} (t : Table α n) (i : Fin n) :
    t.entries[i.val]? = some (t.get i) := by
  simp [Table.get, t.size, i.isLt]

/-- An entry of a table given by a function. -/
theorem Table.get_ofFn {α : Type} {n : Nat} (f : Nat → α) (i : Fin n) : (Table.ofFn n f).get i = f i.val := by
  simp [Table.get, Table.ofFn]

/-! ## The inverse lookup -/

/-- One pass: the highest index from `i` on that holds `c`, and `best` when none does. -/
theorem lastIndexFrom_eq {c : Symbol} {l : List Symbol} {i : Nat} {best : Option Nat} {k : Nat} :
    lastIndexFrom c l i best = some k ↔
      (∃ j, k = i + j ∧ l[j]? = some c ∧ ∀ j', j < j' → l[j']? ≠ some c) ∨ (c ∉ l ∧ best = some k) := by
  induction l generalizing i best with
  | nil => simp [lastIndexFrom]
  | cons x xs ih =>
    unfold lastIndexFrom
    rw [ih]
    constructor
    · rintro (⟨j, rfl, hj, hmax⟩ | ⟨hxs, hb⟩)
      · refine .inl ⟨j + 1, by omega, by simpa using hj, fun j' hj' => ?_⟩
        obtain ⟨d, rfl⟩ : ∃ d, j' = d + 1 := ⟨j' - 1, by omega⟩
        simpa using hmax d (by omega)
      · split at hb
        · next hx =>
          cases hb
          refine .inl ⟨0, by omega, by simp [hx], fun j' hj' => ?_⟩
          obtain ⟨d, rfl⟩ : ∃ d, j' = d + 1 := ⟨j' - 1, by omega⟩
          intro hc
          exact hxs (List.mem_of_getElem? (by simpa using hc))
        · next hx => exact .inr ⟨by simp [hxs, Ne.symm hx], hb⟩
    · rintro (⟨j, rfl, hj, hmax⟩ | ⟨hxs, hb⟩)
      · cases j with
        | zero =>
          have hx : x = c := by simpa using hj
          refine .inr ⟨fun hc => ?_, by simp [hx]⟩
          obtain ⟨d, hd⟩ := List.getElem?_of_mem hc
          exact hmax (d + 1) (by omega) (by simpa using hd)
        | succ j =>
          refine .inl ⟨j, by omega, by simpa using hj, fun j' hj' => ?_⟩
          simpa using hmax (j' + 1) (by omega)
      · rw [List.mem_cons, not_or] at hxs
        exact .inr ⟨hxs.2, by rw [if_neg (Ne.symm hxs.1)]; exact hb⟩

/-- The lookup finds the highest index holding the symbol (R150). -/
theorem lastIndexOf_eq_some {c : Symbol} {l : List Symbol} {k : Nat} :
    lastIndexOf c l = some k ↔ l[k]? = some c ∧ ∀ j, k < j → l[j]? ≠ some c := by
  unfold lastIndexOf
  rw [lastIndexFrom_eq]
  constructor
  · rintro (⟨j, rfl, h1, h2⟩ | ⟨-, h⟩)
    · rw [Nat.zero_add]; exact ⟨h1, h2⟩
    · cases h
  · rintro ⟨h1, h2⟩
    exact .inl ⟨k, by omega, h1, h2⟩

/-- The lookup fails exactly on a symbol the table does not hold. -/
theorem lastIndexOf_eq_none {c : Symbol} {l : List Symbol} : lastIndexOf c l = none ↔ c ∉ l := by
  constructor
  · intro h hc
    have from_mem : ∀ {l : List Symbol} {i : Nat} {best : Option Nat}, c ∈ l ∨ best ≠ none → lastIndexFrom c l i best ≠ none := by
      intro l
      induction l with
      | nil => intro i best h; simpa [lastIndexFrom] using h
      | cons x xs ih =>
        intro i best h
        unfold lastIndexFrom
        refine ih ?_
        split
        · exact .inr (by simp)
        · next hx =>
          rcases h with h | h
          · exact (List.mem_cons.1 h).elim (fun h => absurd h.symm hx) .inl
          · exact .inr h
    exact from_mem (.inl hc) h
  · intro h
    cases hk : lastIndexOf c l with
    | none => rfl
    | some k => exact absurd (List.mem_of_getElem? (lastIndexOf_eq_some.1 hk).1) h

/-- An index found is an index of the table. -/
theorem lastIndexOf_lt {c : Symbol} {l : List Symbol} {k : Nat} (h : lastIndexOf c l = some k) : k < l.length :=
  (List.getElem?_eq_some_iff.1 (lastIndexOf_eq_some.1 h).1).1

/-- In a table of distinct symbols the lookup inverts the table (R148). -/
theorem lastIndexOf_getElem {l : List Symbol} (hl : l.Nodup) {k : Nat} (hk : k < l.length) :
    lastIndexOf l[k] l = some k := by
  refine lastIndexOf_eq_some.2 ⟨List.getElem?_eq_getElem hk, fun j hj h => ?_⟩
  obtain ⟨hjl, hj'⟩ := List.getElem?_eq_some_iff.1 h
  have := (List.Nodup.getElem_inj_iff hl).1 hj'
  omega

/-! ## The last non-whitespace symbol -/

/-- One pass: the last non-whitespace position from `i` on, and `best` when there is none. -/
theorem lastNonWsFrom_eq {l : List Symbol} {i : Nat} {best : Option Nat} {k : Nat} :
    lastNonWsFrom l i best = some k ↔
      (∃ j c, k = i + j ∧ l[j]? = some c ∧ isWs c = false ∧ ∀ j' c', j < j' → l[j']? = some c' → isWs c' = true)
        ∨ ((∀ c ∈ l, isWs c = true) ∧ best = some k) := by
  induction l generalizing i best with
  | nil => simp [lastNonWsFrom]
  | cons x xs ih =>
    unfold lastNonWsFrom
    rw [ih]
    constructor
    · rintro (⟨j, c, rfl, hj, hc, hmax⟩ | ⟨hxs, hb⟩)
      · refine .inl ⟨j + 1, c, by omega, by simpa using hj, hc, fun j' c' hj' h' => ?_⟩
        obtain ⟨d, rfl⟩ : ∃ d, j' = d + 1 := ⟨j' - 1, by omega⟩
        exact hmax d c' (by omega) (by simpa using h')
      · split at hb
        · next hx =>
          refine .inr ⟨fun c hc => ?_, hb⟩
          rcases List.mem_cons.1 hc with rfl | hc
          · exact hx
          · exact hxs c hc
        · next hx =>
          cases hb
          refine .inl ⟨0, x, by omega, by simp, by simpa using hx, fun j' c' hj' h' => ?_⟩
          obtain ⟨d, rfl⟩ : ∃ d, j' = d + 1 := ⟨j' - 1, by omega⟩
          exact hxs c' (List.mem_of_getElem? (by simpa using h'))
    · rintro (⟨j, c, rfl, hj, hc, hmax⟩ | ⟨hxs, hb⟩)
      · cases j with
        | zero =>
          have hx : x = c := by simpa using hj
          subst hx
          refine .inr ⟨fun c' hc' => ?_, by simp [hc]⟩
          obtain ⟨d, hd⟩ := List.getElem?_of_mem hc'
          exact hmax (d + 1) c' (by omega) (by simpa using hd)
        | succ j =>
          refine .inl ⟨j, c, by omega, by simpa using hj, hc, fun j' c' hj' h' => ?_⟩
          exact hmax (j' + 1) c' (by omega) (by simpa using h')
      · exact .inr ⟨fun c hc => hxs c (List.mem_cons_of_mem _ hc), by simp [hxs x List.mem_cons_self, hb]⟩

/-- The position found holds a symbol that is not CR or LF, and every later symbol is CR or LF (R201). -/
theorem lastNonWs_eq_some {src : List Symbol} {k : Nat} :
    lastNonWs src = some k ↔
      ∃ c, src[k]? = some c ∧ isWs c = false ∧ ∀ j c', k < j → src[j]? = some c' → isWs c' = true := by
  unfold lastNonWs
  rw [lastNonWsFrom_eq]
  constructor
  · rintro (⟨j, c, rfl, h⟩ | ⟨-, h⟩)
    · rw [Nat.zero_add]; exact ⟨c, h⟩
    · cases h
  · rintro ⟨c, h⟩
    exact .inl ⟨k, c, by omega, h⟩

/-! ## A staging table read whole -/

/-- Every entry written, and with which values. -/
theorem allSome_eq_some {α : Type} {l : List (Option α)} {r : List α} : allSome l = some r ↔ l = r.map some := by
  induction l generalizing r with
  | nil => cases r <;> simp [allSome]
  | cons x xs ih =>
    cases x with
    | none => cases r <;> simp [allSome]
    | some x =>
      unfold allSome
      cases r with
      | nil => split <;> simp_all
      | cons y ys =>
        rw [List.map_cons, List.cons.injEq, Option.some.injEq, ← ih]
        split
        · next zs hzs => rw [hzs, Option.some.injEq, Option.some.injEq, List.cons.injEq]
        · next hn => simp [hn]

/-- A staging table reads whole exactly when every entry is written, and then gives those values (R143, R79). -/
theorem readStaged_eq_some {n : Nat} {t : Table (Option Symbol) n} {u : Table Symbol n} :
    readStaged t = some u ↔ t.entries = u.entries.map some := by
  rw [← allSome_eq_some]
  unfold readStaged
  split
  · next l hl =>
    rw [Option.some.injEq]
    constructor
    · rintro rfl; exact hl
    · intro h
      rw [hl, Option.some.injEq] at h
      exact Table.ext_entries h
  · next h => simp [h]

/-- BUILD's CR/LF check passes exactly on a clean table (R143). -/
theorem hasWs_eq_false {n : Nat} {t : Table Symbol n} : hasWs t = false ↔ Clean t := by
  unfold hasWs Clean
  rw [List.any_eq_false]
  simp

end Sys2Proof.Machine
end

