-- ==== Sys2Proof/Laws/Memory.lean ====
section
/-! SUPPORT. The laws of a buffer memory: a read after a write, the canonical form and the bound on addresses kept by every
write, runs of elements, and equal reads giving equal memories (20_memory.md R63, R72, R79). -/

namespace Sys2Proof.Machine

variable {α : Type}

/-! ## One element -/

@[simp] theorem Memory.read_nil (a : Nat) : Memory.read ([] : Memory α) a = none := rfl

/-- A read of the element just written gives the value written. -/
@[simp] theorem Memory.read_write_same (m : Memory α) (a : Nat) (x : α) :
    Memory.read (Memory.write m a x) a = some x := by
  induction m with
  | nil => simp [Memory.write, Memory.read]
  | cons p m ih =>
    obtain ⟨k, y⟩ := p
    unfold Memory.write
    split
    · simp [Memory.read]
    · split
      · simp [Memory.read]
      · next h1 h2 => simp [Memory.read, Ne.symm h2, ih]

/-- A write leaves every other element as it was. -/
theorem Memory.read_write_other {m : Memory α} {a b : Nat} {x : α} (h : b ≠ a) :
    Memory.read (Memory.write m a x) b = Memory.read m b := by
  induction m with
  | nil => simp [Memory.write, Memory.read, Ne.symm h]
  | cons p m ih =>
    obtain ⟨k, y⟩ := p
    unfold Memory.write
    split
    · simp [Memory.read, Ne.symm h]
    · split
      · next h2 => subst h2; simp [Memory.read, Ne.symm h]
      · simp only [Memory.read, ih]

/-- The two laws of one write as one equation. -/
theorem Memory.read_write (m : Memory α) (a b : Nat) (x : α) :
    Memory.read (Memory.write m a x) b = if b = a then some x else Memory.read m b := by
  split
  · next h => subst h; exact Memory.read_write_same m b x
  · next h => exact Memory.read_write_other h

/-- The addresses of a written memory are the old ones and the new one. -/
theorem Memory.mem_write {m : Memory α} {a : Nat} {x : α} {p : Nat × α} (h : p ∈ Memory.write m a x) :
    p = (a, x) ∨ p ∈ m := by
  induction m with
  | nil => left; simpa [Memory.write] using h
  | cons q m ih =>
    obtain ⟨k, y⟩ := q
    unfold Memory.write at h
    split at h
    · simpa using h
    · split at h
      · rcases List.mem_cons.1 h with h | h
        · exact .inl h
        · exact .inr (List.mem_cons_of_mem _ h)
      · rcases List.mem_cons.1 h with h | h
        · exact .inr (h ▸ List.mem_cons_self)
        · exact (ih h).imp_right (List.mem_cons_of_mem _)

/-- A write keeps the canonical form. -/
theorem Memory.wf_write {m : Memory α} (hm : Memory.wf m) (a : Nat) (x : α) : Memory.wf (Memory.write m a x) := by
  induction m with
  | nil => exact List.pairwise_singleton _ _
  | cons p m ih =>
    obtain ⟨k, y⟩ := p
    obtain ⟨hk, hm'⟩ := List.pairwise_cons.1 hm
    unfold Memory.write
    split
    · next h =>
      refine List.pairwise_cons.2 ⟨fun q hq => ?_, hm⟩
      rcases List.mem_cons.1 hq with rfl | hq
      · exact h
      · exact Nat.lt_trans h (hk q hq)
    · split
      · next h => subst h; exact List.pairwise_cons.2 ⟨hk, hm'⟩
      · next h1 h2 =>
        refine List.pairwise_cons.2 ⟨fun q hq => ?_, ih hm'⟩
        rcases Memory.mem_write hq with rfl | hq
        · show k < a
          omega
        · exact hk q hq

/-- A write inside the memory keeps every address inside it. -/
theorem Memory.within_write {m : Memory α} {size a : Nat} (hm : Memory.within m size) (ha : a < size) (x : α) :
    Memory.within (Memory.write m a x) size := by
  intro p hp
  rcases Memory.mem_write hp with rfl | hp
  · exact ha
  · exact hm p hp

/-- An unlisted address reads as unwritten. -/
theorem Memory.read_eq_none_of_notMem {m : Memory α} {a : Nat} (h : ∀ p ∈ m, p.1 ≠ a) : Memory.read m a = none := by
  induction m with
  | nil => rfl
  | cons p m ih =>
    obtain ⟨k, y⟩ := p
    have hk : k ≠ a := h (k, y) List.mem_cons_self
    simp [Memory.read, hk, ih fun q hq => h q (List.mem_cons_of_mem _ hq)]

/-- A canonical memory is fixed by what its elements read as: equal memories are equal data. -/
theorem Memory.ext_read {m m' : Memory α} (hm : Memory.wf m) (hm' : Memory.wf m')
    (h : ∀ a, Memory.read m a = Memory.read m' a) : m = m' := by
  have low : ∀ {k : Nat} {y : α} {l : Memory α}, Memory.wf ((k, y) :: l) → ∀ a, a < k → Memory.read ((k, y) :: l) a = none := by
    intro k y l hl a ha
    refine Memory.read_eq_none_of_notMem fun p hp => ?_
    rcases List.mem_cons.1 hp with rfl | hp
    · show k ≠ a
      omega
    · have := (List.pairwise_cons.1 hl).1 p hp
      have : k < p.1 := this
      omega
  induction m generalizing m' with
  | nil =>
    cases m' with
    | nil => rfl
    | cons q m' => obtain ⟨k', y'⟩ := q; simpa [Memory.read] using h k'
  | cons p m ih =>
    obtain ⟨k, y⟩ := p
    cases m' with
    | nil => simpa [Memory.read] using h k
    | cons q m' =>
      obtain ⟨k', y'⟩ := q
      have hkk : k = k' := by
        rcases Nat.lt_trichotomy k k' with hlt | heq | hgt
        · have := h k
          rw [low hm' k hlt] at this
          simp [Memory.read] at this
        · exact heq
        · have := h k'
          rw [low hm k' hgt] at this
          simp [Memory.read] at this
      subst hkk
      have hy : y = y' := by simpa [Memory.read] using h k
      subst hy
      have tails : ∀ a, Memory.read m a = Memory.read m' a := by
        intro a
        by_cases ha : k = a
        · subst ha
          rw [Memory.read_eq_none_of_notMem fun p hp => Nat.ne_of_gt ((List.pairwise_cons.1 hm).1 p hp),
            Memory.read_eq_none_of_notMem fun p hp => Nat.ne_of_gt ((List.pairwise_cons.1 hm').1 p hp)]
        · simpa [Memory.read, ha] using h a
      rw [ih (List.pairwise_cons.1 hm).2 (List.pairwise_cons.1 hm').2 tails]

/-! ## Runs of elements -/

@[simp] theorem Memory.writeRun_nil (m : Memory α) (a : Nat) : Memory.writeRun m a [] = m := by
  unfold Memory.writeRun; rfl

@[simp] theorem Memory.writeRun_cons (m : Memory α) (a : Nat) (x : α) (xs : List α) :
    Memory.writeRun m a (x :: xs) = Memory.writeRun (Memory.write m a x) (a + 1) xs := by
  conv => lhs; unfold Memory.writeRun

/-- A run of writes leaves every element outside it as it was. -/
theorem Memory.read_writeRun_outside {xs : List α} {m : Memory α} {a b : Nat} (h : b < a ∨ a + xs.length ≤ b) :
    Memory.read (Memory.writeRun m a xs) b = Memory.read m b := by
  induction xs generalizing m a with
  | nil => rw [Memory.writeRun_nil]
  | cons x xs ih =>
    rw [List.length_cons] at h
    rw [Memory.writeRun_cons, ih (by omega), Memory.read_write_other (by omega)]

/-- Element `i` of a run of writes reads as the `i`-th value. -/
theorem Memory.read_writeRun_inside {xs : List α} {m : Memory α} {a i : Nat} (h : i < xs.length) :
    Memory.read (Memory.writeRun m a xs) (a + i) = some xs[i] := by
  induction xs generalizing m a i with
  | nil => exact absurd h (Nat.not_lt_zero i)
  | cons x xs ih =>
    cases i with
    | zero =>
      rw [Memory.writeRun_cons, Memory.read_writeRun_outside (by omega)]
      simp
    | succ i =>
      rw [List.length_cons] at h
      rw [Memory.writeRun_cons, show a + (i + 1) = a + 1 + i by omega, ih (by omega)]
      rfl

/-- A run of writes keeps the canonical form. -/
theorem Memory.wf_writeRun {xs : List α} {m : Memory α} (hm : Memory.wf m) (a : Nat) :
    Memory.wf (Memory.writeRun m a xs) := by
  induction xs generalizing m a with
  | nil => simpa using hm
  | cons x xs ih => rw [Memory.writeRun_cons]; exact ih (Memory.wf_write hm a x) (a + 1)

/-- A run of writes inside the memory keeps every address inside it. -/
theorem Memory.within_writeRun {xs : List α} {m : Memory α} {size a : Nat} (hm : Memory.within m size)
    (h : a + xs.length ≤ size) : Memory.within (Memory.writeRun m a xs) size := by
  induction xs generalizing m a with
  | nil => simpa using hm
  | cons x xs ih =>
    rw [List.length_cons] at h
    rw [Memory.writeRun_cons]
    exact ih (Memory.within_write hm (by omega) x) (by omega)

/-- What a successful run of reads gives: `n` values, each the element's. -/
theorem Memory.readRun_eq_some {m : Memory α} {a n : Nat} {xs : List α} :
    Memory.readRun m a n = some xs ↔
      xs.length = n ∧ ∀ i (h : i < xs.length), Memory.read m (a + i) = some xs[i] := by
  induction n generalizing a xs with
  | zero =>
    constructor
    · intro h
      cases h
      exact ⟨rfl, fun i hi => absurd hi (Nat.not_lt_zero i)⟩
    · rintro ⟨h, -⟩
      rw [List.length_eq_zero_iff.1 h]
      rfl
  | succ n ih =>
    constructor
    · intro h
      unfold Memory.readRun at h
      split at h
      · next x ys hx hys =>
        cases h
        obtain ⟨hl, hr⟩ := ih.1 hys
        refine ⟨by rw [List.length_cons, hl], fun i hi => ?_⟩
        cases i with
        | zero => exact hx
        | succ i =>
          rw [show a + (i + 1) = a + 1 + i by omega]
          exact hr i (by rw [List.length_cons] at hi; omega)
      · cases h
    · rintro ⟨hl, hr⟩
      cases xs with
      | nil => exact absurd hl (by simp)
      | cons x xs =>
        have hx : Memory.read m a = some x := hr 0 (by simp)
        have hxs : Memory.readRun m (a + 1) n = some xs := by
          refine ih.2 ⟨by simpa using hl, fun i hi => ?_⟩
          rw [show a + 1 + i = a + (i + 1) by omega]
          exact hr (i + 1) (by rw [List.length_cons]; omega)
        unfold Memory.readRun
        rw [hx, hxs]

/-- Runs read alike from memories that read alike there. -/
theorem Memory.readRun_congr {m m' : Memory α} {a n : Nat}
    (h : ∀ b, a ≤ b → b < a + n → Memory.read m' b = Memory.read m b) :
    Memory.readRun m' a n = Memory.readRun m a n := by
  induction n generalizing a with
  | zero => rfl
  | succ n ih =>
    unfold Memory.readRun
    rw [h a (Nat.le_refl a) (by omega), ih fun b h1 h2 => h b (by omega) (by omega)]

end Sys2Proof.Machine
end

