-- ==== Sys2Proof/Laws/PerInstr.lean ====
section
/-! SUPPORT. Facts said of every command, one lemma a constructor. Family LegalWord: the command's word has RSV = 0 and an
OP in 1 to 7 (30_encoding.md R91, R92, R95), and the command is well formed. -/

namespace Sys2Proof.Laws.LegalWord

/-- The word of `i` has RSV = 0 and 1 <= OP <= 7, and `i` is well formed. -/
def Statement (i : Instr) : Prop :=
  rsvField (encode i) = 0 ∧ 1 ≤ (opField (encode i)).toNat ∧ (opField (encode i)).toNat ≤ 7 ∧ i.wellFormed = true

theorem enclen : Statement .enclen := by unfold Statement; decide
theorem declen : Statement .declen := by unfold Statement; decide
theorem encode : Statement .encode := by unfold Statement; decide
theorem decode : Statement .decode := by unfold Statement; decide
theorem build : Statement .build := by unfold Statement; decide
theorem loaddef : Statement .loaddef := by unfold Statement; decide
theorem clear : Statement .clear := by unfold Statement; decide

end Sys2Proof.Laws.LegalWord
end

