-- ==== Sys2Proof/Laws/State.lean ====
section
/-! SUPPORT. One lemma for each field of State and each named update: what the field is after it. All hold by `rfl`; the
provers simplify with them and unfold no update. -/

namespace Sys2Proof.Machine

variable (s : State)

/-! ## `accept`: acceptance (R121) -/

@[simp] theorem accept_cfg : (accept s).cfg = s.cfg := rfl
@[simp] theorem accept_ops : (accept s).ops = s.ops := rfl
@[simp] theorem accept_turns : (accept s).turns = s.turns := rfl
@[simp] theorem accept_replies : (accept s).replies = s.replies := rfl
@[simp] theorem accept_faulted : (accept s).faulted = s.faulted := rfl
@[simp] theorem accept_engine : (accept s).engine = s.engine := rfl
@[simp] theorem accept_viol : (accept s).viol = s.viol := rfl
@[simp] theorem accept_err : (accept s).err = .none := rfl
@[simp] theorem accept_srcBase : (accept s).srcBase = s.srcBase := rfl
@[simp] theorem accept_srcLen : (accept s).srcLen = s.srcLen := rfl
@[simp] theorem accept_dstBase : (accept s).dstBase = s.dstBase := rfl
@[simp] theorem accept_dstCap : (accept s).dstCap = s.dstCap := rfl
@[simp] theorem accept_result : (accept s).result = 0 := rfl
@[simp] theorem accept_errPos : (accept s).errPos = 0 := rfl
@[simp] theorem accept_tblIndex : (accept s).tblIndex = s.tblIndex := rfl
@[simp] theorem accept_tblBank : (accept s).tblBank = s.tblBank := rfl
@[simp] theorem accept_plen : (accept s).plen = s.plen := rfl
@[simp] theorem accept_tlen : (accept s).tlen = s.tlen := rfl
@[simp] theorem accept_lOp : (accept s).lOp = s.lOp := rfl
@[simp] theorem accept_lSrc : (accept s).lSrc = s.lSrc := rfl
@[simp] theorem accept_lLen : (accept s).lLen = s.lLen := rfl
@[simp] theorem accept_lDst : (accept s).lDst = s.lDst := rfl
@[simp] theorem accept_lCap : (accept s).lCap = s.lCap := rfl
@[simp] theorem accept_idx : (accept s).idx = s.idx := rfl
@[simp] theorem accept_out : (accept s).out = s.out := rfl
@[simp] theorem accept_encStage : (accept s).encStage = s.encStage := rfl
@[simp] theorem accept_encRem : (accept s).encRem = s.encRem := rfl
@[simp] theorem accept_decAcc : (accept s).decAcc = s.decAcc := rfl
@[simp] theorem accept_decRem : (accept s).decRem = s.decRem := rfl
@[simp] theorem accept_decRes : (accept s).decRes = s.decRes := rfl
@[simp] theorem accept_decHasLast : (accept s).decHasLast = s.decHasLast := rfl
@[simp] theorem accept_decLast : (accept s).decLast = s.decLast := rfl
@[simp] theorem accept_actP : (accept s).actP = s.actP := rfl
@[simp] theorem accept_actT : (accept s).actT = s.actT := rfl
@[simp] theorem accept_stgP : (accept s).stgP = s.stgP := rfl
@[simp] theorem accept_stgT : (accept s).stgT = s.stgT := rfl
@[simp] theorem accept_byteMem : (accept s).byteMem = s.byteMem := rfl
@[simp] theorem accept_symMem : (accept s).symMem = s.symMem := rfl

/-! ## `raiseError`: `raise Error` (R263) -/

@[simp] theorem raiseError_cfg (code : ErrCode) (pos : Word) : (raiseError code pos s).cfg = s.cfg := rfl
@[simp] theorem raiseError_ops (code : ErrCode) (pos : Word) : (raiseError code pos s).ops = s.ops := rfl
@[simp] theorem raiseError_turns (code : ErrCode) (pos : Word) : (raiseError code pos s).turns = s.turns := rfl
@[simp] theorem raiseError_replies (code : ErrCode) (pos : Word) : (raiseError code pos s).replies = s.replies := rfl
@[simp] theorem raiseError_faulted (code : ErrCode) (pos : Word) : (raiseError code pos s).faulted = s.faulted := rfl
@[simp] theorem raiseError_engine (code : ErrCode) (pos : Word) : (raiseError code pos s).engine = .error := rfl
@[simp] theorem raiseError_viol (code : ErrCode) (pos : Word) : (raiseError code pos s).viol = s.viol := rfl
@[simp] theorem raiseError_err (code : ErrCode) (pos : Word) : (raiseError code pos s).err = code := rfl
@[simp] theorem raiseError_srcBase (code : ErrCode) (pos : Word) : (raiseError code pos s).srcBase = s.srcBase := rfl
@[simp] theorem raiseError_srcLen (code : ErrCode) (pos : Word) : (raiseError code pos s).srcLen = s.srcLen := rfl
@[simp] theorem raiseError_dstBase (code : ErrCode) (pos : Word) : (raiseError code pos s).dstBase = s.dstBase := rfl
@[simp] theorem raiseError_dstCap (code : ErrCode) (pos : Word) : (raiseError code pos s).dstCap = s.dstCap := rfl
@[simp] theorem raiseError_result (code : ErrCode) (pos : Word) : (raiseError code pos s).result = if code = .corrupt then BitVec.ofNat 32 s.out else 0 := rfl
@[simp] theorem raiseError_errPos (code : ErrCode) (pos : Word) : (raiseError code pos s).errPos = pos := rfl
@[simp] theorem raiseError_tblIndex (code : ErrCode) (pos : Word) : (raiseError code pos s).tblIndex = s.tblIndex := rfl
@[simp] theorem raiseError_tblBank (code : ErrCode) (pos : Word) : (raiseError code pos s).tblBank = s.tblBank := rfl
@[simp] theorem raiseError_plen (code : ErrCode) (pos : Word) : (raiseError code pos s).plen = s.plen := rfl
@[simp] theorem raiseError_tlen (code : ErrCode) (pos : Word) : (raiseError code pos s).tlen = s.tlen := rfl
@[simp] theorem raiseError_lOp (code : ErrCode) (pos : Word) : (raiseError code pos s).lOp = s.lOp := rfl
@[simp] theorem raiseError_lSrc (code : ErrCode) (pos : Word) : (raiseError code pos s).lSrc = s.lSrc := rfl
@[simp] theorem raiseError_lLen (code : ErrCode) (pos : Word) : (raiseError code pos s).lLen = s.lLen := rfl
@[simp] theorem raiseError_lDst (code : ErrCode) (pos : Word) : (raiseError code pos s).lDst = s.lDst := rfl
@[simp] theorem raiseError_lCap (code : ErrCode) (pos : Word) : (raiseError code pos s).lCap = s.lCap := rfl
@[simp] theorem raiseError_idx (code : ErrCode) (pos : Word) : (raiseError code pos s).idx = s.idx := rfl
@[simp] theorem raiseError_out (code : ErrCode) (pos : Word) : (raiseError code pos s).out = s.out := rfl
@[simp] theorem raiseError_encStage (code : ErrCode) (pos : Word) : (raiseError code pos s).encStage = s.encStage := rfl
@[simp] theorem raiseError_encRem (code : ErrCode) (pos : Word) : (raiseError code pos s).encRem = s.encRem := rfl
@[simp] theorem raiseError_decAcc (code : ErrCode) (pos : Word) : (raiseError code pos s).decAcc = s.decAcc := rfl
@[simp] theorem raiseError_decRem (code : ErrCode) (pos : Word) : (raiseError code pos s).decRem = s.decRem := rfl
@[simp] theorem raiseError_decRes (code : ErrCode) (pos : Word) : (raiseError code pos s).decRes = s.decRes := rfl
@[simp] theorem raiseError_decHasLast (code : ErrCode) (pos : Word) : (raiseError code pos s).decHasLast = s.decHasLast := rfl
@[simp] theorem raiseError_decLast (code : ErrCode) (pos : Word) : (raiseError code pos s).decLast = s.decLast := rfl
@[simp] theorem raiseError_actP (code : ErrCode) (pos : Word) : (raiseError code pos s).actP = s.actP := rfl
@[simp] theorem raiseError_actT (code : ErrCode) (pos : Word) : (raiseError code pos s).actT = s.actT := rfl
@[simp] theorem raiseError_stgP (code : ErrCode) (pos : Word) : (raiseError code pos s).stgP = s.stgP := rfl
@[simp] theorem raiseError_stgT (code : ErrCode) (pos : Word) : (raiseError code pos s).stgT = s.stgT := rfl
@[simp] theorem raiseError_byteMem (code : ErrCode) (pos : Word) : (raiseError code pos s).byteMem = s.byteMem := rfl
@[simp] theorem raiseError_symMem (code : ErrCode) (pos : Word) : (raiseError code pos s).symMem = s.symMem := rfl

/-! ## `finish`: the end of a command without error (R28) -/

@[simp] theorem finish_cfg (r : Word) : (finish r s).cfg = s.cfg := rfl
@[simp] theorem finish_ops (r : Word) : (finish r s).ops = s.ops := rfl
@[simp] theorem finish_turns (r : Word) : (finish r s).turns = s.turns := rfl
@[simp] theorem finish_replies (r : Word) : (finish r s).replies = s.replies := rfl
@[simp] theorem finish_faulted (r : Word) : (finish r s).faulted = s.faulted := rfl
@[simp] theorem finish_engine (r : Word) : (finish r s).engine = .done := rfl
@[simp] theorem finish_viol (r : Word) : (finish r s).viol = s.viol := rfl
@[simp] theorem finish_err (r : Word) : (finish r s).err = s.err := rfl
@[simp] theorem finish_srcBase (r : Word) : (finish r s).srcBase = s.srcBase := rfl
@[simp] theorem finish_srcLen (r : Word) : (finish r s).srcLen = s.srcLen := rfl
@[simp] theorem finish_dstBase (r : Word) : (finish r s).dstBase = s.dstBase := rfl
@[simp] theorem finish_dstCap (r : Word) : (finish r s).dstCap = s.dstCap := rfl
@[simp] theorem finish_result (r : Word) : (finish r s).result = r := rfl
@[simp] theorem finish_errPos (r : Word) : (finish r s).errPos = s.errPos := rfl
@[simp] theorem finish_tblIndex (r : Word) : (finish r s).tblIndex = s.tblIndex := rfl
@[simp] theorem finish_tblBank (r : Word) : (finish r s).tblBank = s.tblBank := rfl
@[simp] theorem finish_plen (r : Word) : (finish r s).plen = s.plen := rfl
@[simp] theorem finish_tlen (r : Word) : (finish r s).tlen = s.tlen := rfl
@[simp] theorem finish_lOp (r : Word) : (finish r s).lOp = s.lOp := rfl
@[simp] theorem finish_lSrc (r : Word) : (finish r s).lSrc = s.lSrc := rfl
@[simp] theorem finish_lLen (r : Word) : (finish r s).lLen = s.lLen := rfl
@[simp] theorem finish_lDst (r : Word) : (finish r s).lDst = s.lDst := rfl
@[simp] theorem finish_lCap (r : Word) : (finish r s).lCap = s.lCap := rfl
@[simp] theorem finish_idx (r : Word) : (finish r s).idx = s.idx := rfl
@[simp] theorem finish_out (r : Word) : (finish r s).out = s.out := rfl
@[simp] theorem finish_encStage (r : Word) : (finish r s).encStage = s.encStage := rfl
@[simp] theorem finish_encRem (r : Word) : (finish r s).encRem = s.encRem := rfl
@[simp] theorem finish_decAcc (r : Word) : (finish r s).decAcc = s.decAcc := rfl
@[simp] theorem finish_decRem (r : Word) : (finish r s).decRem = s.decRem := rfl
@[simp] theorem finish_decRes (r : Word) : (finish r s).decRes = s.decRes := rfl
@[simp] theorem finish_decHasLast (r : Word) : (finish r s).decHasLast = s.decHasLast := rfl
@[simp] theorem finish_decLast (r : Word) : (finish r s).decLast = s.decLast := rfl
@[simp] theorem finish_actP (r : Word) : (finish r s).actP = s.actP := rfl
@[simp] theorem finish_actT (r : Word) : (finish r s).actT = s.actT := rfl
@[simp] theorem finish_stgP (r : Word) : (finish r s).stgP = s.stgP := rfl
@[simp] theorem finish_stgT (r : Word) : (finish r s).stgT = s.stgT := rfl
@[simp] theorem finish_byteMem (r : Word) : (finish r s).byteMem = s.byteMem := rfl
@[simp] theorem finish_symMem (r : Word) : (finish r s).symMem = s.symMem := rfl

/-! ## `setViol`: a protocol violation (R275) -/

@[simp] theorem setViol_cfg : (setViol s).cfg = s.cfg := rfl
@[simp] theorem setViol_ops : (setViol s).ops = s.ops := rfl
@[simp] theorem setViol_turns : (setViol s).turns = s.turns := rfl
@[simp] theorem setViol_replies : (setViol s).replies = s.replies := rfl
@[simp] theorem setViol_faulted : (setViol s).faulted = s.faulted := rfl
@[simp] theorem setViol_engine : (setViol s).engine = s.engine := rfl
@[simp] theorem setViol_viol : (setViol s).viol = true := rfl
@[simp] theorem setViol_err : (setViol s).err = s.err := rfl
@[simp] theorem setViol_srcBase : (setViol s).srcBase = s.srcBase := rfl
@[simp] theorem setViol_srcLen : (setViol s).srcLen = s.srcLen := rfl
@[simp] theorem setViol_dstBase : (setViol s).dstBase = s.dstBase := rfl
@[simp] theorem setViol_dstCap : (setViol s).dstCap = s.dstCap := rfl
@[simp] theorem setViol_result : (setViol s).result = s.result := rfl
@[simp] theorem setViol_errPos : (setViol s).errPos = s.errPos := rfl
@[simp] theorem setViol_tblIndex : (setViol s).tblIndex = s.tblIndex := rfl
@[simp] theorem setViol_tblBank : (setViol s).tblBank = s.tblBank := rfl
@[simp] theorem setViol_plen : (setViol s).plen = s.plen := rfl
@[simp] theorem setViol_tlen : (setViol s).tlen = s.tlen := rfl
@[simp] theorem setViol_lOp : (setViol s).lOp = s.lOp := rfl
@[simp] theorem setViol_lSrc : (setViol s).lSrc = s.lSrc := rfl
@[simp] theorem setViol_lLen : (setViol s).lLen = s.lLen := rfl
@[simp] theorem setViol_lDst : (setViol s).lDst = s.lDst := rfl
@[simp] theorem setViol_lCap : (setViol s).lCap = s.lCap := rfl
@[simp] theorem setViol_idx : (setViol s).idx = s.idx := rfl
@[simp] theorem setViol_out : (setViol s).out = s.out := rfl
@[simp] theorem setViol_encStage : (setViol s).encStage = s.encStage := rfl
@[simp] theorem setViol_encRem : (setViol s).encRem = s.encRem := rfl
@[simp] theorem setViol_decAcc : (setViol s).decAcc = s.decAcc := rfl
@[simp] theorem setViol_decRem : (setViol s).decRem = s.decRem := rfl
@[simp] theorem setViol_decRes : (setViol s).decRes = s.decRes := rfl
@[simp] theorem setViol_decHasLast : (setViol s).decHasLast = s.decHasLast := rfl
@[simp] theorem setViol_decLast : (setViol s).decLast = s.decLast := rfl
@[simp] theorem setViol_actP : (setViol s).actP = s.actP := rfl
@[simp] theorem setViol_actT : (setViol s).actT = s.actT := rfl
@[simp] theorem setViol_stgP : (setViol s).stgP = s.stgP := rfl
@[simp] theorem setViol_stgT : (setViol s).stgT = s.stgT := rfl
@[simp] theorem setViol_byteMem : (setViol s).byteMem = s.byteMem := rfl
@[simp] theorem setViol_symMem : (setViol s).symMem = s.symMem := rfl

/-! ## `latch`: the latching of the operands (R36) -/

@[simp] theorem latch_cfg (op : BitVec 4) : (latch op s).cfg = s.cfg := rfl
@[simp] theorem latch_ops (op : BitVec 4) : (latch op s).ops = s.ops := rfl
@[simp] theorem latch_turns (op : BitVec 4) : (latch op s).turns = s.turns := rfl
@[simp] theorem latch_replies (op : BitVec 4) : (latch op s).replies = s.replies := rfl
@[simp] theorem latch_faulted (op : BitVec 4) : (latch op s).faulted = s.faulted := rfl
@[simp] theorem latch_engine (op : BitVec 4) : (latch op s).engine = s.engine := rfl
@[simp] theorem latch_viol (op : BitVec 4) : (latch op s).viol = s.viol := rfl
@[simp] theorem latch_err (op : BitVec 4) : (latch op s).err = s.err := rfl
@[simp] theorem latch_srcBase (op : BitVec 4) : (latch op s).srcBase = s.srcBase := rfl
@[simp] theorem latch_srcLen (op : BitVec 4) : (latch op s).srcLen = s.srcLen := rfl
@[simp] theorem latch_dstBase (op : BitVec 4) : (latch op s).dstBase = s.dstBase := rfl
@[simp] theorem latch_dstCap (op : BitVec 4) : (latch op s).dstCap = s.dstCap := rfl
@[simp] theorem latch_result (op : BitVec 4) : (latch op s).result = s.result := rfl
@[simp] theorem latch_errPos (op : BitVec 4) : (latch op s).errPos = s.errPos := rfl
@[simp] theorem latch_tblIndex (op : BitVec 4) : (latch op s).tblIndex = s.tblIndex := rfl
@[simp] theorem latch_tblBank (op : BitVec 4) : (latch op s).tblBank = s.tblBank := rfl
@[simp] theorem latch_plen (op : BitVec 4) : (latch op s).plen = s.plen := rfl
@[simp] theorem latch_tlen (op : BitVec 4) : (latch op s).tlen = s.tlen := rfl
@[simp] theorem latch_lOp (op : BitVec 4) : (latch op s).lOp = op := rfl
@[simp] theorem latch_lSrc (op : BitVec 4) : (latch op s).lSrc = s.srcBase := rfl
@[simp] theorem latch_lLen (op : BitVec 4) : (latch op s).lLen = s.srcLen := rfl
@[simp] theorem latch_lDst (op : BitVec 4) : (latch op s).lDst = s.dstBase := rfl
@[simp] theorem latch_lCap (op : BitVec 4) : (latch op s).lCap = s.dstCap := rfl
@[simp] theorem latch_idx (op : BitVec 4) : (latch op s).idx = s.idx := rfl
@[simp] theorem latch_out (op : BitVec 4) : (latch op s).out = s.out := rfl
@[simp] theorem latch_encStage (op : BitVec 4) : (latch op s).encStage = s.encStage := rfl
@[simp] theorem latch_encRem (op : BitVec 4) : (latch op s).encRem = s.encRem := rfl
@[simp] theorem latch_decAcc (op : BitVec 4) : (latch op s).decAcc = s.decAcc := rfl
@[simp] theorem latch_decRem (op : BitVec 4) : (latch op s).decRem = s.decRem := rfl
@[simp] theorem latch_decRes (op : BitVec 4) : (latch op s).decRes = s.decRes := rfl
@[simp] theorem latch_decHasLast (op : BitVec 4) : (latch op s).decHasLast = s.decHasLast := rfl
@[simp] theorem latch_decLast (op : BitVec 4) : (latch op s).decLast = s.decLast := rfl
@[simp] theorem latch_actP (op : BitVec 4) : (latch op s).actP = s.actP := rfl
@[simp] theorem latch_actT (op : BitVec 4) : (latch op s).actT = s.actT := rfl
@[simp] theorem latch_stgP (op : BitVec 4) : (latch op s).stgP = s.stgP := rfl
@[simp] theorem latch_stgT (op : BitVec 4) : (latch op s).stgT = s.stgT := rfl
@[simp] theorem latch_byteMem (op : BitVec 4) : (latch op s).byteMem = s.byteMem := rfl
@[simp] theorem latch_symMem (op : BitVec 4) : (latch op s).symMem = s.symMem := rfl

/-! ## `startEngine`: STATE <- BUSY (R123) -/

@[simp] theorem startEngine_cfg : (startEngine s).cfg = s.cfg := rfl
@[simp] theorem startEngine_ops : (startEngine s).ops = s.ops := rfl
@[simp] theorem startEngine_turns : (startEngine s).turns = s.turns := rfl
@[simp] theorem startEngine_replies : (startEngine s).replies = s.replies := rfl
@[simp] theorem startEngine_faulted : (startEngine s).faulted = s.faulted := rfl
@[simp] theorem startEngine_engine : (startEngine s).engine = .busy := rfl
@[simp] theorem startEngine_viol : (startEngine s).viol = s.viol := rfl
@[simp] theorem startEngine_err : (startEngine s).err = s.err := rfl
@[simp] theorem startEngine_srcBase : (startEngine s).srcBase = s.srcBase := rfl
@[simp] theorem startEngine_srcLen : (startEngine s).srcLen = s.srcLen := rfl
@[simp] theorem startEngine_dstBase : (startEngine s).dstBase = s.dstBase := rfl
@[simp] theorem startEngine_dstCap : (startEngine s).dstCap = s.dstCap := rfl
@[simp] theorem startEngine_result : (startEngine s).result = s.result := rfl
@[simp] theorem startEngine_errPos : (startEngine s).errPos = s.errPos := rfl
@[simp] theorem startEngine_tblIndex : (startEngine s).tblIndex = s.tblIndex := rfl
@[simp] theorem startEngine_tblBank : (startEngine s).tblBank = s.tblBank := rfl
@[simp] theorem startEngine_plen : (startEngine s).plen = s.plen := rfl
@[simp] theorem startEngine_tlen : (startEngine s).tlen = s.tlen := rfl
@[simp] theorem startEngine_lOp : (startEngine s).lOp = s.lOp := rfl
@[simp] theorem startEngine_lSrc : (startEngine s).lSrc = s.lSrc := rfl
@[simp] theorem startEngine_lLen : (startEngine s).lLen = s.lLen := rfl
@[simp] theorem startEngine_lDst : (startEngine s).lDst = s.lDst := rfl
@[simp] theorem startEngine_lCap : (startEngine s).lCap = s.lCap := rfl
@[simp] theorem startEngine_idx : (startEngine s).idx = s.idx := rfl
@[simp] theorem startEngine_out : (startEngine s).out = s.out := rfl
@[simp] theorem startEngine_encStage : (startEngine s).encStage = s.encStage := rfl
@[simp] theorem startEngine_encRem : (startEngine s).encRem = s.encRem := rfl
@[simp] theorem startEngine_decAcc : (startEngine s).decAcc = s.decAcc := rfl
@[simp] theorem startEngine_decRem : (startEngine s).decRem = s.decRem := rfl
@[simp] theorem startEngine_decRes : (startEngine s).decRes = s.decRes := rfl
@[simp] theorem startEngine_decHasLast : (startEngine s).decHasLast = s.decHasLast := rfl
@[simp] theorem startEngine_decLast : (startEngine s).decLast = s.decLast := rfl
@[simp] theorem startEngine_actP : (startEngine s).actP = s.actP := rfl
@[simp] theorem startEngine_actT : (startEngine s).actT = s.actT := rfl
@[simp] theorem startEngine_stgP : (startEngine s).stgP = s.stgP := rfl
@[simp] theorem startEngine_stgT : (startEngine s).stgT = s.stgT := rfl
@[simp] theorem startEngine_byteMem : (startEngine s).byteMem = s.byteMem := rfl
@[simp] theorem startEngine_symMem : (startEngine s).symMem = s.symMem := rfl

/-! ## `installTables`: the install of both ACTIVE tables (R143) -/

@[simp] theorem installTables_cfg (p : Table Symbol 2048) (t : Table Symbol 8) : (installTables p t s).cfg = s.cfg := rfl
@[simp] theorem installTables_ops (p : Table Symbol 2048) (t : Table Symbol 8) : (installTables p t s).ops = s.ops := rfl
@[simp] theorem installTables_turns (p : Table Symbol 2048) (t : Table Symbol 8) : (installTables p t s).turns = s.turns := rfl
@[simp] theorem installTables_replies (p : Table Symbol 2048) (t : Table Symbol 8) : (installTables p t s).replies = s.replies := rfl
@[simp] theorem installTables_faulted (p : Table Symbol 2048) (t : Table Symbol 8) : (installTables p t s).faulted = s.faulted := rfl
@[simp] theorem installTables_engine (p : Table Symbol 2048) (t : Table Symbol 8) : (installTables p t s).engine = s.engine := rfl
@[simp] theorem installTables_viol (p : Table Symbol 2048) (t : Table Symbol 8) : (installTables p t s).viol = s.viol := rfl
@[simp] theorem installTables_err (p : Table Symbol 2048) (t : Table Symbol 8) : (installTables p t s).err = s.err := rfl
@[simp] theorem installTables_srcBase (p : Table Symbol 2048) (t : Table Symbol 8) : (installTables p t s).srcBase = s.srcBase := rfl
@[simp] theorem installTables_srcLen (p : Table Symbol 2048) (t : Table Symbol 8) : (installTables p t s).srcLen = s.srcLen := rfl
@[simp] theorem installTables_dstBase (p : Table Symbol 2048) (t : Table Symbol 8) : (installTables p t s).dstBase = s.dstBase := rfl
@[simp] theorem installTables_dstCap (p : Table Symbol 2048) (t : Table Symbol 8) : (installTables p t s).dstCap = s.dstCap := rfl
@[simp] theorem installTables_result (p : Table Symbol 2048) (t : Table Symbol 8) : (installTables p t s).result = s.result := rfl
@[simp] theorem installTables_errPos (p : Table Symbol 2048) (t : Table Symbol 8) : (installTables p t s).errPos = s.errPos := rfl
@[simp] theorem installTables_tblIndex (p : Table Symbol 2048) (t : Table Symbol 8) : (installTables p t s).tblIndex = s.tblIndex := rfl
@[simp] theorem installTables_tblBank (p : Table Symbol 2048) (t : Table Symbol 8) : (installTables p t s).tblBank = s.tblBank := rfl
@[simp] theorem installTables_plen (p : Table Symbol 2048) (t : Table Symbol 8) : (installTables p t s).plen = s.plen := rfl
@[simp] theorem installTables_tlen (p : Table Symbol 2048) (t : Table Symbol 8) : (installTables p t s).tlen = s.tlen := rfl
@[simp] theorem installTables_lOp (p : Table Symbol 2048) (t : Table Symbol 8) : (installTables p t s).lOp = s.lOp := rfl
@[simp] theorem installTables_lSrc (p : Table Symbol 2048) (t : Table Symbol 8) : (installTables p t s).lSrc = s.lSrc := rfl
@[simp] theorem installTables_lLen (p : Table Symbol 2048) (t : Table Symbol 8) : (installTables p t s).lLen = s.lLen := rfl
@[simp] theorem installTables_lDst (p : Table Symbol 2048) (t : Table Symbol 8) : (installTables p t s).lDst = s.lDst := rfl
@[simp] theorem installTables_lCap (p : Table Symbol 2048) (t : Table Symbol 8) : (installTables p t s).lCap = s.lCap := rfl
@[simp] theorem installTables_idx (p : Table Symbol 2048) (t : Table Symbol 8) : (installTables p t s).idx = s.idx := rfl
@[simp] theorem installTables_out (p : Table Symbol 2048) (t : Table Symbol 8) : (installTables p t s).out = s.out := rfl
@[simp] theorem installTables_encStage (p : Table Symbol 2048) (t : Table Symbol 8) : (installTables p t s).encStage = s.encStage := rfl
@[simp] theorem installTables_encRem (p : Table Symbol 2048) (t : Table Symbol 8) : (installTables p t s).encRem = s.encRem := rfl
@[simp] theorem installTables_decAcc (p : Table Symbol 2048) (t : Table Symbol 8) : (installTables p t s).decAcc = s.decAcc := rfl
@[simp] theorem installTables_decRem (p : Table Symbol 2048) (t : Table Symbol 8) : (installTables p t s).decRem = s.decRem := rfl
@[simp] theorem installTables_decRes (p : Table Symbol 2048) (t : Table Symbol 8) : (installTables p t s).decRes = s.decRes := rfl
@[simp] theorem installTables_decHasLast (p : Table Symbol 2048) (t : Table Symbol 8) : (installTables p t s).decHasLast = s.decHasLast := rfl
@[simp] theorem installTables_decLast (p : Table Symbol 2048) (t : Table Symbol 8) : (installTables p t s).decLast = s.decLast := rfl
@[simp] theorem installTables_actP (p : Table Symbol 2048) (t : Table Symbol 8) : (installTables p t s).actP = p := rfl
@[simp] theorem installTables_actT (p : Table Symbol 2048) (t : Table Symbol 8) : (installTables p t s).actT = t := rfl
@[simp] theorem installTables_stgP (p : Table Symbol 2048) (t : Table Symbol 8) : (installTables p t s).stgP = s.stgP := rfl
@[simp] theorem installTables_stgT (p : Table Symbol 2048) (t : Table Symbol 8) : (installTables p t s).stgT = s.stgT := rfl
@[simp] theorem installTables_byteMem (p : Table Symbol 2048) (t : Table Symbol 8) : (installTables p t s).byteMem = s.byteMem := rfl
@[simp] theorem installTables_symMem (p : Table Symbol 2048) (t : Table Symbol 8) : (installTables p t s).symMem = s.symMem := rfl

/-! ## `initEncoder`: `init_encoder()` (R171) -/

@[simp] theorem initEncoder_cfg : (initEncoder s).cfg = s.cfg := rfl
@[simp] theorem initEncoder_ops : (initEncoder s).ops = s.ops := rfl
@[simp] theorem initEncoder_turns : (initEncoder s).turns = s.turns := rfl
@[simp] theorem initEncoder_replies : (initEncoder s).replies = s.replies := rfl
@[simp] theorem initEncoder_faulted : (initEncoder s).faulted = s.faulted := rfl
@[simp] theorem initEncoder_engine : (initEncoder s).engine = s.engine := rfl
@[simp] theorem initEncoder_viol : (initEncoder s).viol = s.viol := rfl
@[simp] theorem initEncoder_err : (initEncoder s).err = s.err := rfl
@[simp] theorem initEncoder_srcBase : (initEncoder s).srcBase = s.srcBase := rfl
@[simp] theorem initEncoder_srcLen : (initEncoder s).srcLen = s.srcLen := rfl
@[simp] theorem initEncoder_dstBase : (initEncoder s).dstBase = s.dstBase := rfl
@[simp] theorem initEncoder_dstCap : (initEncoder s).dstCap = s.dstCap := rfl
@[simp] theorem initEncoder_result : (initEncoder s).result = s.result := rfl
@[simp] theorem initEncoder_errPos : (initEncoder s).errPos = s.errPos := rfl
@[simp] theorem initEncoder_tblIndex : (initEncoder s).tblIndex = s.tblIndex := rfl
@[simp] theorem initEncoder_tblBank : (initEncoder s).tblBank = s.tblBank := rfl
@[simp] theorem initEncoder_plen : (initEncoder s).plen = s.plen := rfl
@[simp] theorem initEncoder_tlen : (initEncoder s).tlen = s.tlen := rfl
@[simp] theorem initEncoder_lOp : (initEncoder s).lOp = s.lOp := rfl
@[simp] theorem initEncoder_lSrc : (initEncoder s).lSrc = s.lSrc := rfl
@[simp] theorem initEncoder_lLen : (initEncoder s).lLen = s.lLen := rfl
@[simp] theorem initEncoder_lDst : (initEncoder s).lDst = s.lDst := rfl
@[simp] theorem initEncoder_lCap : (initEncoder s).lCap = s.lCap := rfl
@[simp] theorem initEncoder_idx : (initEncoder s).idx = 0 := rfl
@[simp] theorem initEncoder_out : (initEncoder s).out = 0 := rfl
@[simp] theorem initEncoder_encStage : (initEncoder s).encStage = 0 := rfl
@[simp] theorem initEncoder_encRem : (initEncoder s).encRem = 0 := rfl
@[simp] theorem initEncoder_decAcc : (initEncoder s).decAcc = s.decAcc := rfl
@[simp] theorem initEncoder_decRem : (initEncoder s).decRem = s.decRem := rfl
@[simp] theorem initEncoder_decRes : (initEncoder s).decRes = s.decRes := rfl
@[simp] theorem initEncoder_decHasLast : (initEncoder s).decHasLast = s.decHasLast := rfl
@[simp] theorem initEncoder_decLast : (initEncoder s).decLast = s.decLast := rfl
@[simp] theorem initEncoder_actP : (initEncoder s).actP = s.actP := rfl
@[simp] theorem initEncoder_actT : (initEncoder s).actT = s.actT := rfl
@[simp] theorem initEncoder_stgP : (initEncoder s).stgP = s.stgP := rfl
@[simp] theorem initEncoder_stgT : (initEncoder s).stgT = s.stgT := rfl
@[simp] theorem initEncoder_byteMem : (initEncoder s).byteMem = s.byteMem := rfl
@[simp] theorem initEncoder_symMem : (initEncoder s).symMem = s.symMem := rfl

/-! ## `emitSymbol`: the write of one symbol (R172, R174) -/

@[simp] theorem emitSymbol_cfg (c : Symbol) : (emitSymbol c s).cfg = s.cfg := rfl
@[simp] theorem emitSymbol_ops (c : Symbol) : (emitSymbol c s).ops = s.ops := rfl
@[simp] theorem emitSymbol_turns (c : Symbol) : (emitSymbol c s).turns = s.turns := rfl
@[simp] theorem emitSymbol_replies (c : Symbol) : (emitSymbol c s).replies = s.replies := rfl
@[simp] theorem emitSymbol_faulted (c : Symbol) : (emitSymbol c s).faulted = s.faulted := rfl
@[simp] theorem emitSymbol_engine (c : Symbol) : (emitSymbol c s).engine = s.engine := rfl
@[simp] theorem emitSymbol_viol (c : Symbol) : (emitSymbol c s).viol = s.viol := rfl
@[simp] theorem emitSymbol_err (c : Symbol) : (emitSymbol c s).err = s.err := rfl
@[simp] theorem emitSymbol_srcBase (c : Symbol) : (emitSymbol c s).srcBase = s.srcBase := rfl
@[simp] theorem emitSymbol_srcLen (c : Symbol) : (emitSymbol c s).srcLen = s.srcLen := rfl
@[simp] theorem emitSymbol_dstBase (c : Symbol) : (emitSymbol c s).dstBase = s.dstBase := rfl
@[simp] theorem emitSymbol_dstCap (c : Symbol) : (emitSymbol c s).dstCap = s.dstCap := rfl
@[simp] theorem emitSymbol_result (c : Symbol) : (emitSymbol c s).result = s.result := rfl
@[simp] theorem emitSymbol_errPos (c : Symbol) : (emitSymbol c s).errPos = s.errPos := rfl
@[simp] theorem emitSymbol_tblIndex (c : Symbol) : (emitSymbol c s).tblIndex = s.tblIndex := rfl
@[simp] theorem emitSymbol_tblBank (c : Symbol) : (emitSymbol c s).tblBank = s.tblBank := rfl
@[simp] theorem emitSymbol_plen (c : Symbol) : (emitSymbol c s).plen = s.plen := rfl
@[simp] theorem emitSymbol_tlen (c : Symbol) : (emitSymbol c s).tlen = s.tlen := rfl
@[simp] theorem emitSymbol_lOp (c : Symbol) : (emitSymbol c s).lOp = s.lOp := rfl
@[simp] theorem emitSymbol_lSrc (c : Symbol) : (emitSymbol c s).lSrc = s.lSrc := rfl
@[simp] theorem emitSymbol_lLen (c : Symbol) : (emitSymbol c s).lLen = s.lLen := rfl
@[simp] theorem emitSymbol_lDst (c : Symbol) : (emitSymbol c s).lDst = s.lDst := rfl
@[simp] theorem emitSymbol_lCap (c : Symbol) : (emitSymbol c s).lCap = s.lCap := rfl
@[simp] theorem emitSymbol_idx (c : Symbol) : (emitSymbol c s).idx = s.idx := rfl
@[simp] theorem emitSymbol_out (c : Symbol) : (emitSymbol c s).out = s.out + 1 := rfl
@[simp] theorem emitSymbol_encStage (c : Symbol) : (emitSymbol c s).encStage = s.encStage := rfl
@[simp] theorem emitSymbol_encRem (c : Symbol) : (emitSymbol c s).encRem = s.encRem := rfl
@[simp] theorem emitSymbol_decAcc (c : Symbol) : (emitSymbol c s).decAcc = s.decAcc := rfl
@[simp] theorem emitSymbol_decRem (c : Symbol) : (emitSymbol c s).decRem = s.decRem := rfl
@[simp] theorem emitSymbol_decRes (c : Symbol) : (emitSymbol c s).decRes = s.decRes := rfl
@[simp] theorem emitSymbol_decHasLast (c : Symbol) : (emitSymbol c s).decHasLast = s.decHasLast := rfl
@[simp] theorem emitSymbol_decLast (c : Symbol) : (emitSymbol c s).decLast = s.decLast := rfl
@[simp] theorem emitSymbol_actP (c : Symbol) : (emitSymbol c s).actP = s.actP := rfl
@[simp] theorem emitSymbol_actT (c : Symbol) : (emitSymbol c s).actT = s.actT := rfl
@[simp] theorem emitSymbol_stgP (c : Symbol) : (emitSymbol c s).stgP = s.stgP := rfl
@[simp] theorem emitSymbol_stgT (c : Symbol) : (emitSymbol c s).stgT = s.stgT := rfl
@[simp] theorem emitSymbol_byteMem (c : Symbol) : (emitSymbol c s).byteMem = s.byteMem := rfl
@[simp] theorem emitSymbol_symMem (c : Symbol) : (emitSymbol c s).symMem = Memory.write s.symMem (dstAddr s) c := rfl

/-! ## `setStage`: the encoder's accumulator after a byte (R172, R173) -/

@[simp] theorem setStage_cfg (stage rem : Nat) : (setStage stage rem s).cfg = s.cfg := rfl
@[simp] theorem setStage_ops (stage rem : Nat) : (setStage stage rem s).ops = s.ops := rfl
@[simp] theorem setStage_turns (stage rem : Nat) : (setStage stage rem s).turns = s.turns := rfl
@[simp] theorem setStage_replies (stage rem : Nat) : (setStage stage rem s).replies = s.replies := rfl
@[simp] theorem setStage_faulted (stage rem : Nat) : (setStage stage rem s).faulted = s.faulted := rfl
@[simp] theorem setStage_engine (stage rem : Nat) : (setStage stage rem s).engine = s.engine := rfl
@[simp] theorem setStage_viol (stage rem : Nat) : (setStage stage rem s).viol = s.viol := rfl
@[simp] theorem setStage_err (stage rem : Nat) : (setStage stage rem s).err = s.err := rfl
@[simp] theorem setStage_srcBase (stage rem : Nat) : (setStage stage rem s).srcBase = s.srcBase := rfl
@[simp] theorem setStage_srcLen (stage rem : Nat) : (setStage stage rem s).srcLen = s.srcLen := rfl
@[simp] theorem setStage_dstBase (stage rem : Nat) : (setStage stage rem s).dstBase = s.dstBase := rfl
@[simp] theorem setStage_dstCap (stage rem : Nat) : (setStage stage rem s).dstCap = s.dstCap := rfl
@[simp] theorem setStage_result (stage rem : Nat) : (setStage stage rem s).result = s.result := rfl
@[simp] theorem setStage_errPos (stage rem : Nat) : (setStage stage rem s).errPos = s.errPos := rfl
@[simp] theorem setStage_tblIndex (stage rem : Nat) : (setStage stage rem s).tblIndex = s.tblIndex := rfl
@[simp] theorem setStage_tblBank (stage rem : Nat) : (setStage stage rem s).tblBank = s.tblBank := rfl
@[simp] theorem setStage_plen (stage rem : Nat) : (setStage stage rem s).plen = s.plen := rfl
@[simp] theorem setStage_tlen (stage rem : Nat) : (setStage stage rem s).tlen = s.tlen := rfl
@[simp] theorem setStage_lOp (stage rem : Nat) : (setStage stage rem s).lOp = s.lOp := rfl
@[simp] theorem setStage_lSrc (stage rem : Nat) : (setStage stage rem s).lSrc = s.lSrc := rfl
@[simp] theorem setStage_lLen (stage rem : Nat) : (setStage stage rem s).lLen = s.lLen := rfl
@[simp] theorem setStage_lDst (stage rem : Nat) : (setStage stage rem s).lDst = s.lDst := rfl
@[simp] theorem setStage_lCap (stage rem : Nat) : (setStage stage rem s).lCap = s.lCap := rfl
@[simp] theorem setStage_idx (stage rem : Nat) : (setStage stage rem s).idx = s.idx := rfl
@[simp] theorem setStage_out (stage rem : Nat) : (setStage stage rem s).out = s.out := rfl
@[simp] theorem setStage_encStage (stage rem : Nat) : (setStage stage rem s).encStage = BitVec.ofNat 11 stage := rfl
@[simp] theorem setStage_encRem (stage rem : Nat) : (setStage stage rem s).encRem = BitVec.ofNat 4 rem := rfl
@[simp] theorem setStage_decAcc (stage rem : Nat) : (setStage stage rem s).decAcc = s.decAcc := rfl
@[simp] theorem setStage_decRem (stage rem : Nat) : (setStage stage rem s).decRem = s.decRem := rfl
@[simp] theorem setStage_decRes (stage rem : Nat) : (setStage stage rem s).decRes = s.decRes := rfl
@[simp] theorem setStage_decHasLast (stage rem : Nat) : (setStage stage rem s).decHasLast = s.decHasLast := rfl
@[simp] theorem setStage_decLast (stage rem : Nat) : (setStage stage rem s).decLast = s.decLast := rfl
@[simp] theorem setStage_actP (stage rem : Nat) : (setStage stage rem s).actP = s.actP := rfl
@[simp] theorem setStage_actT (stage rem : Nat) : (setStage stage rem s).actT = s.actT := rfl
@[simp] theorem setStage_stgP (stage rem : Nat) : (setStage stage rem s).stgP = s.stgP := rfl
@[simp] theorem setStage_stgT (stage rem : Nat) : (setStage stage rem s).stgT = s.stgT := rfl
@[simp] theorem setStage_byteMem (stage rem : Nat) : (setStage stage rem s).byteMem = s.byteMem := rfl
@[simp] theorem setStage_symMem (stage rem : Nat) : (setStage stage rem s).symMem = s.symMem := rfl

/-! ## `advance`: IDX <- IDX + 1 (R23) -/

@[simp] theorem advance_cfg : (advance s).cfg = s.cfg := rfl
@[simp] theorem advance_ops : (advance s).ops = s.ops := rfl
@[simp] theorem advance_turns : (advance s).turns = s.turns := rfl
@[simp] theorem advance_replies : (advance s).replies = s.replies := rfl
@[simp] theorem advance_faulted : (advance s).faulted = s.faulted := rfl
@[simp] theorem advance_engine : (advance s).engine = s.engine := rfl
@[simp] theorem advance_viol : (advance s).viol = s.viol := rfl
@[simp] theorem advance_err : (advance s).err = s.err := rfl
@[simp] theorem advance_srcBase : (advance s).srcBase = s.srcBase := rfl
@[simp] theorem advance_srcLen : (advance s).srcLen = s.srcLen := rfl
@[simp] theorem advance_dstBase : (advance s).dstBase = s.dstBase := rfl
@[simp] theorem advance_dstCap : (advance s).dstCap = s.dstCap := rfl
@[simp] theorem advance_result : (advance s).result = s.result := rfl
@[simp] theorem advance_errPos : (advance s).errPos = s.errPos := rfl
@[simp] theorem advance_tblIndex : (advance s).tblIndex = s.tblIndex := rfl
@[simp] theorem advance_tblBank : (advance s).tblBank = s.tblBank := rfl
@[simp] theorem advance_plen : (advance s).plen = s.plen := rfl
@[simp] theorem advance_tlen : (advance s).tlen = s.tlen := rfl
@[simp] theorem advance_lOp : (advance s).lOp = s.lOp := rfl
@[simp] theorem advance_lSrc : (advance s).lSrc = s.lSrc := rfl
@[simp] theorem advance_lLen : (advance s).lLen = s.lLen := rfl
@[simp] theorem advance_lDst : (advance s).lDst = s.lDst := rfl
@[simp] theorem advance_lCap : (advance s).lCap = s.lCap := rfl
@[simp] theorem advance_idx : (advance s).idx = s.idx + 1 := rfl
@[simp] theorem advance_out : (advance s).out = s.out := rfl
@[simp] theorem advance_encStage : (advance s).encStage = s.encStage := rfl
@[simp] theorem advance_encRem : (advance s).encRem = s.encRem := rfl
@[simp] theorem advance_decAcc : (advance s).decAcc = s.decAcc := rfl
@[simp] theorem advance_decRem : (advance s).decRem = s.decRem := rfl
@[simp] theorem advance_decRes : (advance s).decRes = s.decRes := rfl
@[simp] theorem advance_decHasLast : (advance s).decHasLast = s.decHasLast := rfl
@[simp] theorem advance_decLast : (advance s).decLast = s.decLast := rfl
@[simp] theorem advance_actP : (advance s).actP = s.actP := rfl
@[simp] theorem advance_actT : (advance s).actT = s.actT := rfl
@[simp] theorem advance_stgP : (advance s).stgP = s.stgP := rfl
@[simp] theorem advance_stgT : (advance s).stgT = s.stgT := rfl
@[simp] theorem advance_byteMem : (advance s).byteMem = s.byteMem := rfl
@[simp] theorem advance_symMem : (advance s).symMem = s.symMem := rfl

/-! ## `setLast`: `find_last()` (R201) -/

@[simp] theorem setLast_cfg (src : List Symbol) : (setLast src s).cfg = s.cfg := rfl
@[simp] theorem setLast_ops (src : List Symbol) : (setLast src s).ops = s.ops := rfl
@[simp] theorem setLast_turns (src : List Symbol) : (setLast src s).turns = s.turns := rfl
@[simp] theorem setLast_replies (src : List Symbol) : (setLast src s).replies = s.replies := rfl
@[simp] theorem setLast_faulted (src : List Symbol) : (setLast src s).faulted = s.faulted := rfl
@[simp] theorem setLast_engine (src : List Symbol) : (setLast src s).engine = s.engine := rfl
@[simp] theorem setLast_viol (src : List Symbol) : (setLast src s).viol = s.viol := rfl
@[simp] theorem setLast_err (src : List Symbol) : (setLast src s).err = s.err := rfl
@[simp] theorem setLast_srcBase (src : List Symbol) : (setLast src s).srcBase = s.srcBase := rfl
@[simp] theorem setLast_srcLen (src : List Symbol) : (setLast src s).srcLen = s.srcLen := rfl
@[simp] theorem setLast_dstBase (src : List Symbol) : (setLast src s).dstBase = s.dstBase := rfl
@[simp] theorem setLast_dstCap (src : List Symbol) : (setLast src s).dstCap = s.dstCap := rfl
@[simp] theorem setLast_result (src : List Symbol) : (setLast src s).result = s.result := rfl
@[simp] theorem setLast_errPos (src : List Symbol) : (setLast src s).errPos = s.errPos := rfl
@[simp] theorem setLast_tblIndex (src : List Symbol) : (setLast src s).tblIndex = s.tblIndex := rfl
@[simp] theorem setLast_tblBank (src : List Symbol) : (setLast src s).tblBank = s.tblBank := rfl
@[simp] theorem setLast_plen (src : List Symbol) : (setLast src s).plen = s.plen := rfl
@[simp] theorem setLast_tlen (src : List Symbol) : (setLast src s).tlen = s.tlen := rfl
@[simp] theorem setLast_lOp (src : List Symbol) : (setLast src s).lOp = s.lOp := rfl
@[simp] theorem setLast_lSrc (src : List Symbol) : (setLast src s).lSrc = s.lSrc := rfl
@[simp] theorem setLast_lLen (src : List Symbol) : (setLast src s).lLen = s.lLen := rfl
@[simp] theorem setLast_lDst (src : List Symbol) : (setLast src s).lDst = s.lDst := rfl
@[simp] theorem setLast_lCap (src : List Symbol) : (setLast src s).lCap = s.lCap := rfl
@[simp] theorem setLast_idx (src : List Symbol) : (setLast src s).idx = s.idx := rfl
@[simp] theorem setLast_out (src : List Symbol) : (setLast src s).out = s.out := rfl
@[simp] theorem setLast_encStage (src : List Symbol) : (setLast src s).encStage = s.encStage := rfl
@[simp] theorem setLast_encRem (src : List Symbol) : (setLast src s).encRem = s.encRem := rfl
@[simp] theorem setLast_decAcc (src : List Symbol) : (setLast src s).decAcc = s.decAcc := rfl
@[simp] theorem setLast_decRem (src : List Symbol) : (setLast src s).decRem = s.decRem := rfl
@[simp] theorem setLast_decRes (src : List Symbol) : (setLast src s).decRes = s.decRes := rfl
@[simp] theorem setLast_decHasLast (src : List Symbol) : (setLast src s).decHasLast = (lastNonWs src).isSome := rfl
@[simp] theorem setLast_decLast (src : List Symbol) : (setLast src s).decLast = (lastNonWs src).getD 0 := rfl
@[simp] theorem setLast_actP (src : List Symbol) : (setLast src s).actP = s.actP := rfl
@[simp] theorem setLast_actT (src : List Symbol) : (setLast src s).actT = s.actT := rfl
@[simp] theorem setLast_stgP (src : List Symbol) : (setLast src s).stgP = s.stgP := rfl
@[simp] theorem setLast_stgT (src : List Symbol) : (setLast src s).stgT = s.stgT := rfl
@[simp] theorem setLast_byteMem (src : List Symbol) : (setLast src s).byteMem = s.byteMem := rfl
@[simp] theorem setLast_symMem (src : List Symbol) : (setLast src s).symMem = s.symMem := rfl

/-! ## `initDecoder`: `init_decoder()` (R202) -/

@[simp] theorem initDecoder_cfg : (initDecoder s).cfg = s.cfg := rfl
@[simp] theorem initDecoder_ops : (initDecoder s).ops = s.ops := rfl
@[simp] theorem initDecoder_turns : (initDecoder s).turns = s.turns := rfl
@[simp] theorem initDecoder_replies : (initDecoder s).replies = s.replies := rfl
@[simp] theorem initDecoder_faulted : (initDecoder s).faulted = s.faulted := rfl
@[simp] theorem initDecoder_engine : (initDecoder s).engine = s.engine := rfl
@[simp] theorem initDecoder_viol : (initDecoder s).viol = s.viol := rfl
@[simp] theorem initDecoder_err : (initDecoder s).err = s.err := rfl
@[simp] theorem initDecoder_srcBase : (initDecoder s).srcBase = s.srcBase := rfl
@[simp] theorem initDecoder_srcLen : (initDecoder s).srcLen = s.srcLen := rfl
@[simp] theorem initDecoder_dstBase : (initDecoder s).dstBase = s.dstBase := rfl
@[simp] theorem initDecoder_dstCap : (initDecoder s).dstCap = s.dstCap := rfl
@[simp] theorem initDecoder_result : (initDecoder s).result = s.result := rfl
@[simp] theorem initDecoder_errPos : (initDecoder s).errPos = s.errPos := rfl
@[simp] theorem initDecoder_tblIndex : (initDecoder s).tblIndex = s.tblIndex := rfl
@[simp] theorem initDecoder_tblBank : (initDecoder s).tblBank = s.tblBank := rfl
@[simp] theorem initDecoder_plen : (initDecoder s).plen = s.plen := rfl
@[simp] theorem initDecoder_tlen : (initDecoder s).tlen = s.tlen := rfl
@[simp] theorem initDecoder_lOp : (initDecoder s).lOp = s.lOp := rfl
@[simp] theorem initDecoder_lSrc : (initDecoder s).lSrc = s.lSrc := rfl
@[simp] theorem initDecoder_lLen : (initDecoder s).lLen = s.lLen := rfl
@[simp] theorem initDecoder_lDst : (initDecoder s).lDst = s.lDst := rfl
@[simp] theorem initDecoder_lCap : (initDecoder s).lCap = s.lCap := rfl
@[simp] theorem initDecoder_idx : (initDecoder s).idx = 0 := rfl
@[simp] theorem initDecoder_out : (initDecoder s).out = 0 := rfl
@[simp] theorem initDecoder_encStage : (initDecoder s).encStage = s.encStage := rfl
@[simp] theorem initDecoder_encRem : (initDecoder s).encRem = s.encRem := rfl
@[simp] theorem initDecoder_decAcc : (initDecoder s).decAcc = 0 := rfl
@[simp] theorem initDecoder_decRem : (initDecoder s).decRem = 0 := rfl
@[simp] theorem initDecoder_decRes : (initDecoder s).decRes = 0 := rfl
@[simp] theorem initDecoder_decHasLast : (initDecoder s).decHasLast = s.decHasLast := rfl
@[simp] theorem initDecoder_decLast : (initDecoder s).decLast = s.decLast := rfl
@[simp] theorem initDecoder_actP : (initDecoder s).actP = s.actP := rfl
@[simp] theorem initDecoder_actT : (initDecoder s).actT = s.actT := rfl
@[simp] theorem initDecoder_stgP : (initDecoder s).stgP = s.stgP := rfl
@[simp] theorem initDecoder_stgT : (initDecoder s).stgT = s.stgT := rfl
@[simp] theorem initDecoder_byteMem : (initDecoder s).byteMem = s.byteMem := rfl
@[simp] theorem initDecoder_symMem : (initDecoder s).symMem = s.symMem := rfl

/-! ## `accumulate`: `accumulate(n, bits)` (R208) -/

@[simp] theorem accumulate_cfg (n bits : Nat) : (accumulate n bits s).cfg = s.cfg := rfl
@[simp] theorem accumulate_ops (n bits : Nat) : (accumulate n bits s).ops = s.ops := rfl
@[simp] theorem accumulate_turns (n bits : Nat) : (accumulate n bits s).turns = s.turns := rfl
@[simp] theorem accumulate_replies (n bits : Nat) : (accumulate n bits s).replies = s.replies := rfl
@[simp] theorem accumulate_faulted (n bits : Nat) : (accumulate n bits s).faulted = s.faulted := rfl
@[simp] theorem accumulate_engine (n bits : Nat) : (accumulate n bits s).engine = s.engine := rfl
@[simp] theorem accumulate_viol (n bits : Nat) : (accumulate n bits s).viol = s.viol := rfl
@[simp] theorem accumulate_err (n bits : Nat) : (accumulate n bits s).err = s.err := rfl
@[simp] theorem accumulate_srcBase (n bits : Nat) : (accumulate n bits s).srcBase = s.srcBase := rfl
@[simp] theorem accumulate_srcLen (n bits : Nat) : (accumulate n bits s).srcLen = s.srcLen := rfl
@[simp] theorem accumulate_dstBase (n bits : Nat) : (accumulate n bits s).dstBase = s.dstBase := rfl
@[simp] theorem accumulate_dstCap (n bits : Nat) : (accumulate n bits s).dstCap = s.dstCap := rfl
@[simp] theorem accumulate_result (n bits : Nat) : (accumulate n bits s).result = s.result := rfl
@[simp] theorem accumulate_errPos (n bits : Nat) : (accumulate n bits s).errPos = s.errPos := rfl
@[simp] theorem accumulate_tblIndex (n bits : Nat) : (accumulate n bits s).tblIndex = s.tblIndex := rfl
@[simp] theorem accumulate_tblBank (n bits : Nat) : (accumulate n bits s).tblBank = s.tblBank := rfl
@[simp] theorem accumulate_plen (n bits : Nat) : (accumulate n bits s).plen = s.plen := rfl
@[simp] theorem accumulate_tlen (n bits : Nat) : (accumulate n bits s).tlen = s.tlen := rfl
@[simp] theorem accumulate_lOp (n bits : Nat) : (accumulate n bits s).lOp = s.lOp := rfl
@[simp] theorem accumulate_lSrc (n bits : Nat) : (accumulate n bits s).lSrc = s.lSrc := rfl
@[simp] theorem accumulate_lLen (n bits : Nat) : (accumulate n bits s).lLen = s.lLen := rfl
@[simp] theorem accumulate_lDst (n bits : Nat) : (accumulate n bits s).lDst = s.lDst := rfl
@[simp] theorem accumulate_lCap (n bits : Nat) : (accumulate n bits s).lCap = s.lCap := rfl
@[simp] theorem accumulate_idx (n bits : Nat) : (accumulate n bits s).idx = s.idx := rfl
@[simp] theorem accumulate_out (n bits : Nat) : (accumulate n bits s).out = s.out + accBits n s / 8 := rfl
@[simp] theorem accumulate_encStage (n bits : Nat) : (accumulate n bits s).encStage = s.encStage := rfl
@[simp] theorem accumulate_encRem (n bits : Nat) : (accumulate n bits s).encRem = s.encRem := rfl
@[simp] theorem accumulate_decAcc (n bits : Nat) : (accumulate n bits s).decAcc = BitVec.ofNat 7 (accShifted n bits s &&& mask (accBits n s % 8)) := rfl
@[simp] theorem accumulate_decRem (n bits : Nat) : (accumulate n bits s).decRem = BitVec.ofNat 3 (accBits n s % 8) := rfl
@[simp] theorem accumulate_decRes (n bits : Nat) : (accumulate n bits s).decRes = s.decRes := rfl
@[simp] theorem accumulate_decHasLast (n bits : Nat) : (accumulate n bits s).decHasLast = s.decHasLast := rfl
@[simp] theorem accumulate_decLast (n bits : Nat) : (accumulate n bits s).decLast = s.decLast := rfl
@[simp] theorem accumulate_actP (n bits : Nat) : (accumulate n bits s).actP = s.actP := rfl
@[simp] theorem accumulate_actT (n bits : Nat) : (accumulate n bits s).actT = s.actT := rfl
@[simp] theorem accumulate_stgP (n bits : Nat) : (accumulate n bits s).stgP = s.stgP := rfl
@[simp] theorem accumulate_stgT (n bits : Nat) : (accumulate n bits s).stgT = s.stgT := rfl
@[simp] theorem accumulate_byteMem (n bits : Nat) : (accumulate n bits s).byteMem = Memory.writeRun s.byteMem (dstAddr s) (accBytes n bits s) := rfl
@[simp] theorem accumulate_symMem (n bits : Nat) : (accumulate n bits s).symMem = s.symMem := rfl

/-! ## `updateResidue`: the residue counter (R204) -/

@[simp] theorem updateResidue_cfg : (updateResidue s).cfg = s.cfg := rfl
@[simp] theorem updateResidue_ops : (updateResidue s).ops = s.ops := rfl
@[simp] theorem updateResidue_turns : (updateResidue s).turns = s.turns := rfl
@[simp] theorem updateResidue_replies : (updateResidue s).replies = s.replies := rfl
@[simp] theorem updateResidue_faulted : (updateResidue s).faulted = s.faulted := rfl
@[simp] theorem updateResidue_engine : (updateResidue s).engine = s.engine := rfl
@[simp] theorem updateResidue_viol : (updateResidue s).viol = s.viol := rfl
@[simp] theorem updateResidue_err : (updateResidue s).err = s.err := rfl
@[simp] theorem updateResidue_srcBase : (updateResidue s).srcBase = s.srcBase := rfl
@[simp] theorem updateResidue_srcLen : (updateResidue s).srcLen = s.srcLen := rfl
@[simp] theorem updateResidue_dstBase : (updateResidue s).dstBase = s.dstBase := rfl
@[simp] theorem updateResidue_dstCap : (updateResidue s).dstCap = s.dstCap := rfl
@[simp] theorem updateResidue_result : (updateResidue s).result = s.result := rfl
@[simp] theorem updateResidue_errPos : (updateResidue s).errPos = s.errPos := rfl
@[simp] theorem updateResidue_tblIndex : (updateResidue s).tblIndex = s.tblIndex := rfl
@[simp] theorem updateResidue_tblBank : (updateResidue s).tblBank = s.tblBank := rfl
@[simp] theorem updateResidue_plen : (updateResidue s).plen = s.plen := rfl
@[simp] theorem updateResidue_tlen : (updateResidue s).tlen = s.tlen := rfl
@[simp] theorem updateResidue_lOp : (updateResidue s).lOp = s.lOp := rfl
@[simp] theorem updateResidue_lSrc : (updateResidue s).lSrc = s.lSrc := rfl
@[simp] theorem updateResidue_lLen : (updateResidue s).lLen = s.lLen := rfl
@[simp] theorem updateResidue_lDst : (updateResidue s).lDst = s.lDst := rfl
@[simp] theorem updateResidue_lCap : (updateResidue s).lCap = s.lCap := rfl
@[simp] theorem updateResidue_idx : (updateResidue s).idx = s.idx := rfl
@[simp] theorem updateResidue_out : (updateResidue s).out = s.out := rfl
@[simp] theorem updateResidue_encStage : (updateResidue s).encStage = s.encStage := rfl
@[simp] theorem updateResidue_encRem : (updateResidue s).encRem = s.encRem := rfl
@[simp] theorem updateResidue_decAcc : (updateResidue s).decAcc = s.decAcc := rfl
@[simp] theorem updateResidue_decRem : (updateResidue s).decRem = s.decRem := rfl
@[simp] theorem updateResidue_decRes : (updateResidue s).decRes = BitVec.ofNat 3 ((s.decRes.toNat + 11) % 8) := rfl
@[simp] theorem updateResidue_decHasLast : (updateResidue s).decHasLast = s.decHasLast := rfl
@[simp] theorem updateResidue_decLast : (updateResidue s).decLast = s.decLast := rfl
@[simp] theorem updateResidue_actP : (updateResidue s).actP = s.actP := rfl
@[simp] theorem updateResidue_actT : (updateResidue s).actT = s.actT := rfl
@[simp] theorem updateResidue_stgP : (updateResidue s).stgP = s.stgP := rfl
@[simp] theorem updateResidue_stgT : (updateResidue s).stgT = s.stgT := rfl
@[simp] theorem updateResidue_byteMem : (updateResidue s).byteMem = s.byteMem := rfl
@[simp] theorem updateResidue_symMem : (updateResidue s).symMem = s.symMem := rfl

/-! ## `writeTblIndex`: a write of TBL_INDEX (R128) -/

@[simp] theorem writeTblIndex_cfg (w : Word) : (writeTblIndex w s).cfg = s.cfg := rfl
@[simp] theorem writeTblIndex_ops (w : Word) : (writeTblIndex w s).ops = s.ops := rfl
@[simp] theorem writeTblIndex_turns (w : Word) : (writeTblIndex w s).turns = s.turns := rfl
@[simp] theorem writeTblIndex_replies (w : Word) : (writeTblIndex w s).replies = s.replies := rfl
@[simp] theorem writeTblIndex_faulted (w : Word) : (writeTblIndex w s).faulted = s.faulted := rfl
@[simp] theorem writeTblIndex_engine (w : Word) : (writeTblIndex w s).engine = s.engine := rfl
@[simp] theorem writeTblIndex_viol (w : Word) : (writeTblIndex w s).viol = s.viol := rfl
@[simp] theorem writeTblIndex_err (w : Word) : (writeTblIndex w s).err = s.err := rfl
@[simp] theorem writeTblIndex_srcBase (w : Word) : (writeTblIndex w s).srcBase = s.srcBase := rfl
@[simp] theorem writeTblIndex_srcLen (w : Word) : (writeTblIndex w s).srcLen = s.srcLen := rfl
@[simp] theorem writeTblIndex_dstBase (w : Word) : (writeTblIndex w s).dstBase = s.dstBase := rfl
@[simp] theorem writeTblIndex_dstCap (w : Word) : (writeTblIndex w s).dstCap = s.dstCap := rfl
@[simp] theorem writeTblIndex_result (w : Word) : (writeTblIndex w s).result = s.result := rfl
@[simp] theorem writeTblIndex_errPos (w : Word) : (writeTblIndex w s).errPos = s.errPos := rfl
@[simp] theorem writeTblIndex_tblIndex (w : Word) : (writeTblIndex w s).tblIndex = w.extractLsb' 0 12 := rfl
@[simp] theorem writeTblIndex_tblBank (w : Word) : (writeTblIndex w s).tblBank = w.getLsbD 12 := rfl
@[simp] theorem writeTblIndex_plen (w : Word) : (writeTblIndex w s).plen = s.plen := rfl
@[simp] theorem writeTblIndex_tlen (w : Word) : (writeTblIndex w s).tlen = s.tlen := rfl
@[simp] theorem writeTblIndex_lOp (w : Word) : (writeTblIndex w s).lOp = s.lOp := rfl
@[simp] theorem writeTblIndex_lSrc (w : Word) : (writeTblIndex w s).lSrc = s.lSrc := rfl
@[simp] theorem writeTblIndex_lLen (w : Word) : (writeTblIndex w s).lLen = s.lLen := rfl
@[simp] theorem writeTblIndex_lDst (w : Word) : (writeTblIndex w s).lDst = s.lDst := rfl
@[simp] theorem writeTblIndex_lCap (w : Word) : (writeTblIndex w s).lCap = s.lCap := rfl
@[simp] theorem writeTblIndex_idx (w : Word) : (writeTblIndex w s).idx = s.idx := rfl
@[simp] theorem writeTblIndex_out (w : Word) : (writeTblIndex w s).out = s.out := rfl
@[simp] theorem writeTblIndex_encStage (w : Word) : (writeTblIndex w s).encStage = s.encStage := rfl
@[simp] theorem writeTblIndex_encRem (w : Word) : (writeTblIndex w s).encRem = s.encRem := rfl
@[simp] theorem writeTblIndex_decAcc (w : Word) : (writeTblIndex w s).decAcc = s.decAcc := rfl
@[simp] theorem writeTblIndex_decRem (w : Word) : (writeTblIndex w s).decRem = s.decRem := rfl
@[simp] theorem writeTblIndex_decRes (w : Word) : (writeTblIndex w s).decRes = s.decRes := rfl
@[simp] theorem writeTblIndex_decHasLast (w : Word) : (writeTblIndex w s).decHasLast = s.decHasLast := rfl
@[simp] theorem writeTblIndex_decLast (w : Word) : (writeTblIndex w s).decLast = s.decLast := rfl
@[simp] theorem writeTblIndex_actP (w : Word) : (writeTblIndex w s).actP = s.actP := rfl
@[simp] theorem writeTblIndex_actT (w : Word) : (writeTblIndex w s).actT = s.actT := rfl
@[simp] theorem writeTblIndex_stgP (w : Word) : (writeTblIndex w s).stgP = s.stgP := rfl
@[simp] theorem writeTblIndex_stgT (w : Word) : (writeTblIndex w s).stgT = s.stgT := rfl
@[simp] theorem writeTblIndex_byteMem (w : Word) : (writeTblIndex w s).byteMem = s.byteMem := rfl
@[simp] theorem writeTblIndex_symMem (w : Word) : (writeTblIndex w s).symMem = s.symMem := rfl

/-! ## `reply`: the answer to a host read (R126) -/

@[simp] theorem reply_cfg (w : Word) : (reply w s).cfg = s.cfg := rfl
@[simp] theorem reply_ops (w : Word) : (reply w s).ops = s.ops := rfl
@[simp] theorem reply_turns (w : Word) : (reply w s).turns = s.turns := rfl
@[simp] theorem reply_replies (w : Word) : (reply w s).replies = w :: s.replies := rfl
@[simp] theorem reply_faulted (w : Word) : (reply w s).faulted = s.faulted := rfl
@[simp] theorem reply_engine (w : Word) : (reply w s).engine = s.engine := rfl
@[simp] theorem reply_viol (w : Word) : (reply w s).viol = s.viol := rfl
@[simp] theorem reply_err (w : Word) : (reply w s).err = s.err := rfl
@[simp] theorem reply_srcBase (w : Word) : (reply w s).srcBase = s.srcBase := rfl
@[simp] theorem reply_srcLen (w : Word) : (reply w s).srcLen = s.srcLen := rfl
@[simp] theorem reply_dstBase (w : Word) : (reply w s).dstBase = s.dstBase := rfl
@[simp] theorem reply_dstCap (w : Word) : (reply w s).dstCap = s.dstCap := rfl
@[simp] theorem reply_result (w : Word) : (reply w s).result = s.result := rfl
@[simp] theorem reply_errPos (w : Word) : (reply w s).errPos = s.errPos := rfl
@[simp] theorem reply_tblIndex (w : Word) : (reply w s).tblIndex = s.tblIndex := rfl
@[simp] theorem reply_tblBank (w : Word) : (reply w s).tblBank = s.tblBank := rfl
@[simp] theorem reply_plen (w : Word) : (reply w s).plen = s.plen := rfl
@[simp] theorem reply_tlen (w : Word) : (reply w s).tlen = s.tlen := rfl
@[simp] theorem reply_lOp (w : Word) : (reply w s).lOp = s.lOp := rfl
@[simp] theorem reply_lSrc (w : Word) : (reply w s).lSrc = s.lSrc := rfl
@[simp] theorem reply_lLen (w : Word) : (reply w s).lLen = s.lLen := rfl
@[simp] theorem reply_lDst (w : Word) : (reply w s).lDst = s.lDst := rfl
@[simp] theorem reply_lCap (w : Word) : (reply w s).lCap = s.lCap := rfl
@[simp] theorem reply_idx (w : Word) : (reply w s).idx = s.idx := rfl
@[simp] theorem reply_out (w : Word) : (reply w s).out = s.out := rfl
@[simp] theorem reply_encStage (w : Word) : (reply w s).encStage = s.encStage := rfl
@[simp] theorem reply_encRem (w : Word) : (reply w s).encRem = s.encRem := rfl
@[simp] theorem reply_decAcc (w : Word) : (reply w s).decAcc = s.decAcc := rfl
@[simp] theorem reply_decRem (w : Word) : (reply w s).decRem = s.decRem := rfl
@[simp] theorem reply_decRes (w : Word) : (reply w s).decRes = s.decRes := rfl
@[simp] theorem reply_decHasLast (w : Word) : (reply w s).decHasLast = s.decHasLast := rfl
@[simp] theorem reply_decLast (w : Word) : (reply w s).decLast = s.decLast := rfl
@[simp] theorem reply_actP (w : Word) : (reply w s).actP = s.actP := rfl
@[simp] theorem reply_actT (w : Word) : (reply w s).actT = s.actT := rfl
@[simp] theorem reply_stgP (w : Word) : (reply w s).stgP = s.stgP := rfl
@[simp] theorem reply_stgT (w : Word) : (reply w s).stgT = s.stgT := rfl
@[simp] theorem reply_byteMem (w : Word) : (reply w s).byteMem = s.byteMem := rfl
@[simp] theorem reply_symMem (w : Word) : (reply w s).symMem = s.symMem := rfl

/-! ## `storeByte`: SB (R132) -/

@[simp] theorem storeByte_cfg (a v : Nat) : (storeByte a v s).cfg = s.cfg := rfl
@[simp] theorem storeByte_ops (a v : Nat) : (storeByte a v s).ops = s.ops := rfl
@[simp] theorem storeByte_turns (a v : Nat) : (storeByte a v s).turns = s.turns := rfl
@[simp] theorem storeByte_replies (a v : Nat) : (storeByte a v s).replies = s.replies := rfl
@[simp] theorem storeByte_faulted (a v : Nat) : (storeByte a v s).faulted = s.faulted := rfl
@[simp] theorem storeByte_engine (a v : Nat) : (storeByte a v s).engine = s.engine := rfl
@[simp] theorem storeByte_viol (a v : Nat) : (storeByte a v s).viol = s.viol := rfl
@[simp] theorem storeByte_err (a v : Nat) : (storeByte a v s).err = s.err := rfl
@[simp] theorem storeByte_srcBase (a v : Nat) : (storeByte a v s).srcBase = s.srcBase := rfl
@[simp] theorem storeByte_srcLen (a v : Nat) : (storeByte a v s).srcLen = s.srcLen := rfl
@[simp] theorem storeByte_dstBase (a v : Nat) : (storeByte a v s).dstBase = s.dstBase := rfl
@[simp] theorem storeByte_dstCap (a v : Nat) : (storeByte a v s).dstCap = s.dstCap := rfl
@[simp] theorem storeByte_result (a v : Nat) : (storeByte a v s).result = s.result := rfl
@[simp] theorem storeByte_errPos (a v : Nat) : (storeByte a v s).errPos = s.errPos := rfl
@[simp] theorem storeByte_tblIndex (a v : Nat) : (storeByte a v s).tblIndex = s.tblIndex := rfl
@[simp] theorem storeByte_tblBank (a v : Nat) : (storeByte a v s).tblBank = s.tblBank := rfl
@[simp] theorem storeByte_plen (a v : Nat) : (storeByte a v s).plen = s.plen := rfl
@[simp] theorem storeByte_tlen (a v : Nat) : (storeByte a v s).tlen = s.tlen := rfl
@[simp] theorem storeByte_lOp (a v : Nat) : (storeByte a v s).lOp = s.lOp := rfl
@[simp] theorem storeByte_lSrc (a v : Nat) : (storeByte a v s).lSrc = s.lSrc := rfl
@[simp] theorem storeByte_lLen (a v : Nat) : (storeByte a v s).lLen = s.lLen := rfl
@[simp] theorem storeByte_lDst (a v : Nat) : (storeByte a v s).lDst = s.lDst := rfl
@[simp] theorem storeByte_lCap (a v : Nat) : (storeByte a v s).lCap = s.lCap := rfl
@[simp] theorem storeByte_idx (a v : Nat) : (storeByte a v s).idx = s.idx := rfl
@[simp] theorem storeByte_out (a v : Nat) : (storeByte a v s).out = s.out := rfl
@[simp] theorem storeByte_encStage (a v : Nat) : (storeByte a v s).encStage = s.encStage := rfl
@[simp] theorem storeByte_encRem (a v : Nat) : (storeByte a v s).encRem = s.encRem := rfl
@[simp] theorem storeByte_decAcc (a v : Nat) : (storeByte a v s).decAcc = s.decAcc := rfl
@[simp] theorem storeByte_decRem (a v : Nat) : (storeByte a v s).decRem = s.decRem := rfl
@[simp] theorem storeByte_decRes (a v : Nat) : (storeByte a v s).decRes = s.decRes := rfl
@[simp] theorem storeByte_decHasLast (a v : Nat) : (storeByte a v s).decHasLast = s.decHasLast := rfl
@[simp] theorem storeByte_decLast (a v : Nat) : (storeByte a v s).decLast = s.decLast := rfl
@[simp] theorem storeByte_actP (a v : Nat) : (storeByte a v s).actP = s.actP := rfl
@[simp] theorem storeByte_actT (a v : Nat) : (storeByte a v s).actT = s.actT := rfl
@[simp] theorem storeByte_stgP (a v : Nat) : (storeByte a v s).stgP = s.stgP := rfl
@[simp] theorem storeByte_stgT (a v : Nat) : (storeByte a v s).stgT = s.stgT := rfl
@[simp] theorem storeByte_byteMem (a v : Nat) : (storeByte a v s).byteMem = Memory.write s.byteMem a (BitVec.ofNat 8 v) := rfl
@[simp] theorem storeByte_symMem (a v : Nat) : (storeByte a v s).symMem = s.symMem := rfl

/-! ## `storeSymbol`: SS (R132) -/

@[simp] theorem storeSymbol_cfg (a v : Nat) : (storeSymbol a v s).cfg = s.cfg := rfl
@[simp] theorem storeSymbol_ops (a v : Nat) : (storeSymbol a v s).ops = s.ops := rfl
@[simp] theorem storeSymbol_turns (a v : Nat) : (storeSymbol a v s).turns = s.turns := rfl
@[simp] theorem storeSymbol_replies (a v : Nat) : (storeSymbol a v s).replies = s.replies := rfl
@[simp] theorem storeSymbol_faulted (a v : Nat) : (storeSymbol a v s).faulted = s.faulted := rfl
@[simp] theorem storeSymbol_engine (a v : Nat) : (storeSymbol a v s).engine = s.engine := rfl
@[simp] theorem storeSymbol_viol (a v : Nat) : (storeSymbol a v s).viol = s.viol := rfl
@[simp] theorem storeSymbol_err (a v : Nat) : (storeSymbol a v s).err = s.err := rfl
@[simp] theorem storeSymbol_srcBase (a v : Nat) : (storeSymbol a v s).srcBase = s.srcBase := rfl
@[simp] theorem storeSymbol_srcLen (a v : Nat) : (storeSymbol a v s).srcLen = s.srcLen := rfl
@[simp] theorem storeSymbol_dstBase (a v : Nat) : (storeSymbol a v s).dstBase = s.dstBase := rfl
@[simp] theorem storeSymbol_dstCap (a v : Nat) : (storeSymbol a v s).dstCap = s.dstCap := rfl
@[simp] theorem storeSymbol_result (a v : Nat) : (storeSymbol a v s).result = s.result := rfl
@[simp] theorem storeSymbol_errPos (a v : Nat) : (storeSymbol a v s).errPos = s.errPos := rfl
@[simp] theorem storeSymbol_tblIndex (a v : Nat) : (storeSymbol a v s).tblIndex = s.tblIndex := rfl
@[simp] theorem storeSymbol_tblBank (a v : Nat) : (storeSymbol a v s).tblBank = s.tblBank := rfl
@[simp] theorem storeSymbol_plen (a v : Nat) : (storeSymbol a v s).plen = s.plen := rfl
@[simp] theorem storeSymbol_tlen (a v : Nat) : (storeSymbol a v s).tlen = s.tlen := rfl
@[simp] theorem storeSymbol_lOp (a v : Nat) : (storeSymbol a v s).lOp = s.lOp := rfl
@[simp] theorem storeSymbol_lSrc (a v : Nat) : (storeSymbol a v s).lSrc = s.lSrc := rfl
@[simp] theorem storeSymbol_lLen (a v : Nat) : (storeSymbol a v s).lLen = s.lLen := rfl
@[simp] theorem storeSymbol_lDst (a v : Nat) : (storeSymbol a v s).lDst = s.lDst := rfl
@[simp] theorem storeSymbol_lCap (a v : Nat) : (storeSymbol a v s).lCap = s.lCap := rfl
@[simp] theorem storeSymbol_idx (a v : Nat) : (storeSymbol a v s).idx = s.idx := rfl
@[simp] theorem storeSymbol_out (a v : Nat) : (storeSymbol a v s).out = s.out := rfl
@[simp] theorem storeSymbol_encStage (a v : Nat) : (storeSymbol a v s).encStage = s.encStage := rfl
@[simp] theorem storeSymbol_encRem (a v : Nat) : (storeSymbol a v s).encRem = s.encRem := rfl
@[simp] theorem storeSymbol_decAcc (a v : Nat) : (storeSymbol a v s).decAcc = s.decAcc := rfl
@[simp] theorem storeSymbol_decRem (a v : Nat) : (storeSymbol a v s).decRem = s.decRem := rfl
@[simp] theorem storeSymbol_decRes (a v : Nat) : (storeSymbol a v s).decRes = s.decRes := rfl
@[simp] theorem storeSymbol_decHasLast (a v : Nat) : (storeSymbol a v s).decHasLast = s.decHasLast := rfl
@[simp] theorem storeSymbol_decLast (a v : Nat) : (storeSymbol a v s).decLast = s.decLast := rfl
@[simp] theorem storeSymbol_actP (a v : Nat) : (storeSymbol a v s).actP = s.actP := rfl
@[simp] theorem storeSymbol_actT (a v : Nat) : (storeSymbol a v s).actT = s.actT := rfl
@[simp] theorem storeSymbol_stgP (a v : Nat) : (storeSymbol a v s).stgP = s.stgP := rfl
@[simp] theorem storeSymbol_stgT (a v : Nat) : (storeSymbol a v s).stgT = s.stgT := rfl
@[simp] theorem storeSymbol_byteMem (a v : Nat) : (storeSymbol a v s).byteMem = s.byteMem := rfl
@[simp] theorem storeSymbol_symMem (a v : Nat) : (storeSymbol a v s).symMem = Memory.write s.symMem a (BitVec.ofNat 21 v) := rfl

/-! ## `resetEvent`: the reset event (R290 to R293, R271) -/

@[simp] theorem resetEvent_cfg : (resetEvent s).cfg = s.cfg := rfl
@[simp] theorem resetEvent_ops : (resetEvent s).ops = s.ops := rfl
@[simp] theorem resetEvent_turns : (resetEvent s).turns = s.turns := rfl
@[simp] theorem resetEvent_replies : (resetEvent s).replies = s.replies := rfl
@[simp] theorem resetEvent_faulted : (resetEvent s).faulted = s.faulted := rfl
@[simp] theorem resetEvent_engine : (resetEvent s).engine = .idle := rfl
@[simp] theorem resetEvent_viol : (resetEvent s).viol = false := rfl
@[simp] theorem resetEvent_err : (resetEvent s).err = .none := rfl
@[simp] theorem resetEvent_srcBase : (resetEvent s).srcBase = 0 := rfl
@[simp] theorem resetEvent_srcLen : (resetEvent s).srcLen = 0 := rfl
@[simp] theorem resetEvent_dstBase : (resetEvent s).dstBase = 0 := rfl
@[simp] theorem resetEvent_dstCap : (resetEvent s).dstCap = 0 := rfl
@[simp] theorem resetEvent_result : (resetEvent s).result = 0 := rfl
@[simp] theorem resetEvent_errPos : (resetEvent s).errPos = 0 := rfl
@[simp] theorem resetEvent_tblIndex : (resetEvent s).tblIndex = 0 := rfl
@[simp] theorem resetEvent_tblBank : (resetEvent s).tblBank = false := rfl
@[simp] theorem resetEvent_plen : (resetEvent s).plen = 0 := rfl
@[simp] theorem resetEvent_tlen : (resetEvent s).tlen = 0 := rfl
@[simp] theorem resetEvent_lOp : (resetEvent s).lOp = 0 := rfl
@[simp] theorem resetEvent_lSrc : (resetEvent s).lSrc = 0 := rfl
@[simp] theorem resetEvent_lLen : (resetEvent s).lLen = 0 := rfl
@[simp] theorem resetEvent_lDst : (resetEvent s).lDst = 0 := rfl
@[simp] theorem resetEvent_lCap : (resetEvent s).lCap = 0 := rfl
@[simp] theorem resetEvent_idx : (resetEvent s).idx = 0 := rfl
@[simp] theorem resetEvent_out : (resetEvent s).out = 0 := rfl
@[simp] theorem resetEvent_encStage : (resetEvent s).encStage = 0 := rfl
@[simp] theorem resetEvent_encRem : (resetEvent s).encRem = 0 := rfl
@[simp] theorem resetEvent_decAcc : (resetEvent s).decAcc = 0 := rfl
@[simp] theorem resetEvent_decRem : (resetEvent s).decRem = 0 := rfl
@[simp] theorem resetEvent_decRes : (resetEvent s).decRes = 0 := rfl
@[simp] theorem resetEvent_decHasLast : (resetEvent s).decHasLast = false := rfl
@[simp] theorem resetEvent_decLast : (resetEvent s).decLast = 0 := rfl
@[simp] theorem resetEvent_actP : (resetEvent s).actP = s.cfg.defaultP := rfl
@[simp] theorem resetEvent_actT : (resetEvent s).actT = s.cfg.defaultT := rfl
@[simp] theorem resetEvent_stgP : (resetEvent s).stgP = Table.fill 2048 none := rfl
@[simp] theorem resetEvent_stgT : (resetEvent s).stgT = Table.fill 8 none := rfl
@[simp] theorem resetEvent_byteMem : (resetEvent s).byteMem = [] := rfl
@[simp] theorem resetEvent_symMem : (resetEvent s).symMem = [] := rfl

end Sys2Proof.Machine
end

