-- ==== Sys2Proof/Laws/Step.lean ====
section
/-! SUPPORT. What a step can do, said once: the inversion of `step`, of the engine's steps, of the host's operations and of
the meanings. Invariants are proved from these cases, not by unfolding the step again. -/

namespace Sys2Proof.Machine

/-- A ModelFault never answers a next state. -/
@[simp] theorem modelFault_ne_next (k : ModelFault) (s t : State) : modelFault k s ≠ .next t := by
  intro h; cases h

/-! ## Who goes -/

/-- A step that answers a next state: nobody goes, or the engine, or the host with its first operation. -/
theorem step_cases {s t : State} (h : step s = .next t) :
    s.faulted = [] ∧
      ((s.ops = [] ∧ s.busy = false ∧ t = s)
        ∨ (s.busy = true ∧ ∃ turns, engineStep { s with turns := turns } = .next t)
        ∨ (∃ op ops turns, s.ops = op :: ops ∧ hostStep op { s with ops := ops, turns := turns } = .next t)) := by
  unfold step at h
  split at h
  · cases h
  · next hf =>
    refine ⟨by simpa using hf, ?_⟩
    split at h
    · next ho hb => cases h; exact .inl ⟨ho, hb, rfl⟩
    · next ho hb => exact .inr (.inl ⟨hb, s.turns, h⟩)
    · next op ops ho hb => exact .inr (.inr ⟨op, ops, s.turns, ho, h⟩)
    · next ho hb ht => exact .inr (.inl ⟨hb, s.turns, h⟩)
    · next ho hb ht => exact .inr (.inl ⟨hb, _, h⟩)
    · next op ops turns ho hb ht => exact .inr (.inr ⟨op, ops, turns, ho, h⟩)

/-- With no fault standing and STATE not BUSY, the step is the host's first operation. -/
theorem step_host {s : State} {op : HostOp} {ops : List HostOp} (hf : s.faulted = []) (hb : s.busy = false)
    (ho : s.ops = op :: ops) : step s = hostStep op { s with ops := ops } := by
  unfold step
  rw [if_neg (by simp [hf]), ho, hb]

/-- With no host operation left and STATE = BUSY, the step is the engine's. -/
theorem step_engine {s : State} (hf : s.faulted = []) (hb : s.busy = true) (ho : s.ops = []) :
    step s = engineStep s := by
  unfold step
  rw [if_neg (by simp [hf]), ho, hb]

/-- BUSY as a Bool and as a value of STATUS.STATE. -/
theorem busy_iff (s : State) : s.busy = true ↔ s.engine = .busy := by
  simp [State.busy]

/-! ## The engine -/

/-- What an engine step can be. -/
theorem engineStep_cases {s t : State} (h : engineStep s = .next t) :
    (s.lOp = opEncode ∧ s.idx < s.lLen.toNat ∧ ∃ b, Memory.read s.byteMem (srcAddr s) = some b ∧
        t = if encodeNeed s ≤ 8 then encodeEmit b s else encodeFold b s)
      ∨ (s.lOp = opEncode ∧ s.idx = s.lLen.toNat ∧ t = encodeFinal s)
      ∨ (s.lOp = opDecode ∧ s.idx < s.lLen.toNat ∧ ∃ c, Memory.read s.symMem (srcAddr s) = some c ∧
        t = if isWs c then advance s else decodeSymbol c s)
      ∨ (s.lOp = opDecode ∧ s.idx = s.lLen.toNat ∧ t = decodeFinal s) := by
  unfold engineStep at h
  split at h
  · next hop =>
    unfold encodeStep at h
    split at h
    · next hi =>
      unfold encodeByteStep at h
      split at h
      · cases h
      · next b hb => cases h; exact .inl ⟨hop, hi, b, hb, rfl⟩
    · split at h
      · next hi => cases h; exact .inr (.inl ⟨hop, hi, rfl⟩)
      · cases h
  · split at h
    · next hop =>
      unfold decodeStep at h
      split at h
      · next hi =>
        unfold decodeSymbolStep at h
        split at h
        · cases h
        · next c hc => cases h; exact .inr (.inr (.inl ⟨hop, hi, c, hc, rfl⟩))
      · split at h
        · next hi => cases h; exact .inr (.inr (.inr ⟨hop, hi, rfl⟩))
        · cases h
    · cases h

/-- What a non-whitespace symbol can do: an accumulation and an advance, or CORRUPT; the residue is updated first. -/
theorem decodeSymbol_cases (c : Symbol) (s : State) :
    (∃ n bits, decodeSymbol c s = advance (accumulate n bits (updateResidue s)) ∧ n ≤ 11 ∧
        (n = primaryBits (updateResidue s) ∨ n = trailingBits (updateResidue s)))
      ∨ decodeSymbol c s = corruptHere (updateResidue s) := by
  have hp : primaryBits (updateResidue s) ≤ 11 := by unfold primaryBits; split <;> omega
  have ht : trailingBits (updateResidue s) ≤ 11 := by unfold trailingBits; omega
  unfold decodeSymbol
  split
  · next v _ =>
    unfold decodePrimary
    split
    · exact .inl ⟨_, _, rfl, hp, .inl rfl⟩
    · split
      · exact .inl ⟨_, _, rfl, hp, .inl rfl⟩
      · exact .inl ⟨_, _, rfl, hp, .inl rfl⟩
      · exact .inr rfl
  · split
    · next t _ =>
      unfold decodeTrailing
      split
      · exact .inl ⟨_, _, rfl, ht, .inr rfl⟩
      · exact .inr rfl
    · exact .inr rfl

/-! ## The meanings -/

/-- What BUILD can answer. -/
theorem execBuild_cases {s t : State} (h : execBuild s = .next t) :
    (∃ code, t = raiseError code 0 (accept s) ∧ (code = .cfgPsize ∨ code = .cfgTsize ∨ code = .cfgCtrl))
      ∨ (∃ p q, readStaged s.stgP = some p ∧ readStaged s.stgT = some q ∧ hasWs p = false ∧ hasWs q = false ∧
        t = finish 0 (installTables p q (accept s))) := by
  unfold execBuild at h
  split at h
  · cases h; exact .inl ⟨_, rfl, .inl rfl⟩
  · split at h
    · cases h; exact .inl ⟨_, rfl, .inr (.inl rfl)⟩
    · split at h
      · next p q hp hq =>
        split at h
        · cases h; exact .inl ⟨_, rfl, .inr (.inr rfl)⟩
        · next hw => cases h; simp at hw; exact .inr ⟨p, q, hp, hq, hw.1, hw.2, rfl⟩
      · cases h

/-- What ENCODE's acceptance can answer. -/
theorem execEncode_cases (s : State) :
    execEncode s = .next (raiseError .range 0 (accept s))
      ∨ execEncode s = .next (raiseError .dstSmall 0 (accept s))
      ∨ (operandsOutOfRange s = false ∧ encodedLen s.srcLen.toNat ≤ s.dstCap.toNat ∧
        execEncode s = .next (startEngine (initEncoder (latch opEncode (accept s))))) := by
  unfold execEncode
  split
  · exact .inl rfl
  · next hr =>
    split
    · exact .inr (.inl rfl)
    · next hc => exact .inr (.inr ⟨by simpa using hr, by omega, rfl⟩)

/-- What DECODE's acceptance can answer. -/
theorem execDecode_cases {s t : State} (h : execDecode s = .next t) :
    t = raiseError .range 0 (accept s) ∨ t = raiseError .dstSmall 0 (accept s)
      ∨ (operandsOutOfRange s = false ∧ decodedLen s.srcLen.toNat ≤ s.dstCap.toNat ∧
        ∃ src, Memory.readRun s.symMem s.srcBase.toNat s.srcLen.toNat = some src ∧
          t = startEngine (initDecoder (setLast src (latch opDecode (accept s))))) := by
  unfold execDecode at h
  split at h
  · cases h; exact .inl rfl
  · next hr =>
    split at h
    · cases h; exact .inr (.inl rfl)
    · next hc =>
      split at h
      · cases h
      · next src hsrc => cases h; exact .inr (.inr ⟨by simpa using hr, by omega, src, hsrc, rfl⟩)

/-- What DECLEN can answer. -/
theorem execDeclen_cases (s : State) :
    execDeclen s = .next (raiseError .range 0 (accept s))
      ∨ (decodedLen s.srcLen.toNat ≤ 2 ^ 32 - 1 ∧
        execDeclen s = .next (finish (BitVec.ofNat 32 (decodedLen s.srcLen.toNat)) (accept s))) := by
  unfold execDeclen
  split
  · exact .inl rfl
  · next h => exact .inr ⟨by omega, rfl⟩

/-! ## The host -/

/-- A buffer access that answers a next state is in range, made while not BUSY, and is the access itself. -/
theorem bufferAccess_cases {ok : Bool} {s t : State} {access : Host.Outcome State Fault Refusal}
    (h : bufferAccess ok s access = .next t) : ok = true ∧ s.busy = false ∧ access = .next t := by
  unfold bufferAccess at h
  split at h
  · cases h
  · next hok =>
    split at h
    · cases h
    · next hb => exact ⟨by simpa using hok, by simpa using hb, h⟩

/-- A read that answers a next state only adds its value to `replies`. -/
theorem answer_cases {v : Option Word} {s t : State} (h : answer v s = .next t) : ∃ w, v = some w ∧ t = reply w s := by
  unfold answer at h
  split at h
  · next w => cases h; exact ⟨w, rfl, rfl⟩
  · cases h

/-- What an issued command word can come to: VIOL while BUSY, the meaning of a legal command, or ILLEGAL. -/
theorem issueCommand_cases {w : Word} {s t : State} (h : issueCommand w s = .next t) :
    (s.busy = true ∧ t = setViol s)
      ∨ (s.busy = false ∧ ∃ i, decodeCmd w = .legal i ∧ exec i s = .next t)
      ∨ (s.busy = false ∧ (∃ why, decodeCmd w = .illegal why) ∧ t = raiseError .illegal 0 (accept s)) := by
  unfold issueCommand at h
  split at h
  · next hb => cases h; exact .inl ⟨hb, rfl⟩
  · next hb =>
    have hb : s.busy = false := by simpa using hb
    split at h
    · next i hi => exact .inr (.inl ⟨hb, i, hi, h⟩)
    · next why hi => cases h; exact .inr (.inr ⟨hb, ⟨why, hi⟩, rfl⟩)

/-- What a host operation can do, by its kind. -/
theorem hostStep_cases {op : HostOp} {s t : State} (h : hostStep op s = .next t) :
    (∃ size off w r, op = .wr size off w ∧ registerAt size off = some r ∧ writeReg r w s = .next t)
      ∨ (∃ w, t = reply w s)
      ∨ (∃ a v, op = .sb a v ∧ a < 2 ^ s.cfg.addrW ∧ v < 2 ^ 8 ∧ s.busy = false ∧ t = storeByte a v s)
      ∨ (∃ a v, op = .ss a v ∧ a < 2 ^ s.cfg.addrW ∧ v < 2 ^ 21 ∧ s.busy = false ∧ t = storeSymbol a v s)
      ∨ (op = .reset ∧ t = resetEvent s)
      ∨ (op = .wait ∧ t = waitStep s) := by
  cases op with
  | wr size off w =>
    simp only [hostStep] at h
    split at h
    · next r hr => exact .inl ⟨size, off, w, r, rfl, hr, h⟩
    · cases h
  | rd size off =>
    simp only [hostStep] at h
    split at h
    · next r hr => obtain ⟨w, -, rfl⟩ := answer_cases h; exact .inr (.inl ⟨w, rfl⟩)
    · cases h
  | sb a v =>
    obtain ⟨hok, hb, hacc⟩ := bufferAccess_cases h
    cases hacc
    simp only [HostOp.wellFormed, Bool.and_eq_true, decide_eq_true_eq] at hok
    exact .inr (.inr (.inl ⟨a, v, rfl, hok.1, hok.2, hb, rfl⟩))
  | lb a =>
    obtain ⟨-, -, hacc⟩ := bufferAccess_cases h
    obtain ⟨w, -, rfl⟩ := answer_cases hacc
    exact .inr (.inl ⟨w, rfl⟩)
  | ss a v =>
    obtain ⟨hok, hb, hacc⟩ := bufferAccess_cases h
    cases hacc
    simp only [HostOp.wellFormed, Bool.and_eq_true, decide_eq_true_eq] at hok
    exact .inr (.inr (.inr (.inl ⟨a, v, rfl, hok.1, hok.2, hb, rfl⟩)))
  | ls a =>
    obtain ⟨-, -, hacc⟩ := bufferAccess_cases h
    obtain ⟨w, -, rfl⟩ := answer_cases hacc
    exact .inr (.inl ⟨w, rfl⟩)
  | reset => cases h; exact .inr (.inr (.inr (.inr (.inl ⟨rfl, rfl⟩))))
  | wait => cases h; exact .inr (.inr (.inr (.inr (.inr ⟨rfl, rfl⟩))))

end Sys2Proof.Machine
end

