-- ==== Sys2Proof/Tests/Slice0.lean ====
section
/-! SUPPORT. The model's own tests. Expected values are the test vectors of spec/95_test_vectors.md, named by their ids, and
the encodings of 30_encoding.md written out. The last part shows, for every statement with hypotheses, a concrete state
that meets all of them, clause by clause. -/

namespace Sys2Proof.Tests

open Sys2Proof Sys2Proof.Machine

-- One thread's stack for each theorem under way adds up to more memory than the checks give; so one theorem at a time.
set_option Elab.async false

/-! ## Well-formedness: an ill-formed term for each check -/

theorem test_wellFormed_command : Instr.wellFormed .decode = true := by decide
theorem test_wellFormed_access : HostOp.wellFormed 16 (.wr 4 0x3C 0xFFFFFFFF) = true := by decide
theorem test_illFormed_access_size : HostOp.wellFormed 16 (.wr 2 0x08 0) = false := by decide
theorem test_illFormed_access_misaligned : HostOp.wellFormed 16 (.rd 4 0x02) = false := by decide
theorem test_illFormed_access_beyond : HostOp.wellFormed 16 (.rd 4 0x40) = false := by decide
theorem test_wellFormed_byte : HostOp.wellFormed 16 (.sb 0xFFFF 0xFF) = true := by decide
theorem test_illFormed_byte_index : HostOp.wellFormed 16 (.sb 0x10000 0) = false := by decide
theorem test_illFormed_byte_value : HostOp.wellFormed 16 (.sb 0x10 0x100) = false := by decide
theorem test_illFormed_byte_load : HostOp.wellFormed 16 (.lb 0x10000) = false := by decide
theorem test_wellFormed_symbol : HostOp.wellFormed 16 (.ss 0xFFFF 0x1FFFFF) = true := by decide
theorem test_illFormed_symbol_index : HostOp.wellFormed 16 (.ss 0x10000 0) = false := by decide
theorem test_illFormed_symbol_value : HostOp.wellFormed 16 (.ss 0x10 0x200000) = false := by decide
theorem test_illFormed_symbol_load : HostOp.wellFormed 16 (.ls 0x10000) = false := by decide

/-- The test alphabet TA's primary table. -/
def taP : Table Symbol 2048 := Table.ofFn 2048 fun v => BitVec.ofNat 21 (0x3400 + v)

/-- The test alphabet TA's trailing table. -/
def taT : Table Symbol 8 := Table.ofFn 8 fun t => BitVec.ofNat 21 (0x30 + t)

/-- An instance whose defaults are TA. -/
def ta (fit : LastFit) : Config := ⟨16, taP, taT, fit⟩

theorem test_wellFormed_config : (ta .mask).wellFormed = true := by decide +kernel
theorem test_illFormed_config_addrW_0 : Config.wellFormed { ta .mask with addrW := 0 } = false := by decide +kernel
theorem test_illFormed_config_addrW_29 : Config.wellFormed { ta .mask with addrW := 29 } = false := by decide +kernel
theorem test_illFormed_config_primary :
    Config.wellFormed { ta .mask with defaultP := taP.set 1000 0x0D } = false := by decide +kernel
theorem test_illFormed_config_trailing :
    Config.wellFormed { ta .mask with defaultT := taT.set 7 0x0A } = false := by decide +kernel

/-! ## Decoding: words written from R91 and R92, RSV above OP -/

theorem test_decode_enclen : decodeCmd ((0b0000000000000000000000000000#28) ++ (0b0001#4)) = .legal .enclen := by decide
theorem test_decode_declen : decodeCmd ((0b0000000000000000000000000000#28) ++ (0b0010#4)) = .legal .declen := by decide
theorem test_decode_encode : decodeCmd ((0b0000000000000000000000000000#28) ++ (0b0011#4)) = .legal .encode := by decide
theorem test_decode_decode : decodeCmd ((0b0000000000000000000000000000#28) ++ (0b0100#4)) = .legal .decode := by decide
theorem test_decode_build : decodeCmd ((0b0000000000000000000000000000#28) ++ (0b0101#4)) = .legal .build := by decide
theorem test_decode_loaddef : decodeCmd ((0b0000000000000000000000000000#28) ++ (0b0110#4)) = .legal .loaddef := by decide
theorem test_decode_clear : decodeCmd ((0b0000000000000000000000000000#28) ++ (0b0111#4)) = .legal .clear := by decide
/-- K-1, K-3 and K-4. -/
theorem test_decode_illegal :
    decodeCmd 0x00000000 = .illegal .reservedOp ∧ decodeCmd 0x00000008 = .illegal .reservedOp
      ∧ decodeCmd 0x0000000F = .illegal .reservedOp ∧ decodeCmd 0x00000013 = .illegal .rsvNotZero
      ∧ decodeCmd 0x80000003 = .illegal .rsvNotZero := by decide
theorem test_decodeTableWord : decodeTableWord 32 3 = some .encode ∧ decodeTableWord 32 0x13 = none := by decide

/-! ## States to test on -/

/-- An instance with TA as its defaults, right after power-on. -/
def base : State := State.powerOn (ta .mask)

/-- TA fully staged, sizes right (`LOADTA`). -/
def staged : State :=
  { base with
    plen := 2048
    tlen := 8
    stgP := Table.ofFn 2048 fun v => some (BitVec.ofNat 21 (0x3400 + v))
    stgT := Table.ofFn 8 fun t => some (BitVec.ofNat 21 (0x30 + t)) }

/-- `base` with the four operands set. -/
def operands (s n d c : Word) : State := { base with srcBase := s, srcLen := n, dstBase := d, dstCap := c }

/-- The next operation of the host is `op`. -/
def withOp (op : HostOp) (s : State) : State := { s with ops := [op] }

/-- An ENCODE of `bytes` from 0x10 to 0x20 is running, with `sym` in SYM_MEM. -/
def encState (bytes : List Byte) (sym : Memory Symbol) (idx out stage rem : Nat) : State :=
  { base with
    engine := .busy
    lOp := opEncode
    lSrc := 0x10
    lLen := BitVec.ofNat 32 bytes.length
    lDst := 0x20
    lCap := BitVec.ofNat 32 (encodedLen bytes.length)
    idx := idx
    out := out
    encStage := BitVec.ofNat 11 stage
    encRem := BitVec.ofNat 4 rem
    byteMem := Memory.writeRun [] 0x10 bytes
    symMem := sym }

/-- A DECODE of `src` from 0x10 to 0x20 is running. -/
def decState (fit : LastFit) (src : List Symbol) (idx out acc rem res : Nat) : State :=
  { State.powerOn (ta fit) with
    engine := .busy
    lOp := opDecode
    lSrc := 0x10
    lLen := BitVec.ofNat 32 src.length
    lDst := 0x20
    lCap := BitVec.ofNat 32 (decodedLen src.length)
    idx := idx
    out := out
    decAcc := BitVec.ofNat 7 acc
    decRem := BitVec.ofNat 3 rem
    decRes := BitVec.ofNat 3 res
    decHasLast := (lastNonWs src).isSome
    decLast := (lastNonWs src).getD 0
    symMem := Memory.writeRun [] 0x10 src }

/-- `step` answers a next state that passes `p`. -/
def stepTo (s : State) (p : State → Bool) : Bool :=
  match step s with
  | .next t => p t
  | .fault _ => false
  | .refused _ => false

/-- `step` raises the model fault `k`. -/
def stepRaises (s : State) (k : ModelFault) : Bool :=
  match step s with
  | .next _ => false
  | .fault f => f == .raised k [k]
  | .refused _ => false

/-! ## One step of each command -/

/-- 2.5, n = 3. -/
theorem test_enclen_3 :
    stepTo (withOp (issueOp 1) { base with srcLen := 3 }) (fun t => t.result == 3 && statusWord t == 0x02) = true := by
  decide +kernel
/-- 2.5, n = 2^32 - 1, and K-15: VIOL stays. -/
theorem test_enclen_max :
    stepTo (withOp (issueOp 1) { base with srcLen := 0xFFFFFFFF, viol := true, engine := .error, err := .range })
      (fun t => t.result == 0xBA2E8BA3 && statusWord t == 0x06) = true := by decide +kernel
/-- 2.5, n = 3123612578. -/
theorem test_declen_largest :
    stepTo (withOp (issueOp 2) { base with srcLen := 0xBA2E8BA2 })
      (fun t => t.result == 0xFFFFFFFE && statusWord t == 0x02) = true := by decide +kernel
/-- 2.5, n = 3123612579. -/
theorem test_declen_range :
    stepTo (withOp (issueOp 2) { base with srcLen := 0xBA2E8BA3, result := 5 })
      (fun t => t.result == 0 && statusWord t == 0x63) = true := by decide +kernel
/-- E-4b. -/
theorem test_encode_dstSmall :
    stepTo (withOp (issueOp 3) (operands 0x10 3 0x20 2)) (fun t => statusWord t == 0x73) = true := by decide +kernel
/-- E-4d: accepted with sums of exactly 2^16, and latched. -/
theorem test_encode_accepted :
    stepTo (withOp (issueOp 3) (operands 0xFFFE 2 0xFFFE 2))
      (fun t => statusWord t == 0x01 && t.lOp == 0x3 && t.lSrc == 0xFFFE && t.lLen == 2) = true := by decide +kernel
/-- D-19. -/
theorem test_decode_dstSmall :
    stepTo (withOp (issueOp 4) (operands 0x10 3 0x20 3)) (fun t => statusWord t == 0x73) = true := by decide +kernel
/-- D-7: accepted, the last non-whitespace symbol at position 4. -/
theorem test_decode_accepted :
    stepTo (withOp (issueOp 4) { operands 0x10 7 0x20 9 with
        symMem := Memory.writeRun [] 0x10 [0x0A, 0x3733, 0x0D, 0x37DB, 0x33, 0x0D, 0x0A] })
      (fun t => statusWord t == 0x01 && t.decHasLast && t.decLast == 4) = true := by decide +kernel
/-- A-4 to A-6 in kind: CR staged at index 1000. -/
theorem test_build_ctrl :
    stepTo (withOp (issueOp 5) { staged with stgP := staged.stgP.set 1000 (some 0x0D) })
      (fun t => statusWord t == 0x33 && t.actP == base.actP) = true := by decide +kernel
/-- A-12: a duplicate is accepted and installed. -/
theorem test_build_duplicate :
    stepTo (withOp (issueOp 5) { staged with stgP := staged.stgP.set 7 (some 0x3405) })
      (fun t => statusWord t == 0x02 && t.actP == taP.set 7 0x3405 && t.actT == taT) = true := by decide +kernel
/-- A-19. -/
theorem test_loaddef :
    stepTo (withOp (issueOp 6) { staged with actP := taP.set 1000 0x41 })
      (fun t => statusWord t == 0x02 && t.actP == taP && t.stgP == staged.stgP && t.plen == 2048) = true := by
  decide +kernel
/-- K-7. -/
theorem test_clear :
    stepTo (withOp (issueOp 7) { base with engine := .error, err := .corrupt, viol := true, errPos := 2, result := 2 })
      (fun t => statusWord t == 0 && t.result == 0 && t.errPos == 0) = true := by decide +kernel
/-- K-5. -/
theorem test_illegal :
    stepTo (withOp (issueOp 8) { base with engine := .done, result := 7 })
      (fun t => statusWord t == 0x53 && t.result == 0 && t.errPos == 0) = true := by decide +kernel

/-! ## One engine step -/

/-- R183: byte 0x6F completes the group P[0x333] of "foo", and 5 bits stay. -/
theorem test_encode_group :
    stepTo (encState [0x66, 0x6F, 0x6F] [] 1 0 0x66 8)
      (fun t => Memory.read t.symMem 0x20 == some 0x3733#21 && t.encRem == 5 && t.encStage == 0x0F) = true := by
  decide +kernel
/-- R183: the two bits left over of "foo" are T[3]. -/
theorem test_encode_trailing :
    stepTo (encState [0x66, 0x6F, 0x6F] [(0x20, 0x3733#21), (0x21, 0x37DB#21)] 3 2 3 2)
      (fun t => Memory.read t.symMem 0x22 == some 0x33#21 && t.result == 3 && statusWord t == 0x02) = true := by
  decide +kernel
/-- D-8a, D-8b: a last primary symbol that does not fit its 5 bits. -/
theorem test_decode_tooWide :
    stepTo (decState .mask [0x3400, 0x3BFF] 1 1 0 3 3) (fun t => Memory.read t.byteMem 0x21 == some 0x1F#8) = true
      ∧ stepTo (decState .orTrunc [0x3400, 0x3BFF] 1 1 0 3 3)
        (fun t => Memory.read t.byteMem 0x21 == some 0xFF#8) = true := by decide +kernel
/-- D-6: T[4] does not fit two bits. -/
theorem test_decode_corrupt :
    stepTo (decState .mask [0x3733, 0x37DB, 0x34] 2 2 0x1B 6 6)
      (fun t => statusWord t == 0x43 && t.errPos == 2 && t.result == 2) = true := by decide +kernel

/-! ## Other host operations -/

/-- K-6. -/
theorem test_command_while_busy :
    stepTo { withOp (issueOp 5) (encState [0x66] [] 0 0 0 0) with turns := [.host] }
      (fun t => statusWord t == 0x05) = true := by decide +kernel
/-- K-9. -/
theorem test_tblIndex :
    stepTo (withOp (.rd 4 0x20) { base with tblIndex := 0xFFF, tblBank := true })
      (fun t => t.replies == [0x1FFF]) = true := by decide +kernel
/-- K-11 and K-12. -/
theorem test_tblData :
    stepTo (withOp (.wr 4 0x24 0xFFFFFFFF) base) (fun t => t.stgP.get 0 == some 0x1FFFFF#21) = true
      ∧ stepTo (withOp (.wr 4 0x24 0x1234) { base with tblBank := true })
        (fun t => t.viol && t.actP == base.actP) = true := by decide +kernel
/-- K-14. -/
theorem test_badAccess :
    stepRaises (withOp (.rd 2 0x08) base) .badAccess = true ∧ stepRaises (withOp (.rd 4 0x02) base) .badAccess = true
      ∧ stepRaises (withOp (.rd 4 0x40) base) .badAccess = true := by decide +kernel
/-- X-1 to X-4. -/
theorem test_bufferAccess :
    stepRaises { withOp (.lb 0x40) (encState [0x66] [] 0 0 0 0) with turns := [.host] } .hazard = true
      ∧ stepRaises (withOp (.lb 0x9999) base) .unwritten = true
      ∧ stepRaises (withOp (.sb 0x10000 0) base) .badAccess = true
      ∧ stepRaises (withOp (.sb 0x10 0x100) base) .badAccess = true := by decide +kernel
/-- X-5. -/
theorem test_reset :
    stepTo { withOp .reset (decState .mask [0x3733] 0 0 0 0 0) with turns := [.host] }
      (fun t => statusWord t == 0 && t.result == 0 && t.symMem == [] && t.actP == taP) = true := by decide +kernel

/-! ## Tools for the witnesses -/

theorem taP_mem {c : Symbol} (h : c ∈ taP.entries) : ∃ v, v < 2048 ∧ c = BitVec.ofNat 21 (0x3400 + v) := by
  simp only [taP, Table.ofFn, List.mem_map, List.mem_range] at h
  obtain ⟨v, hv, rfl⟩ := h
  exact ⟨v, hv, rfl⟩

theorem taT_mem {c : Symbol} (h : c ∈ taT.entries) : ∃ v, v < 8 ∧ c = BitVec.ofNat 21 (0x30 + v) := by
  simp only [taT, Table.ofFn, List.mem_map, List.mem_range] at h
  obtain ⟨v, hv, rfl⟩ := h
  exact ⟨v, hv, rfl⟩

theorem notWs {k : Nat} (h : 0x10 ≤ k) (hk : k < 2 ^ 21) : isWs (BitVec.ofNat 21 k) = false := by
  have h1 : BitVec.ofNat 21 k ≠ 0x0D#21 := fun e => by
    have := congrArg BitVec.toNat e; simp at this; omega
  have h2 : BitVec.ofNat 21 k ≠ 0x0A#21 := fun e => by
    have := congrArg BitVec.toNat e; simp at this; omega
  simp [isWs, h1, h2]

theorem taP_clean : Clean taP := fun c hc => by
  obtain ⟨v, hv, rfl⟩ := taP_mem hc
  exact notWs (by omega) (by omega)

theorem taT_clean : Clean taT := fun c hc => by
  obtain ⟨v, hv, rfl⟩ := taT_mem hc
  exact notWs (by omega) (by omega)

theorem nodup_ofFn {n : Nat} {f : Nat → Symbol} (h : ∀ x y, x < n → y < n → f x = f y → x = y) :
    (Table.ofFn n f).entries.Nodup := by
  refine List.Nodup.map_on (fun x hx y hy e => ?_) List.nodup_range
  exact h x y (List.mem_range.mp hx) (List.mem_range.mp hy) e

/-- The hypotheses of `CodecRoundTrip` and `DecodeOfEncodeGivesInputBack`: TA meets the round-trip precondition. -/
theorem ta_roundTrip : RoundTripAlphabet taP taT where
  primary_distinct := nodup_ofFn fun x y hx hy h => by
    have := congrArg BitVec.toNat h
    simp only [BitVec.toNat_ofNat] at this
    omega
  trailing_distinct := by decide +kernel
  disjoint := fun c hp ht => by
    obtain ⟨v, hv, rfl⟩ := taP_mem hp
    obtain ⟨w, hw, h⟩ := taT_mem ht
    have := congrArg BitVec.toNat h
    simp at this
    omega
  primary_clean := taP_clean
  trailing_clean := taT_clean

/-- A run written into an empty memory reads back. -/
theorem readRun_writeRun {α : Type} (a : Nat) (xs : List α) :
    Memory.readRun (Memory.writeRun [] a xs) a xs.length = some xs := by
  rw [Memory.readRun_eq_some]
  refine ⟨rfl, fun i hi => ?_⟩
  rw [Memory.read_writeRun_inside hi]

theorem toNat_small {k m : Nat} (h : k ≤ m) (hm : m < 2 ^ 32 := by omega) : (BitVec.ofNat 32 k).toNat = k := by
  rw [BitVec.toNat_ofNat, Nat.mod_eq_of_lt (by omega)]

theorem some_getD_eq (o : Option Nat) : (if o.isSome = true then some (o.getD 0) else none) = o := by
  cases o <;> rfl

/-- A running ENCODE whose counters agree meets the invariant. -/
theorem encState_inv {bytes : List Byte} {sym : Memory Symbol} {idx out stage rem : Nat} (hn : bytes.length ≤ 100)
    (hw : Memory.wf sym) (hi : Memory.within sym 65536) (hx : idx ≤ bytes.length) (hr : rem ≤ 10)
    (hs : stage < 2 ^ rem) (hb : 11 * out + rem = 8 * idx) : Inv (encState bytes sym idx out stage rem) where
  addrW_pos := by simp [encState, base, State.powerOn, ta]
  addrW_le := by simp [encState, base, State.powerOn, ta]
  defaultP_clean := taP_clean
  defaultT_clean := taT_clean
  actP_clean := taP_clean
  actT_clean := taT_clean
  byteMem_wf := Memory.wf_writeRun List.Pairwise.nil 0x10
  byteMem_in := Memory.within_writeRun (by simp [Memory.within])
    (by simp only [State.memSize, encState, base, State.powerOn, ta]; omega)
  symMem_wf := hw
  symMem_in := hi
  error_code := by simp [encState, base, State.powerOn]
  corrupt_pos := by simp [encState, base, State.powerOn]
  idle_zero := by simp [encState, base, State.powerOn]
  running := fun _ =>
    { op := Or.inl rfl
      source_in := by simp only [State.memSize, encState, base, State.powerOn, ta, toNat_small hn]; simp; omega
      dest_in := by
        simp only [State.memSize, encState, base, State.powerOn, ta, encodedLen,
          toNat_small (by omega : (8 * bytes.length + 10) / 11 ≤ 200)]
        simp; omega
      idx_le := by simp only [encState, toNat_small hn]; exact hx
      result_zero := rfl
      errPos_zero := rfl
      encode := fun _ =>
        { room := by
            simp only [encState, toNat_small hn, encodedLen,
              toNat_small (by omega : (8 * bytes.length + 10) / 11 ≤ 200)]
            exact Nat.le_refl _
          rem_le := by simp only [encState, BitVec.toNat_ofNat]; exact Nat.le_trans (Nat.mod_le _ _) hr
          stage_lt := by
            have : stage < 2 ^ 10 := lt_of_lt_of_le hs (Nat.pow_le_pow_right (by omega) hr)
            simp only [encState, BitVec.toNat_ofNat]
            rw [Nat.mod_eq_of_lt (by omega : rem < 2 ^ 4), Nat.mod_eq_of_lt (by omega)]
            exact hs
          bits := by
            simp only [encState, BitVec.toNat_ofNat]
            rw [Nat.mod_eq_of_lt (by omega : rem < 2 ^ 4)]
            exact hb }
      decode := fun h => absurd h (by simp [encState, opEncode, opDecode]) }

/-- A running DECODE whose counters agree meets the invariant. -/
theorem decState_inv {fit : LastFit} {src : List Symbol} {idx out acc rem res : Nat} (hn : src.length ≤ 100)
    (hx : idx ≤ src.length) (hr : rem ≤ 7) (hs : acc < 2 ^ rem) (hb : 8 * out + rem ≤ 11 * idx)
    (hres : res = 3 * nonWsCount (src.take idx) % 8) : Inv (decState fit src idx out acc rem res) where
  addrW_pos := by simp [decState, State.powerOn, ta]
  addrW_le := by simp [decState, State.powerOn, ta]
  defaultP_clean := taP_clean
  defaultT_clean := taT_clean
  actP_clean := taP_clean
  actT_clean := taT_clean
  byteMem_wf := List.Pairwise.nil
  byteMem_in := by simp [Memory.within, decState, State.powerOn]
  symMem_wf := Memory.wf_writeRun List.Pairwise.nil 0x10
  symMem_in := Memory.within_writeRun (by simp [Memory.within])
    (by simp only [State.memSize, decState, State.powerOn, ta]; omega)
  error_code := by simp [decState, State.powerOn]
  corrupt_pos := by simp [decState, State.powerOn]
  idle_zero := by simp [decState, State.powerOn]
  running := fun _ =>
    { op := Or.inr rfl
      source_in := by simp only [State.memSize, decState, State.powerOn, ta, toNat_small hn]; simp; omega
      dest_in := by
        simp only [State.memSize, decState, State.powerOn, ta, decodedLen, toNat_small (by omega : 11 * src.length / 8 ≤ 200)]
        simp; omega
      idx_le := by simp only [decState, toNat_small hn]; exact hx
      result_zero := rfl
      errPos_zero := rfl
      encode := fun h => absurd h (by simp [decState, opEncode, opDecode])
      decode := fun _ =>
        { room := by
            simp only [decState, toNat_small hn, decodedLen, toNat_small (by omega : 11 * src.length / 8 ≤ 200)]
            exact Nat.le_refl _
          acc_lt := by
            have : acc < 2 ^ 7 := lt_of_lt_of_le hs (Nat.pow_le_pow_right (by omega) hr)
            simp only [decState, BitVec.toNat_ofNat]
            rw [Nat.mod_eq_of_lt (by omega : rem < 2 ^ 3), Nat.mod_eq_of_lt (by omega)]
            exact hs
          bits := by simp [decState, State.powerOn]; omega
          source := by
            have hl : (decState fit src idx out acc rem res).lLen.toNat = src.length := by
              simp only [decState, toNat_small hn]
            refine ⟨src, ?_, ?_, ?_⟩
            · rw [hl]; exact readRun_writeRun 0x10 src
            · simp only [decState]
              exact some_getD_eq _
            · simp only [decState, BitVec.toNat_ofNat]
              omega } }

/-- A state that steps to a state passing `p`. -/
theorem exists_of_stepTo {s : State} {p : State → Bool} (h : stepTo s p = true) : ∃ t, step s = .next t ∧ p t = true := by
  unfold stepTo at h
  split at h
  · exact ⟨_, ‹_›, h⟩
  · cases h
  · cases h

/-- The host's remaining operations and the turns are no part of the invariant. -/
theorem inv_withHost {s : State} (h : Inv s) (ops : List HostOp) (turns : List Agent) :
    Inv { s with ops := ops, turns := turns } :=
  ⟨h.addrW_pos, h.addrW_le, h.defaultP_clean, h.defaultT_clean, h.actP_clean, h.actT_clean, h.byteMem_wf, h.byteMem_in,
    h.symMem_wf, h.symMem_in, h.error_code, h.corrupt_pos, h.idle_zero, fun hb =>
      have r := h.running hb
      ⟨r.op, r.source_in, r.dest_in, r.idx_le, r.result_zero, r.errPos_zero,
        fun e => have q := r.encode e; ⟨q.room, q.rem_le, q.stage_lt, q.bits⟩,
        fun d => have q := r.decode d; ⟨q.room, q.acc_lt, q.bits, q.source⟩⟩⟩

/-! ## Witnesses: the hypotheses of each statement are met, clause by clause -/

/-- `StepRunsDecodedCommand`, on the first and the last opcode. -/
theorem witness_StepRunsDecodedCommand :
    ∀ w ∈ [0x00000001, 0x00000007], ∃ (s : State) (i : Instr) (ops : List HostOp),
      s.faulted = [] ∧ s.busy = false ∧ s.ops = .wr 4 0x00 w :: ops ∧ decodeCmd w = .legal i := by
  intro w hw
  rw [List.mem_cons, List.mem_singleton] at hw
  rcases hw with rfl | rfl
  · exact ⟨withOp (issueOp 1) base, .enclen, [], rfl, rfl, rfl, by decide⟩
  · exact ⟨withOp (issueOp 7) base, .clear, [], rfl, rfl, rfl, by decide⟩

/-- `IllegalWordEndsWithIllegal`: RSV not 0, OP 0x0, OP 0x8 and OP 0xF. -/
theorem witness_IllegalWordEndsWithIllegal (w : Word) (hw : w ∈ [0x00000013#32, 0, 8, 15]) :
    (∃ (s : State) (ops : List HostOp), s.faulted = [] ∧ s.busy = false ∧ s.ops = .wr 4 0x00 w :: ops)
      ∧ (w.extractLsb' 4 28 ≠ 0 ∨ w.extractLsb' 0 4 = 0 ∨ 8 ≤ (w.extractLsb' 0 4).toNat) := by
  refine ⟨⟨withOp (issueOp w) base, [], rfl, rfl, rfl⟩, ?_⟩
  simp only [List.mem_cons, List.not_mem_nil, or_false] at hw
  rcases hw with rfl | rfl | rfl | rfl <;> decide

theorem witness_CommandWhileBusySetsViolOnly :
    ∃ (s : State) (w : Word) (ops : List HostOp) (turns : List Agent),
      s.faulted = [] ∧ s.busy = true ∧ s.ops = .wr 4 0x00 w :: ops ∧ s.turns = .host :: turns :=
  ⟨{ encState [0x66] [] 0 0 0 0 with ops := [issueOp 5], turns := [.host] }, 5, [], [], rfl, rfl, rfl, rfl⟩

/-- `DeclenGivesDecodedLengthOrRange`, both clauses where they meet. -/
theorem witness_DeclenGivesDecodedLengthOrRange :
    (∃ s : State, s.srcLen.toNat < 3123612579 ∧ s.srcLen = 3123612578)
      ∧ ∃ s : State, 3123612579 ≤ s.srcLen.toNat ∧ s.srcLen = 3123612579 :=
  ⟨⟨{ base with srcLen := 3123612578 }, by decide, rfl⟩, ⟨{ base with srcLen := 3123612579 }, by decide, rfl⟩⟩

/-- `BuildChecksThenInstalls`, its five clauses: PLEN one short, TLEN one too many, entry 5 unwritten, CR at the last
index, and TA itself. -/
theorem witness_BuildChecksThenInstalls :
    (∃ s : State, s.plen ≠ 2048 ∧ s.plen = 2047)
    ∧ (∃ s : State, s.plen = 2048 ∧ s.tlen ≠ 8 ∧ s.tlen = 9)
    ∧ (∃ s : State, s.plen = 2048 ∧ s.tlen = 8 ∧ (none ∈ s.stgP.entries ∨ none ∈ s.stgT.entries))
    ∧ (∃ (s : State) (p : Table Symbol 2048) (q : Table Symbol 8), s.plen = 2048 ∧ s.tlen = 8
      ∧ s.stgP.entries = p.entries.map some ∧ s.stgT.entries = q.entries.map some
      ∧ ∃ c, (c ∈ p.entries ∨ c ∈ q.entries) ∧ (c = 0x0D#21 ∨ c = 0x0A#21))
    ∧ ∃ (s : State) (p : Table Symbol 2048) (q : Table Symbol 8), s.plen = 2048 ∧ s.tlen = 8
      ∧ s.stgP.entries = p.entries.map some ∧ s.stgT.entries = q.entries.map some
      ∧ ∀ c, c ∈ p.entries ∨ c ∈ q.entries → c ≠ 0x0D#21 ∧ c ≠ 0x0A#21 := by
  refine ⟨⟨{ base with plen := 2047 }, by decide, rfl⟩, ⟨{ base with plen := 2048, tlen := 9 }, rfl, by decide, rfl⟩,
    ⟨{ staged with stgP := staged.stgP.set 5 none }, rfl, rfl, Or.inl (by decide +kernel)⟩,
    ⟨{ staged with stgT := staged.stgT.set 7 (some 0x0D) }, taP, taT.set 7 0x0D, rfl, rfl, by decide +kernel,
      by decide +kernel, 0x0D, Or.inr (by decide +kernel), Or.inl rfl⟩,
    ⟨staged, taP, taT, rfl, rfl, by decide +kernel, by decide +kernel, fun c hc => ?_⟩⟩
  have h : isWs c = false := hc.elim (taP_clean c) (taT_clean c)
  simpa [isWs] using h

/-- `ActiveTablesHoldNoWhitespace`, its last clause too: an ENCODE step beside an old CR in SYM_MEM. -/
theorem witness_ActiveTablesHoldNoWhitespace :
    ∃ s t : State, Inv s ∧ EncodeRunning s ∧ engineStep s = .next t ∧ Memory.read t.symMem 0x50 = some 0x0D#21 := by
  refine ⟨encState [0x66, 0x6F, 0x6F] [(0x50, 0x0D#21)] 0 0 0 0, _,
    encState_inv (by decide) (by decide) (by decide) (by decide) (by decide) (by decide) (by decide), ⟨rfl, rfl⟩, rfl, ?_⟩
  decide +kernel

/-- `ActiveTablesChangeOnlyByBuildLoaddefReset`: a BUILD, a LOADDEF and a reset that each change ACT_P. -/
theorem witness_ActiveTablesChangeOnlyByBuildLoaddefReset :
    ∀ op ∈ [issueOp 5, issueOp 6, HostOp.reset], ∃ s t : State, s.ops = [op] ∧ step s = .next t ∧ t.actP ≠ s.actP := by
  have build (op : HostOp) (h : stepTo { staged with ops := [op], actP := taP.set 0 0x41 }
      (fun t => t.actP != taP.set 0 0x41) = true) :
      ∃ s t : State, s.ops = [op] ∧ step s = .next t ∧ t.actP ≠ s.actP := by
    obtain ⟨t, ht, hp⟩ := exists_of_stepTo h
    exact ⟨_, t, rfl, ht, by simpa using hp⟩
  intro op hop
  simp only [List.mem_cons, List.not_mem_nil, or_false] at hop
  rcases hop with rfl | rfl | rfl
  · exact build _ (by decide +kernel)
  · exact build _ (by decide +kernel)
  · exact build _ (by decide +kernel)

/-- `StagingChangesOnlyByTablePortOrReset`: a table-port write and a reset that each change STG_P. -/
theorem witness_StagingChangesOnlyByTablePortOrReset :
    ∀ op ∈ [HostOp.wr 4 0x24 0x41, HostOp.reset], ∃ s t : State, s.ops = [op] ∧ step s = .next t ∧ t.stgP ≠ s.stgP := by
  have change (op : HostOp) (h : stepTo { staged with ops := [op] } (fun t => t.stgP != staged.stgP) = true) :
      ∃ s t : State, s.ops = [op] ∧ step s = .next t ∧ t.stgP ≠ s.stgP := by
    obtain ⟨t, ht, hp⟩ := exists_of_stepTo h
    exact ⟨_, t, rfl, ht, by simpa using hp⟩
  intro op hop
  simp only [List.mem_cons, List.not_mem_nil, or_false] at hop
  rcases hop with rfl | rfl
  · exact change _ (by decide +kernel)
  · exact change _ (by decide +kernel)

/-- `IllFormedInstanceRefused`: CR in the primary table, LF in the trailing table, and TA with both bounds of ADDR_W. -/
theorem witness_IllFormedInstanceRefused :
    (∃ c : Config, (0x0D#21 ∈ c.defaultP.entries)) ∧ (∃ c : Config, (0x0A#21 ∈ c.defaultT.entries))
    ∧ ∀ w ∈ [1, 28], ∃ c : Config, c.addrW = w ∧ 1 ≤ c.addrW ∧ c.addrW ≤ 28
      ∧ ∀ x, x ∈ c.defaultP.entries ∨ x ∈ c.defaultT.entries → x ≠ 0x0D#21 ∧ x ≠ 0x0A#21 := by
  refine ⟨⟨{ ta .mask with defaultP := taP.set 2047 0x0D }, by decide +kernel⟩,
    ⟨{ ta .mask with defaultT := taT.set 0 0x0A }, by decide +kernel⟩, fun w hw => ?_⟩
  refine ⟨{ ta .mask with addrW := w }, rfl, ?_, ?_, fun x hx => ?_⟩
  · revert w; decide
  · revert w; decide
  · have h : isWs x = false := hx.elim (taP_clean x) (taT_clean x)
    simpa [isWs] using h

/-- `ErrorAtAcceptanceWritesNothingElse`: the four commands that can end in ERROR at acceptance. -/
theorem witness_ErrorAtAcceptanceWritesNothingElse :
    ∀ i ∈ [Instr.declen, .encode, .decode, .build], ∃ s t : State, exec i s = .next t ∧ t.engine = .error := by
  intro i hi
  simp only [List.mem_cons, List.not_mem_nil, or_false] at hi
  rcases hi with rfl | rfl | rfl | rfl
  · exact ⟨{ base with srcLen := 0xFFFFFFFF }, _, rfl, rfl⟩
  · exact ⟨operands 0xFFFF 2 0x20 2, _, rfl, rfl⟩
  · exact ⟨operands 0x10 3 0x20 3, _, rfl, rfl⟩
  · exact ⟨base, _, rfl, rfl⟩

/-- `CommandFrame`: each command answers a next state somewhere. -/
theorem witness_CommandFrame (i : Instr) : ∃ s t : State, exec i s = .next t := by
  cases i
  · exact ⟨base, _, rfl⟩
  · exact ⟨base, _, rfl⟩
  · exact ⟨base, _, rfl⟩
  · exact ⟨base, _, rfl⟩
  · exact ⟨base, _, rfl⟩
  · exact ⟨base, _, rfl⟩
  · exact ⟨base, _, rfl⟩

/-- `ViolIsSticky`: CLEAR and a reset each clear it. -/
theorem witness_ViolIsSticky :
    ∀ op ∈ [issueOp 7, HostOp.reset], ∃ s t : State, s.ops = [op] ∧ step s = .next t ∧ s.viol = true ∧ t.viol = false := by
  intro op hop
  simp only [List.mem_cons, List.not_mem_nil, or_false] at hop
  rcases hop with rfl | rfl
  · exact ⟨{ base with viol := true, ops := [issueOp 7] }, _, rfl, rfl, rfl, rfl⟩
  · exact ⟨{ base with viol := true, ops := [.reset] }, _, rfl, rfl, rfl, rfl⟩

/-- `EncodeAcceptance`: each sum one beyond 2^16, the capacity one short, and both sums and the capacity exact. -/
theorem witness_EncodeAcceptance :
    (∃ s : State, s.srcBase.toNat + s.srcLen.toNat > 2 ^ s.cfg.addrW ∧ s.dstBase.toNat + s.dstCap.toNat ≤ 2 ^ s.cfg.addrW)
    ∧ (∃ s : State, s.srcBase.toNat + s.srcLen.toNat ≤ 2 ^ s.cfg.addrW ∧ s.dstBase.toNat + s.dstCap.toNat > 2 ^ s.cfg.addrW)
    ∧ (∃ s : State, s.srcBase.toNat + s.srcLen.toNat ≤ 2 ^ s.cfg.addrW ∧ s.dstBase.toNat + s.dstCap.toNat ≤ 2 ^ s.cfg.addrW
      ∧ s.dstCap.toNat < (8 * s.srcLen.toNat + 10) / 11)
    ∧ ∃ s : State, s.srcBase.toNat + s.srcLen.toNat ≤ 2 ^ s.cfg.addrW ∧ s.dstBase.toNat + s.dstCap.toNat ≤ 2 ^ s.cfg.addrW
      ∧ (8 * s.srcLen.toNat + 10) / 11 ≤ s.dstCap.toNat :=
  ⟨⟨operands 0xFFFF 2 0x20 2, by decide, by decide⟩, ⟨operands 0x10 3 0xFFFE 3, by decide, by decide⟩,
    ⟨operands 0x10 3 0x20 2, by decide, by decide, by decide⟩, ⟨operands 0xFFFE 2 0xFFFE 2, by decide, by decide, by decide⟩⟩

/-- `EncodeByteCompletesGroup`: the fewest bits that make a group, and the most the accumulator holds. -/
theorem witness_EncodeByteCompletesGroup :
    ∀ r ∈ [3, 10], ∃ (s : State) (b : Byte), Inv s ∧ EncodeRunning s ∧ s.idx < s.lLen.toNat
      ∧ Memory.read s.byteMem (s.lSrc.toNat + s.idx) = some b ∧ 3 ≤ s.encRem.toNat ∧ s.encRem.toNat = r := by
  intro r hr
  simp only [List.mem_cons, List.not_mem_nil, or_false] at hr
  rcases hr with rfl | rfl
  · exact ⟨encState [1, 2, 3, 4, 5, 6, 7, 8, 9, 10, 11] [] 10 7 4 3, 11, encState_inv (by decide) (by decide) (by decide)
      (by decide) (by decide) (by decide) (by decide), ⟨rfl, rfl⟩, by decide, by decide, by decide, by decide⟩
  · exact ⟨encState [0xFF, 0xFF, 0xFF, 0xFF, 0xFF] [] 4 2 0x3FF 10, 0xFF, encState_inv (by decide) (by decide) (by decide)
      (by decide) (by decide) (by decide) (by decide), ⟨rfl, rfl⟩, by decide, by decide, by decide, by decide⟩

/-- `EncodeByteFolds`: an empty accumulator, and the most bits that still make no group. -/
theorem witness_EncodeByteFolds :
    ∀ r ∈ [0, 2], ∃ (s : State) (b : Byte), Inv s ∧ EncodeRunning s ∧ s.idx < s.lLen.toNat
      ∧ Memory.read s.byteMem (s.lSrc.toNat + s.idx) = some b ∧ s.encRem.toNat ≤ 2 ∧ s.encRem.toNat = r := by
  intro r hr
  simp only [List.mem_cons, List.not_mem_nil, or_false] at hr
  rcases hr with rfl | rfl
  · exact ⟨encState [0x66] [] 0 0 0 0, 0x66, encState_inv (by decide) (by decide) (by decide)
      (by decide) (by decide) (by decide) (by decide), ⟨rfl, rfl⟩, by decide, by decide, by decide, by decide⟩
  · exact ⟨encState [0xFF, 0xFF, 0xFF, 0xFF] [] 3 2 3 2, 0xFF, encState_inv (by decide) (by decide) (by decide)
      (by decide) (by decide) (by decide) (by decide), ⟨rfl, rfl⟩, by decide, by decide, by decide, by decide⟩

/-- `EncodeFinalSymbol`: no bits left, 1 and 3 bits (trailing), 4 and 10 bits (primary). -/
theorem witness_EncodeFinalSymbol :
    ∀ r ∈ [0, 1, 3, 4, 10], ∃ s : State, Inv s ∧ EncodeRunning s ∧ s.idx = s.lLen.toNat ∧ s.encRem.toNat = r := by
  intro r hr
  simp only [List.mem_cons, List.not_mem_nil, or_false] at hr
  rcases hr with rfl | rfl | rfl | rfl | rfl
  · exact ⟨encState [] [] 0 0 0 0, encState_inv (by decide) (by decide) (by decide) (by decide) (by decide) (by decide)
      (by decide), ⟨rfl, rfl⟩, by decide, by decide⟩
  · exact ⟨encState (List.replicate 7 0xFF) [] 7 5 1 1, encState_inv (by decide) (by decide) (by decide) (by decide)
      (by decide) (by decide) (by decide), ⟨rfl, rfl⟩, by decide, by decide⟩
  · exact ⟨encState (List.replicate 10 0xFF) [] 10 7 7 3, encState_inv (by decide) (by decide) (by decide) (by decide)
      (by decide) (by decide) (by decide), ⟨rfl, rfl⟩, by decide, by decide⟩
  · exact ⟨encState (List.replicate 6 0xFF) [] 6 4 15 4, encState_inv (by decide) (by decide) (by decide) (by decide)
      (by decide) (by decide) (by decide), ⟨rfl, rfl⟩, by decide, by decide⟩
  · exact ⟨encState (List.replicate 4 0xFF) [] 4 2 0x3FF 10, encState_inv (by decide) (by decide) (by decide) (by decide)
      (by decide) (by decide) (by decide), ⟨rfl, rfl⟩, by decide, by decide⟩

/-- `EncodeRunWritesEncodedSymbols`: "foo". -/
theorem witness_EncodeRunWritesEncodedSymbols :
    ∃ (s : State) (b : List Byte), s.faulted = [] ∧ s.ops = []
      ∧ s.srcBase.toNat + s.srcLen.toNat ≤ 2 ^ s.cfg.addrW ∧ s.dstBase.toNat + s.dstCap.toNat ≤ 2 ^ s.cfg.addrW
      ∧ encodedLen s.srcLen.toNat ≤ s.dstCap.toNat
      ∧ Memory.readRun s.byteMem s.srcBase.toNat s.srcLen.toNat = some b ∧ b = [0x66, 0x6F, 0x6F] :=
  ⟨{ operands 0x10 3 0x20 3 with byteMem := [(0x10, 0x66), (0x11, 0x6F), (0x12, 0x6F)] }, [0x66, 0x6F, 0x6F],
    rfl, rfl, by decide, by decide, by decide, by decide, rfl⟩

/-- `DecodeAcceptance`: each sum one beyond, the capacity one short (D-19), everything exact (D-7's source at the end of
SYM_MEM), and a source of whitespace only (D-2). -/
theorem witness_DecodeAcceptance :
    (∃ s : State, s.srcBase.toNat + s.srcLen.toNat > 2 ^ s.cfg.addrW ∧ s.dstBase.toNat + s.dstCap.toNat ≤ 2 ^ s.cfg.addrW)
    ∧ (∃ s : State, s.srcBase.toNat + s.srcLen.toNat ≤ 2 ^ s.cfg.addrW ∧ s.dstBase.toNat + s.dstCap.toNat > 2 ^ s.cfg.addrW)
    ∧ (∃ s : State, s.srcBase.toNat + s.srcLen.toNat ≤ 2 ^ s.cfg.addrW ∧ s.dstBase.toNat + s.dstCap.toNat ≤ 2 ^ s.cfg.addrW
      ∧ s.dstCap.toNat < 11 * s.srcLen.toNat / 8)
    ∧ ∀ src ∈ [[0x0A#21, 0x3733, 0x0D, 0x37DB, 0x33, 0x0D, 0x0A], [0x0D, 0x0A]], ∃ s : State,
      s.srcBase.toNat + s.srcLen.toNat ≤ 2 ^ s.cfg.addrW ∧ s.dstBase.toNat + s.dstCap.toNat ≤ 2 ^ s.cfg.addrW
      ∧ 11 * s.srcLen.toNat / 8 ≤ s.dstCap.toNat
      ∧ Memory.readRun s.symMem s.srcBase.toNat s.srcLen.toNat = some src := by
  refine ⟨⟨operands 0xFFFF 2 0x20 2, by decide, by decide⟩, ⟨operands 0x10 3 0xFFFD 4, by decide, by decide⟩,
    ⟨operands 0x10 3 0x20 3, by decide, by decide, by decide⟩, fun src hsrc => ?_⟩
  simp only [List.mem_cons, List.not_mem_nil, or_false] at hsrc
  rcases hsrc with rfl | rfl
  · exact ⟨{ operands 0xFFF9 7 0xFFF7 9 with
      symMem := Memory.writeRun [] 0xFFF9 [0x0A#21, 0x3733, 0x0D, 0x37DB, 0x33, 0x0D, 0x0A] },
      by decide, by decide, by decide, by decide +kernel⟩
  · exact ⟨{ operands 0x10 2 0x20 2 with symMem := [(0x10, 0x0D), (0x11, 0x0A)] },
      by decide, by decide, by decide, by decide⟩

/-- `UnwrittenSourceFaults`: a DECODE whose last source element is unwritten (X-7), and E-4g's ENCODE. -/
theorem witness_UnwrittenSourceFaults :
    (∃ (s : State) (i : Nat),
      s.srcBase.toNat + s.srcLen.toNat ≤ 2 ^ s.cfg.addrW ∧ s.dstBase.toNat + s.dstCap.toNat ≤ 2 ^ s.cfg.addrW
      ∧ 11 * s.srcLen.toNat / 8 ≤ s.dstCap.toNat ∧ i < s.srcLen.toNat
      ∧ Memory.read s.symMem (s.srcBase.toNat + i) = none)
    ∧ ∃ s : State, EncodeRunning s ∧ s.idx < s.lLen.toNat ∧ Memory.read s.byteMem (s.lSrc.toNat + s.idx) = none :=
  ⟨⟨{ operands 0x10 2 0x20 2 with symMem := [(0x10, 0x41)] }, 1, by decide, by decide, by decide, by decide, by decide⟩,
    ⟨{ encState [0x66, 0x6F, 0x6F] [] 1 0 0x66 8 with byteMem := [(0x10, 0x66), (0x12, 0x6F)] }, ⟨rfl, rfl⟩,
      by decide, by decide⟩⟩

/-- `DecodeSkipsWhitespace`: CR and LF. -/
theorem witness_DecodeSkipsWhitespace :
    ∀ c ∈ [0x0D#21, 0x0A#21], ∃ s : State, DecodeRunning s ∧ s.idx < s.lLen.toNat
      ∧ Memory.read s.symMem (s.lSrc.toNat + s.idx) = some c ∧ (c = 0x0D#21 ∨ c = 0x0A#21) := by
  intro c hc
  simp only [List.mem_cons, List.not_mem_nil, or_false] at hc
  rcases hc with rfl | rfl
  · exact ⟨decState .mask [0x0D, 0x0A] 0 0 0 0 0, ⟨rfl, rfl⟩, by decide, by decide, Or.inl rfl⟩
  · exact ⟨decState .mask [0x0D, 0x0A] 1 0 0 0 0, ⟨rfl, rfl⟩, by decide, by decide, Or.inr rfl⟩

/-- `DecodePrimarySymbol`: the first symbol of D-8 (11 bits), and a last symbol at its largest value (5 bits). -/
theorem witness_DecodePrimarySymbol :
    (∃ (s : State) (c : Symbol) (v : BitVec 11), Inv s ∧ DecodeRunning s ∧ s.idx < s.lLen.toNat
      ∧ Memory.read s.symMem (s.lSrc.toNat + s.idx) = some c ∧ c ≠ 0x0D#21 ∧ c ≠ 0x0A#21
      ∧ primaryInverse s c = some v
      ∧ 11 = (if s.decHasLast && s.idx == s.decLast then 11 - (s.decRes.toNat + 11) % 8 else 11) ∧ v.toNat < 2 ^ 11)
    ∧ ∃ (s : State) (c : Symbol) (v : BitVec 11), Inv s ∧ DecodeRunning s ∧ s.idx < s.lLen.toNat
      ∧ Memory.read s.symMem (s.lSrc.toNat + s.idx) = some c ∧ c ≠ 0x0D#21 ∧ c ≠ 0x0A#21
      ∧ primaryInverse s c = some v
      ∧ 5 = (if s.decHasLast && s.idx == s.decLast then 11 - (s.decRes.toNat + 11) % 8 else 11) ∧ v.toNat < 2 ^ 5 :=
  ⟨⟨decState .mask [0x3BFF, 0x341F] 0 0 0 0 0, 0x3BFF, 0x7FF,
      decState_inv (by decide) (by decide) (by decide) (by decide) (by decide) (by decide), ⟨rfl, rfl⟩, by decide,
      by decide, by decide, by decide, by decide +kernel, by decide, by decide⟩,
    ⟨decState .mask [0x3BFF, 0x341F] 1 1 7 3 3, 0x341F, 0x1F,
      decState_inv (by decide) (by decide) (by decide) (by decide) (by decide) (by decide), ⟨rfl, rfl⟩, by decide,
      by decide, by decide, by decide, by decide +kernel, by decide, by decide⟩⟩

/-- `DecodeTooWidePrimary`, under each P_LASTFIT, at the smallest value too wide for its 5 bits. -/
theorem witness_DecodeTooWidePrimary (fit : LastFit) :
    ∃ (s : State) (c : Symbol) (v : BitVec 11) (n : Nat), Inv s ∧ DecodeRunning s ∧ s.idx < s.lLen.toNat
      ∧ Memory.read s.symMem (s.lSrc.toNat + s.idx) = some c ∧ c ≠ 0x0D#21 ∧ c ≠ 0x0A#21
      ∧ primaryInverse s c = some v ∧ s.decHasLast = true ∧ s.idx = s.decLast
      ∧ n = 11 - (s.decRes.toNat + 11) % 8 ∧ 2 ^ n ≤ v.toNat ∧ s.cfg.lastFit = fit := by
  refine ⟨decState fit [0x3400, 0x3420] 1 1 0 3 3, 0x3420, 0x20, 5,
    decState_inv (by decide) (by decide) (by decide) (by decide) (by decide) (by decide), ⟨rfl, rfl⟩, ?_, ?_, by decide,
    by decide, ?_, ?_, ?_, ?_, by decide, rfl⟩
  all_goals first
    | decide
    | (cases fit <;> decide +kernel)

/-- `DecodeTrailingSymbol`: D-16a's largest value that fits one bit, D-16b's smallest that does not, and D-5's that is not
last. -/
theorem witness_DecodeTrailingSymbol :
    (∃ (s : State) (c : Symbol) (v : BitVec 3), Inv s ∧ DecodeRunning s ∧ s.idx < s.lLen.toNat
      ∧ Memory.read s.symMem (s.lSrc.toNat + s.idx) = some c ∧ c ≠ 0x0D#21 ∧ c ≠ 0x0A#21
      ∧ primaryInverse s c = none ∧ trailingInverse s c = some v
      ∧ s.decHasLast = true ∧ s.idx = s.decLast ∧ v.toNat < 2 ^ (8 - s.decRem.toNat))
    ∧ (∃ (s : State) (c : Symbol) (v : BitVec 3), Inv s ∧ DecodeRunning s ∧ s.idx < s.lLen.toNat
      ∧ Memory.read s.symMem (s.lSrc.toNat + s.idx) = some c ∧ c ≠ 0x0D#21 ∧ c ≠ 0x0A#21
      ∧ primaryInverse s c = none ∧ trailingInverse s c = some v
      ∧ s.decHasLast = true ∧ s.idx = s.decLast ∧ ¬ v.toNat < 2 ^ (8 - s.decRem.toNat))
    ∧ ∃ (s : State) (c : Symbol) (v : BitVec 3), Inv s ∧ DecodeRunning s ∧ s.idx < s.lLen.toNat
      ∧ Memory.read s.symMem (s.lSrc.toNat + s.idx) = some c ∧ c ≠ 0x0D#21 ∧ c ≠ 0x0A#21
      ∧ primaryInverse s c = none ∧ trailingInverse s c = some v
      ∧ s.decHasLast = true ∧ s.idx ≠ s.decLast :=
  ⟨⟨decState .mask [0x3400, 0x3400, 0x3400, 0x3400, 0x3400, 0x31] 5 6 0 7 7, 0x31, 1,
      decState_inv (by decide) (by decide) (by decide) (by decide) (by decide) (by decide), ⟨rfl, rfl⟩, by decide,
      by decide, by decide, by decide, by decide +kernel, by decide +kernel, by decide, by decide, by decide⟩,
    ⟨decState .mask [0x3400, 0x3400, 0x3400, 0x3400, 0x3400, 0x32] 5 6 0 7 7, 0x32, 2,
      decState_inv (by decide) (by decide) (by decide) (by decide) (by decide) (by decide), ⟨rfl, rfl⟩, by decide,
      by decide, by decide, by decide, by decide +kernel, by decide +kernel, by decide, by decide, by decide⟩,
    ⟨decState .mask [0x30, 0x3400] 0 0 0 0 0, 0x30, 0,
      decState_inv (by decide) (by decide) (by decide) (by decide) (by decide) (by decide), ⟨rfl, rfl⟩, by decide,
      by decide, by decide, by decide, by decide +kernel, by decide +kernel, by decide, by decide⟩⟩

/-- `DecodeUnknownSymbolIsCorrupt`: D-11. -/
theorem witness_DecodeUnknownSymbolIsCorrupt :
    ∃ (s : State) (c : Symbol), Inv s ∧ DecodeRunning s ∧ s.idx < s.lLen.toNat
      ∧ Memory.read s.symMem (s.lSrc.toNat + s.idx) = some c ∧ c ≠ 0x0D#21 ∧ c ≠ 0x0A#21
      ∧ primaryInverse s c = none ∧ trailingInverse s c = none :=
  ⟨decState .mask [0x0D, 0x0A, 0x41] 2 0 0 0 0, 0x41,
    decState_inv (by decide) (by decide) (by decide) (by decide) (by decide) (by decide), ⟨rfl, rfl⟩, by decide,
    by decide, by decide, by decide, by decide +kernel, by decide +kernel⟩

/-- `DecodeFinalStep`: D-1, and a state with bits still held. -/
theorem witness_DecodeFinalStep :
    (∃ s : State, Inv s ∧ DecodeRunning s ∧ s.idx = s.lLen.toNat ∧ s.decRem = 0)
      ∧ ∃ s : State, Inv s ∧ DecodeRunning s ∧ s.idx = s.lLen.toNat ∧ s.decRem ≠ 0 :=
  ⟨⟨decState .mask [] 0 0 0 0 0, decState_inv (by decide) (by decide) (by decide) (by decide) (by decide) (by decide),
      ⟨rfl, rfl⟩, by decide, by decide⟩,
    ⟨decState .mask [0x3400, 0x3400] 2 2 0 6 6,
      decState_inv (by decide) (by decide) (by decide) (by decide) (by decide) (by decide), ⟨rfl, rfl⟩, by decide,
      by decide⟩⟩

/-- `DecodeRunComputesItsFunction`: a source that ends DONE (D-7) and one that ends CORRUPT at its last position (D-6). -/
theorem witness_DecodeRunComputesItsFunction :
    (∃ (s : State) (src : List Symbol), s.faulted = [] ∧ s.ops = []
      ∧ s.srcBase.toNat + s.srcLen.toNat ≤ 2 ^ s.cfg.addrW ∧ s.dstBase.toNat + s.dstCap.toNat ≤ 2 ^ s.cfg.addrW
      ∧ decodedLen s.srcLen.toNat ≤ s.dstCap.toNat
      ∧ Memory.readRun s.symMem s.srcBase.toNat s.srcLen.toNat = some src
      ∧ decodedResult s.cfg.lastFit s.actP s.actT src = ⟨none, [0x66, 0x6F, 0x6F]⟩)
    ∧ ∃ (s : State) (src : List Symbol), s.faulted = [] ∧ s.ops = []
      ∧ s.srcBase.toNat + s.srcLen.toNat ≤ 2 ^ s.cfg.addrW ∧ s.dstBase.toNat + s.dstCap.toNat ≤ 2 ^ s.cfg.addrW
      ∧ decodedLen s.srcLen.toNat ≤ s.dstCap.toNat
      ∧ Memory.readRun s.symMem s.srcBase.toNat s.srcLen.toNat = some src
      ∧ decodedResult s.cfg.lastFit s.actP s.actT src = ⟨some 2, [0x66, 0x6F]⟩ :=
  ⟨⟨{ operands 0x10 7 0x20 9 with symMem := Memory.writeRun [] 0x10 [0x0A, 0x3733, 0x0D, 0x37DB, 0x33, 0x0D, 0x0A] },
      [0x0A, 0x3733, 0x0D, 0x37DB, 0x33, 0x0D, 0x0A], rfl, rfl, by decide, by decide, by decide, by decide +kernel,
      by decide +kernel⟩,
    ⟨{ operands 0x10 3 0x20 4 with symMem := Memory.writeRun [] 0x10 [0x3733, 0x37DB, 0x34] }, [0x3733, 0x37DB, 0x34],
      rfl, rfl, by decide, by decide, by decide, by decide +kernel, by decide +kernel⟩⟩

/-- `DecodeOfEncodeGivesInputBack`: the encoding of "foo". (`CodecRoundTrip` rests on `ta_roundTrip` alone.) -/
theorem witness_DecodeOfEncodeGivesInputBack :
    ∃ (s : State) (b : List Byte), RoundTripAlphabet s.actP s.actT ∧ s.faulted = [] ∧ s.ops = []
      ∧ s.srcBase.toNat + s.srcLen.toNat ≤ 2 ^ s.cfg.addrW ∧ s.dstBase.toNat + s.dstCap.toNat ≤ 2 ^ s.cfg.addrW
      ∧ decodedLen s.srcLen.toNat ≤ s.dstCap.toNat
      ∧ Memory.readRun s.symMem s.srcBase.toNat s.srcLen.toNat = some (encodedSymbols s.actP s.actT b)
      ∧ b = [0x66, 0x6F, 0x6F] :=
  ⟨{ operands 0x10 3 0x20 4 with symMem := [(0x10, 0x3733), (0x11, 0x37DB), (0x12, 0x33)] }, [0x66, 0x6F, 0x6F],
    ta_roundTrip, rfl, rfl, by decide, by decide, by decide, by decide +kernel, rfl⟩

/-- `DecodeIgnoresWhitespace`: D-17 with and without a CR before it; the corrupt position moves by one. -/
theorem witness_DecodeIgnoresWhitespace :
    ∃ src src' : List Symbol, src.filter (fun c => !isWs c) = src'.filter (fun c => !isWs c)
      ∧ (decodedResult .mask taP taT src).corruptAt = some 2 ∧ (decodedResult .mask taP taT src').corruptAt = some 3 :=
  ⟨[0x3733, 0x37DB, 0x3C00], [0x0D, 0x3733, 0x37DB, 0x3C00, 0x0A], by decide, by decide +kernel, by decide +kernel⟩

/-- `EngineStepFrame`: a step of each command. -/
theorem witness_EngineStepFrame :
    (∃ s t : State, engineStep s = .next t ∧ s.lOp = opEncode ∧ s.idx < s.lLen.toNat ∧ t.engine = .busy)
      ∧ ∃ s t : State, engineStep s = .next t ∧ s.lOp = opDecode ∧ s.idx < s.lLen.toNat ∧ t.engine = .busy :=
  ⟨⟨encState [0x66] [] 0 0 0 0, _, rfl, rfl, by decide, rfl⟩,
    ⟨decState .mask [0x0D] 0 0 0 0 0, _, rfl, rfl, by decide, rfl⟩⟩

/-- `EitherEnabledAgentMayGo`: with no operation left, and with one. -/
theorem witness_EitherEnabledAgentMayGo :
    (∃ s : State, s.faulted = [] ∧ s.busy = true ∧ s.ops = [])
      ∧ ∃ (s : State) (op : HostOp) (ops : List HostOp), s.faulted = [] ∧ s.busy = true ∧ s.ops = op :: ops :=
  ⟨⟨encState [0x66] [] 0 0 0 0, rfl, rfl, rfl⟩, ⟨withOp (.rd 4 0x04) (encState [0x66] [] 0 0 0 0), _, _, rfl, rfl, rfl⟩⟩

/-- `HostStepsWhileNotBusy`: a first operation that is no CMD write, with another behind it and a turn still to come. -/
theorem witness_HostStepsWhileNotBusy :
    ∃ (s : State) (op : HostOp) (ops : List HostOp), s.faulted = [] ∧ s.busy = false ∧ s.ops = op :: ops :=
  ⟨{ base with ops := [.sb 0x10 0x66, .lb 0x10], turns := [.engine] }, _, _, rfl, rfl, rfl⟩

/-- `RegisterWriteCommutesWithEngine`: the first and the last offset, beside the engine's last step. -/
theorem witness_RegisterWriteCommutesWithEngine :
    ∀ off ∈ [0x04, 0x3C], ∃ s t : State, engineStep s = .next t ∧ off % 4 = 0 ∧ 0x04 ≤ off ∧ off < 0x40 := by
  intro off hoff
  refine ⟨encState [] [] 0 0 0 0, _, rfl, ?_⟩
  revert off
  decide

theorem witness_FaultedMachineHasNoStep : ∃ s : State, s.faulted ≠ [] :=
  ⟨{ base with faulted := [.hazard] }, by decide⟩

theorem witness_IdleCoreKeepsItsState : ∃ s : State, s.faulted = [] ∧ s.busy = false ∧ s.ops = [] :=
  ⟨base, rfl, rfl, rfl⟩

/-- `WaitEnds`: an ENCODE with turns of both agents to come, and a DECODE. -/
theorem witness_WaitEnds :
    (∃ (s : State) (ops : List HostOp), Inv s ∧ s.faulted = [] ∧ s.engine = .busy ∧ s.ops = .wait :: ops
      ∧ s.lOp = opEncode ∧ SourceWritten s)
    ∧ ∃ (s : State) (ops : List HostOp), Inv s ∧ s.faulted = [] ∧ s.engine = .busy ∧ s.ops = .wait :: ops
      ∧ s.lOp = opDecode := by
  refine ⟨⟨{ encState [0x66, 0x6F, 0x6F] [] 0 0 0 0 with ops := [.wait], turns := [.host, .engine] }, [],
      inv_withHost (encState_inv (by decide) (by decide) (by decide) (by decide) (by decide) (by decide) (by decide)) _ _,
      rfl, rfl, rfl, rfl, ?_⟩,
    ⟨{ decState .mask [0x3733] 0 0 0 0 0 with ops := [.wait], turns := [] }, [],
      inv_withHost (decState_inv (by decide) (by decide) (by decide) (by decide) (by decide) (by decide)) _ _,
      rfl, rfl, rfl, rfl⟩⟩
  intro i _ hi
  have h : i < 3 := hi
  show (Memory.read (Memory.writeRun [] 0x10 [0x66#8, 0x6F#8, 0x6F#8]) (16 + i)).isSome = true
  interval_cases i <;> decide

/-- `StepKeepsInvariant`: a step of a running ENCODE and of a running DECODE. -/
theorem witness_StepKeepsInvariant :
    (∃ s t : State, Inv s ∧ step s = .next t ∧ EncodeRunning s) ∧ ∃ s t : State, Inv s ∧ step s = .next t ∧ DecodeRunning s :=
  ⟨⟨encState [0x66] [] 0 0 0 0, _,
      encState_inv (by decide) (by decide) (by decide) (by decide) (by decide) (by decide) (by decide), rfl, rfl, rfl⟩,
    ⟨decState .mask [0x0D] 0 0 0 0 0, _,
      decState_inv (by decide) (by decide) (by decide) (by decide) (by decide) (by decide), rfl, rfl, rfl⟩⟩

/-- `IgnoredAndUndefinedAccesses`: a wrong width, a misaligned offset and the first offset beyond the window. -/
theorem witness_IgnoredAndUndefinedAccesses :
    ∀ a ∈ [(2, 0x08), (4, 0x02), (4, 0x40)], (a.1 ≠ 4 ∨ a.2 % 4 ≠ 0 ∨ 0x40 ≤ a.2) := by decide

/-- `TableDataWrite`: the first and last index of each STAGING table, the ACTIVE bank, and the first index beyond. -/
theorem witness_TableDataWrite :
    (∃ c : Symbol, c.toNat = (0xFFFFFFFF#32).toNat % 2 ^ 21)
    ∧ (∀ k ∈ [0, 2047], ∃ s : State, s.tblBank = false ∧ s.tblIndex.toNat < 2048 ∧ s.tblIndex.toNat = k)
    ∧ (∀ k ∈ [2048, 2055], ∃ s : State, s.tblBank = false ∧ 2048 ≤ s.tblIndex.toNat ∧ s.tblIndex.toNat < 2056
      ∧ s.tblIndex.toNat = k)
    ∧ (∃ s : State, s.tblBank = true) ∧ ∃ s : State, 2056 ≤ s.tblIndex.toNat ∧ s.tblIndex = 2056 := by
  refine ⟨⟨0x1FFFFF, by decide⟩, fun k hk => ⟨{ base with tblIndex := BitVec.ofNat 12 k }, rfl, ?_⟩,
    fun k hk => ⟨{ base with tblIndex := BitVec.ofNat 12 k }, rfl, ?_⟩, ⟨{ base with tblBank := true }, rfl⟩,
    ⟨{ base with tblIndex := 2056 }, by decide, rfl⟩⟩
  · revert k; decide
  · revert k; decide

/-- `TableDataRead`: the last entry of each table in the ACTIVE bank, staged, and unwritten; and the first index beyond. -/
theorem witness_TableDataRead :
    (∃ (s : State) (v : Fin 2048), s.tblIndex.toNat = v.val ∧ s.tblBank = true)
    ∧ (∃ (s : State) (v : Fin 2048) (c : Symbol), s.tblIndex.toNat = v.val ∧ s.tblBank = false ∧ s.stgP.get v = some c)
    ∧ (∃ (s : State) (v : Fin 2048), s.tblIndex.toNat = v.val ∧ s.tblBank = false ∧ s.stgP.get v = none)
    ∧ (∃ (s : State) (v : Fin 8), s.tblIndex.toNat = 2048 + v.val ∧ s.tblBank = true)
    ∧ (∃ (s : State) (v : Fin 8) (c : Symbol), s.tblIndex.toNat = 2048 + v.val ∧ s.tblBank = false
      ∧ s.stgT.get v = some c)
    ∧ (∃ (s : State) (v : Fin 8), s.tblIndex.toNat = 2048 + v.val ∧ s.tblBank = false ∧ s.stgT.get v = none)
    ∧ ∃ s : State, 2056 ≤ s.tblIndex.toNat ∧ s.tblIndex = 2056 :=
  ⟨⟨{ base with tblIndex := 2047, tblBank := true }, 2047, by decide, rfl⟩,
    ⟨{ staged with tblIndex := 2047 }, 2047, 0x3BFF, by decide, rfl, by decide +kernel⟩,
    ⟨{ base with tblIndex := 2047 }, 2047, by decide, rfl, by decide +kernel⟩,
    ⟨{ base with tblIndex := 2055, tblBank := true }, 7, by decide, rfl⟩,
    ⟨{ staged with tblIndex := 2055 }, 7, 0x37, by decide, rfl, by decide +kernel⟩,
    ⟨{ base with tblIndex := 2055 }, 7, by decide, rfl, by decide +kernel⟩,
    ⟨{ base with tblIndex := 2056 }, by decide, rfl⟩⟩

/-- `ByteMemoryPort`: the last element and the largest value, one beyond each, BUSY, a written and an unwritten element. -/
theorem witness_ByteMemoryPort :
    (∃ s : State, 0xFFFF < 2 ^ s.cfg.addrW ∧ 0xFF < 2 ^ 8 ∧ s.busy = false)
    ∧ (∃ s : State, 2 ^ s.cfg.addrW ≤ 0x10000) ∧ 2 ^ 8 ≤ 0x100
    ∧ (∃ s : State, 0xFFFF < 2 ^ s.cfg.addrW ∧ 0xFF < 2 ^ 8 ∧ s.busy = true)
    ∧ (∃ (s : State) (x : Byte), 0x10 < 2 ^ s.cfg.addrW ∧ s.busy = false ∧ Memory.read s.byteMem 0x10 = some x)
    ∧ ∃ s : State, 0x9999 < 2 ^ s.cfg.addrW ∧ s.busy = false ∧ Memory.read s.byteMem 0x9999 = none :=
  ⟨⟨base, by decide, by decide, rfl⟩, ⟨base, by decide⟩, by decide,
    ⟨encState [0x66] [] 0 0 0 0, by decide, by decide, rfl⟩,
    ⟨{ base with byteMem := [(0x10, 0x66)] }, 0x66, by decide, rfl, by decide⟩, ⟨base, by decide, rfl, by decide⟩⟩

/-- `SymbolMemoryPort`, the same. -/
theorem witness_SymbolMemoryPort :
    (∃ s : State, 0xFFFF < 2 ^ s.cfg.addrW ∧ 0x1FFFFF < 2 ^ 21 ∧ s.busy = false)
    ∧ (∃ s : State, 2 ^ s.cfg.addrW ≤ 0x10000) ∧ 2 ^ 21 ≤ 0x200000
    ∧ (∃ s : State, 0xFFFF < 2 ^ s.cfg.addrW ∧ 0x1FFFFF < 2 ^ 21 ∧ s.busy = true)
    ∧ (∃ (s : State) (x : Symbol), 0x10 < 2 ^ s.cfg.addrW ∧ s.busy = false ∧ Memory.read s.symMem 0x10 = some x)
    ∧ ∃ s : State, 0x9999 < 2 ^ s.cfg.addrW ∧ s.busy = false ∧ Memory.read s.symMem 0x9999 = none :=
  ⟨⟨base, by decide, by decide, rfl⟩, ⟨base, by decide⟩, by decide,
    ⟨encState [0x66] [] 0 0 0 0, by decide, by decide, rfl⟩,
    ⟨{ base with symMem := [(0x10, 0x3733)] }, 0x3733, by decide, rfl, by decide⟩, ⟨base, by decide, rfl, by decide⟩⟩

/-- `WaitReadsStatusUntilNotBusy`: BUSY and not BUSY. -/
theorem witness_WaitReadsStatusUntilNotBusy : (∃ s : State, s.busy = true) ∧ ∃ s : State, s.busy = false :=
  ⟨⟨encState [0x66] [] 0 0 0 0, rfl⟩, ⟨base, rfl⟩⟩

end Sys2Proof.Tests
end

/-! PROOFS. What a step can do, as one relation for the accepting step of a command and one for a host operation; what
an engine step leaves alone; and from these the statements about who changes the tables and clears VIOL. -/

namespace Sys2Proof.Machine

/-! ## Command words and register offsets -/

/-- The opcode map sends only a command's own opcode to it (R92). -/
theorem eq_opOf_of_instrOfOp {op : BitVec 4} {i : Instr} (h : instrOfOp op = some i) : op = opOf i := by
  unfold instrOfOp at h
  split_ifs at h with h1 h2 h3 h4 h5 h6 h7 <;> cases h <;> assumption

/-- A command word is its RSV field above its OP field (R91). -/
theorem rsvField_append_opField (w : Word) : rsvField w ++ opField w = w :=
  (BitVec.extractLsb'_append_extractLsb'_eq_extractLsb' rfl).trans BitVec.extractLsb'_eq_self

/-- Only the encoding of a command decodes to it (R95). -/
theorem eq_encode_of_decodeCmd {w : Word} {i : Instr} (h : decodeCmd w = .legal i) : w = encode i := by
  unfold decodeCmd at h
  split at h
  · next hrsv =>
    split at h
    · next j hop =>
      cases h
      rw [← rsvField_append_opField w, hrsv, eq_opOf_of_instrOfOp hop]
      rfl
    · cases h
  · cases h

/-- Each word of the window but the reserved ones stands at its register's own offset (R22). -/
theorem registerMap_offset : ∀ k : Fin 16, registerMap[k] ≠ .reserved → registerMap[k].offset = 4 * k.val := by decide

/-- A register but the reserved words is reached only by a 32-bit access at its own offset (R22, R67). -/
theorem offset_of_registerAt {size off : Nat} {r : Reg} (h : registerAt size off = some r) (hr : r ≠ .reserved) :
    size = 4 ∧ off = r.offset := by
  unfold registerAt at h
  split at h
  · next hok =>
    simp only [registerAccessOk, Bool.and_eq_true, beq_iff_eq, decide_eq_true_eq] at hok
    obtain ⟨⟨hsize, halign⟩, hoff⟩ := hok
    obtain ⟨hlt, hget⟩ := List.getElem?_eq_some_iff.1 h
    have hk : off / 4 < 16 := by omega
    have := registerMap_offset ⟨off / 4, hk⟩
    simp only [Fin.getElem_fin, hget] at this
    have := this hr
    exact ⟨hsize, by omega⟩
  · cases h

/-! ## What a command can come to at acceptance -/

/-- `Accepted s i t`: the accepting step of command `i` may lead from `s` to `t` (R123): an Error (R263), or the
command's own end or start. -/
inductive Accepted (s : State) : Instr → State → Prop
  | error {i : Instr} {code : ErrCode} (hnone : code ≠ .none) (hcorrupt : code ≠ .corrupt) :
      Accepted s i (raiseError code 0 (accept s))
  | enclen (r : Word) : Accepted s .enclen (finish r (accept s))
  | declen (r : Word) : Accepted s .declen (finish r (accept s))
  | build {p : Table Symbol 2048} {q : Table Symbol 8} (hp : Clean p) (hq : Clean q) :
      Accepted s .build (finish 0 (installTables p q (accept s)))
  | loaddef : Accepted s .loaddef (finish 0 (installTables s.cfg.defaultP s.cfg.defaultT (accept s)))
  | clear : Accepted s .clear { accept s with engine := .idle, viol := false }
  | encode (hrange : operandsOutOfRange s = false) (hroom : encodedLen s.srcLen.toNat ≤ s.dstCap.toNat) :
      Accepted s .encode (startEngine (initEncoder (latch opEncode (accept s))))
  | decode {src : List Symbol} (hrange : operandsOutOfRange s = false)
      (hroom : decodedLen s.srcLen.toNat ≤ s.dstCap.toNat)
      (hsrc : Memory.readRun s.symMem s.srcBase.toNat s.srcLen.toNat = some src) :
      Accepted s .decode (startEngine (initDecoder (setLast src (latch opDecode (accept s)))))

/-- A BUILD that answers a next state. -/
theorem accepted_of_execBuild {s t : State} (h : execBuild s = .next t) : Accepted s .build t := by
  obtain ⟨code, rfl, hcode⟩ | ⟨p, q, -, -, hp, hq, rfl⟩ := execBuild_cases h
  · refine .error ?_ ?_ <;> rintro rfl <;> simp at hcode
  · exact .build (hasWs_eq_false.1 hp) (hasWs_eq_false.1 hq)

/-- Every accepting step that answers a next state is one of the cases of `Accepted`. -/
theorem accepted_of_exec {i : Instr} {s t : State} (h : exec i s = .next t) : Accepted s i t := by
  cases i with
  | enclen => cases h; exact .enclen _
  | declen =>
    change execDeclen s = .next t at h
    obtain hd | ⟨-, hd⟩ := execDeclen_cases s
    · rw [hd] at h; cases h; exact .error (by decide) (by decide)
    · rw [hd] at h; cases h; exact .declen _
  | encode =>
    change execEncode s = .next t at h
    obtain he | he | ⟨hrange, hroom, he⟩ := execEncode_cases s
    · rw [he] at h; cases h; exact .error (by decide) (by decide)
    · rw [he] at h; cases h; exact .error (by decide) (by decide)
    · rw [he] at h; cases h; exact .encode hrange hroom
  | decode =>
    obtain rfl | rfl | ⟨hrange, hroom, src, hsrc, rfl⟩ := execDecode_cases h
    · exact .error (by decide) (by decide)
    · exact .error (by decide) (by decide)
    · exact .decode hrange hroom hsrc
  | build => exact accepted_of_execBuild h
  | loaddef => cases h; exact .loaddef
  | clear => cases h; exact .clear

/-! ## What a host operation can do -/

/-- `HostEffect s op t`: the host operation `op` may lead from `s` to `t`. `hostSide` covers the reads and WAIT. -/
inductive HostEffect (s : State) : HostOp → State → Prop
  | violation (op : HostOp) : HostEffect s op (setViol s)
  | operands (op : HostOp) (srcBase srcLen dstBase dstCap plen tlen : Word) (tblIndex : BitVec 12) (tblBank : Bool) :
      HostEffect s op
        { s with
          srcBase := srcBase, srcLen := srcLen, dstBase := dstBase, dstCap := dstCap, plen := plen, tlen := tlen
          tblIndex := tblIndex, tblBank := tblBank }
  | stage (w : Word) (p : Table (Option Symbol) 2048) (q : Table (Option Symbol) 8) (hbank : s.tblBank = false) :
      HostEffect s (.wr 4 0x24 w) { s with stgP := p, stgT := q }
  | command {i : Instr} {t : State} (hbusy : s.busy = false) (ha : Accepted s i t) :
      HostEffect s (.wr 4 0x00 (Sys2Proof.encode i)) t
  | illegal (w : Word) (hbusy : s.busy = false) : HostEffect s (.wr 4 0x00 w) (raiseError .illegal 0 (accept s))
  | hostSide (op : HostOp) (ops : List HostOp) (replies : List Word) :
      HostEffect s op { s with ops := ops, replies := replies }
  | byte {a : Nat} (v : Nat) (ha : a < s.memSize) (hbusy : s.busy = false) :
      HostEffect s (.sb a v) (storeByte a v s)
  | symbol {a : Nat} (v : Nat) (ha : a < s.memSize) (hbusy : s.busy = false) :
      HostEffect s (.ss a v) (storeSymbol a v s)
  | reset : HostEffect s .reset (resetEvent s)

/-- A write of TBL_DATA only stages an entry, in the STAGING bank, or sets VIOL (R130). -/
theorem hostEffect_writeTblData (w : Word) (s : State) : HostEffect s (.wr 4 0x24 w) (writeTblData w s) := by
  unfold writeTblData
  split
  · exact .violation _
  · next hbank =>
    have hbank : s.tblBank = false := by simpa using hbank
    split
    · exact .stage w _ s.stgT hbank
    · split
      · exact .stage w s.stgP _ hbank
      · exact .violation _

/-- A write of CMD (R120, R122). -/
theorem hostEffect_of_issueCommand {w : Word} {s t : State} (h : issueCommand w s = .next t) :
    HostEffect s (.wr 4 0x00 w) t := by
  obtain ⟨-, rfl⟩ | ⟨hbusy, i, hw, hexec⟩ | ⟨hbusy, -, rfl⟩ := issueCommand_cases h
  · exact .violation _
  · rw [eq_encode_of_decodeCmd hw]
    exact .command hbusy (accepted_of_exec hexec)
  · exact .illegal w hbusy

/-- A register write that answers a next state: CMD, TBL_DATA, or a write of operand registers at most. -/
theorem hostEffect_of_writeReg {size off : Nat} {w : Word} {r : Reg} {s t : State} (hr : registerAt size off = some r)
    (h : writeReg r w s = .next t) : HostEffect s (.wr size off w) t := by
  cases r with
  | cmd =>
    obtain ⟨rfl, rfl⟩ := offset_of_registerAt hr (by decide)
    exact hostEffect_of_issueCommand h
  | tblData =>
    obtain ⟨rfl, rfl⟩ := offset_of_registerAt hr (by decide)
    cases h
    exact hostEffect_writeTblData w s
  | _ => cases h; exact .operands _ _ _ _ _ _ _ _ _

/-- Every host operation that answers a next state is one of the cases of `HostEffect`. -/
theorem hostEffect_of_hostStep {op : HostOp} {s t : State} (h : hostStep op s = .next t) : HostEffect s op t := by
  obtain ⟨size, off, w, r, rfl, hr, hw⟩ | ⟨w, rfl⟩ | ⟨a, v, rfl, ha, -, hbusy, rfl⟩ | ⟨a, v, rfl, ha, -, hbusy, rfl⟩
    | ⟨rfl, rfl⟩ | ⟨rfl, rfl⟩ := hostStep_cases h
  · exact hostEffect_of_writeReg hr hw
  · exact .hostSide op _ _
  · exact .byte v ha hbusy
  · exact .symbol v ha hbusy
  · exact .reset
  · unfold waitStep
    dsimp only
    split <;> exact .hostSide _ _ _

/-! ## What an engine step leaves alone -/

/-- The state with every field that an engine step may write blanked out. -/
def engineKept (s : State) : State :=
  { s with
    engine := .idle, err := .none, result := 0, errPos := 0, idx := 0, out := 0, encStage := 0, encRem := 0
    decAcc := 0, decRem := 0, decRes := 0, byteMem := [], symMem := [] }

/-- An engine step changes none of the other fields. -/
theorem engineKept_of_engineStep {s t : State} (h : engineStep s = .next t) : engineKept t = engineKept s := by
  obtain ⟨-, -, b, -, rfl⟩ | ⟨-, -, rfl⟩ | ⟨-, -, c, -, rfl⟩ | ⟨-, -, rfl⟩ := engineStep_cases h
  · split
    · simp [engineKept, encodeEmit]
    · simp [engineKept, encodeFold]
  · unfold encodeFinal encodeTail
    split_ifs <;> simp [engineKept]
  · split
    · simp [engineKept]
    · obtain ⟨n, bits, hd, -⟩ | hd := decodeSymbol_cases c s
      · simp [hd, engineKept]
      · simp [hd, engineKept, corruptHere]
  · simp [engineKept, decodeFinal]

/-- What an engine step keeps whichever command runs. -/
structure EngineFrame (s t : State) : Prop where
  operands : SameOperands s t
  latches : SameLatches s t
  active : SameActive s t
  staging : SameStaging s t
  hostSide : SameHostSide s t
  last : SameLast s t
  viol : t.viol = s.viol

/-- The frame of an engine step, field by field. -/
theorem engineFrame_of_engineStep {s t : State} (h : engineStep s = .next t) : EngineFrame s t := by
  have hk := engineKept_of_engineStep h
  simp only [engineKept, State.mk.injEq] at hk
  constructor <;> simp [SameOperands, SameLatches, SameActive, SameStaging, SameHostSide, SameLast, hk]

/-- An ENCODE step writes one symbol at L_DST + OUT and counts it, or none; it touches no byte and no decoder
register. -/
theorem encode_engineStep_writes {s t : State} (h : engineStep s = .next t) (hop : s.lOp = opEncode) :
    t.byteMem = s.byteMem ∧ SameDecoder s t
      ∧ ((t.symMem = s.symMem ∧ t.out = s.out)
        ∨ ∃ c, t.symMem = Memory.write s.symMem (dstAddr s) c ∧ t.out = s.out + 1) := by
  obtain ⟨-, -, b, -, rfl⟩ | ⟨-, -, rfl⟩ | ⟨hop', -⟩ | ⟨hop', -⟩ := engineStep_cases h
  · split
    · exact ⟨rfl, ⟨rfl, rfl, rfl⟩, .inr ⟨_, rfl, rfl⟩⟩
    · exact ⟨rfl, ⟨rfl, rfl, rfl⟩, .inl ⟨rfl, rfl⟩⟩
  · unfold encodeFinal encodeTail
    split_ifs
    · exact ⟨rfl, ⟨rfl, rfl, rfl⟩, .inl ⟨rfl, rfl⟩⟩
    · exact ⟨rfl, ⟨rfl, rfl, rfl⟩, .inr ⟨_, rfl, rfl⟩⟩
    · exact ⟨rfl, ⟨rfl, rfl, rfl⟩, .inr ⟨_, rfl, rfl⟩⟩
  · rw [hop] at hop'; cases hop'
  · rw [hop] at hop'; cases hop'

/-- One accumulation cuts off the whole bytes of its bits. -/
@[simp] theorem accBytes_length (n bits : Nat) (s : State) : (accBytes n bits s).length = accBits n s / 8 := by
  simp [accBytes, cutBytes]

/-- A DECODE step writes at most two bytes from L_DST + OUT on and counts them; it touches no symbol and no encoder
register. -/
theorem decode_engineStep_writes {s t : State} (h : engineStep s = .next t) (hop : s.lOp = opDecode) :
    t.symMem = s.symMem ∧ SameEncoder s t
      ∧ ∃ xs, t.byteMem = Memory.writeRun s.byteMem (dstAddr s) xs ∧ t.out = s.out + xs.length ∧ xs.length ≤ 2 := by
  obtain ⟨hop', -⟩ | ⟨hop', -⟩ | ⟨-, -, c, -, rfl⟩ | ⟨-, -, rfl⟩ := engineStep_cases h
  · rw [hop] at hop'; cases hop'
  · rw [hop] at hop'; cases hop'
  · split
    · exact ⟨rfl, ⟨rfl, rfl⟩, [], by simp, rfl, by simp⟩
    · obtain ⟨n, bits, hd, hn, -⟩ | hd := decodeSymbol_cases c s
      · rw [hd]
        refine ⟨by simp, by simp [SameEncoder], accBytes n bits (updateResidue s), by simp [dstAddr], by simp, ?_⟩
        rw [accBytes_length, accBits]
        have := (updateResidue s).decRem.isLt
        omega
      · rw [hd]
        exact ⟨by simp [corruptHere], by simp [corruptHere, SameEncoder], [], by simp [corruptHere],
          by simp [corruptHere], by simp⟩
  · exact ⟨rfl, ⟨rfl, rfl⟩, [], by simp [decodeFinal], rfl, by simp⟩

/-- An engine step that leaves STATE = BUSY has advanced IDX. -/
theorem engineStep_advances {s t : State} (h : engineStep s = .next t) (hidx : s.idx < s.lLen.toNat)
    (hbusy : t.engine = .busy) : t.idx = s.idx + 1 := by
  obtain ⟨-, -, b, -, rfl⟩ | ⟨-, heq, -⟩ | ⟨-, -, c, -, rfl⟩ | ⟨-, heq, -⟩ := engineStep_cases h
  · split <;> rfl
  · omega
  · split
    · rfl
    · next hws =>
      rw [if_neg hws] at hbusy
      obtain ⟨n, bits, hd, -⟩ | hd := decodeSymbol_cases c s
      · rw [hd]; rfl
      · rw [hd] at hbusy; cases hbusy
  · omega

/-- Settles O38: the kept fields by `engineKept_of_engineStep`, the memories by what each command writes. -/
theorem engineStepFrame : Obligations.EngineStepFrame := by
  intro s t h
  obtain ⟨operands, latches, active, staging, hostSide, last, viol⟩ := engineFrame_of_engineStep h
  refine ⟨operands, latches, active, staging, hostSide, last, viol,
    fun hidx _ hbusy => engineStep_advances h hidx hbusy, fun hop => ?_, fun hop => ?_⟩
  · obtain ⟨hbytes, decoder, ⟨hsym, hout⟩ | ⟨c, hsym, hout⟩⟩ := encode_engineStep_writes h hop
    · exact ⟨decoder, by omega, by omega, by simp [hbytes], by simp [hsym], by simp [hsym]⟩
    · refine ⟨decoder, by omega, by omega, by simp [hbytes], fun a ha => ?_, by omega⟩
      rw [hsym, Memory.read_write_other ha]
  · obtain ⟨hsym, encoder, xs, hbytes, hout, hlen⟩ := decode_engineStep_writes h hop
    refine ⟨encoder, by omega, by omega, by simp [hsym], fun a ha => ?_⟩
    rw [hbytes, Memory.read_writeRun_outside (by omega)]

/-! ## Which steps change the tables, and which clear VIOL -/

/-- A command but BUILD and LOADDEF keeps the ACTIVE tables. -/
theorem Accepted.sameActive {i : Instr} {s t : State} (h : Accepted s i t) (hb : i ≠ .build) (hl : i ≠ .loaddef) :
    SameActive s t := by
  cases h with
  | build => exact absurd rfl hb
  | loaddef => exact absurd rfl hl
  | _ => exact ⟨rfl, rfl⟩

/-- No command changes the STAGING tables. -/
theorem Accepted.sameStaging {i : Instr} {s t : State} (h : Accepted s i t) : SameStaging s t := by
  cases h <;> exact ⟨rfl, rfl⟩

/-- A command but CLEAR keeps VIOL. -/
theorem Accepted.viol_eq {i : Instr} {s t : State} (h : Accepted s i t) (hc : i ≠ .clear) : t.viol = s.viol := by
  cases h with
  | clear => exact absurd rfl hc
  | _ => rfl

/-- A host operation that changes the ACTIVE tables is a reset, or issues BUILD or LOADDEF while not BUSY. -/
theorem HostEffect.sameActive_or {op : HostOp} {s t : State} (h : HostEffect s op t) :
    SameActive s t ∨ op = .reset
      ∨ (s.busy = false ∧ (op = .wr 4 0x00 0x00000005 ∨ op = .wr 4 0x00 0x00000006)) := by
  cases h with
  | @command i t hbusy ha =>
    by_cases hb : i = .build
    · subst hb; exact .inr (.inr ⟨hbusy, .inl rfl⟩)
    by_cases hl : i = .loaddef
    · subst hl; exact .inr (.inr ⟨hbusy, .inr rfl⟩)
    · exact .inl (ha.sameActive hb hl)
  | reset => exact .inr (.inl rfl)
  | _ => exact .inl ⟨rfl, rfl⟩

/-- A host operation that changes the STAGING tables is a reset, or writes TBL_DATA with BANK = 0. -/
theorem HostEffect.sameStaging_or {op : HostOp} {s t : State} (h : HostEffect s op t) :
    SameStaging s t ∨ op = .reset ∨ (s.tblBank = false ∧ ∃ w, op = .wr 4 0x24 w) := by
  cases h with
  | command hbusy ha => exact .inl ha.sameStaging
  | stage w p q hbank => exact .inr (.inr ⟨hbank, w, rfl⟩)
  | reset => exact .inr (.inl rfl)
  | _ => exact .inl ⟨rfl, rfl⟩

/-- A host operation that clears VIOL is a reset, or issues CLEAR while not BUSY. -/
theorem HostEffect.viol_or {op : HostOp} {s t : State} (h : HostEffect s op t) (hv : s.viol = true) :
    t.viol = true ∨ op = .reset ∨ (s.busy = false ∧ op = .wr 4 0x00 0x00000007) := by
  cases h with
  | @command i t hbusy ha =>
    by_cases hc : i = .clear
    · subst hc; exact .inr (.inr ⟨hbusy, rfl⟩)
    · exact .inl ((ha.viol_eq hc).trans hv)
  | violation => exact .inl rfl
  | reset => exact .inr (.inl rfl)
  | _ => exact .inl hv

/-- Settles O14: an engine step keeps the ACTIVE tables, and so does every host operation but those named. -/
theorem activeTablesChangeOnlyByBuildLoaddefReset : Obligations.ActiveTablesChangeOnlyByBuildLoaddefReset := by
  intro s t h hne
  obtain ⟨-, ⟨-, -, rfl⟩ | ⟨-, turns, he⟩ | ⟨op, ops, turns, hops, hh⟩⟩ := step_cases h
  · simp at hne
  · obtain ⟨hp, ht⟩ := (engineFrame_of_engineStep he).active
    exact absurd hne (not_or.2 ⟨not_not.2 hp, not_not.2 ht⟩)
  · refine ⟨op, ops, hops, ?_⟩
    obtain ⟨hp, ht⟩ | hop := (hostEffect_of_hostStep hh).sameActive_or
    · exact absurd hne (not_or.2 ⟨not_not.2 hp, not_not.2 ht⟩)
    · exact hop

/-- Settles O15: an engine step keeps the STAGING tables, and so does every host operation but those named. -/
theorem stagingChangesOnlyByTablePortOrReset : Obligations.StagingChangesOnlyByTablePortOrReset := by
  intro s t h hne
  obtain ⟨-, ⟨-, -, rfl⟩ | ⟨-, turns, he⟩ | ⟨op, ops, turns, hops, hh⟩⟩ := step_cases h
  · simp at hne
  · obtain ⟨hp, ht⟩ := (engineFrame_of_engineStep he).staging
    exact absurd hne (not_or.2 ⟨not_not.2 hp, not_not.2 ht⟩)
  · refine ⟨op, ops, hops, ?_⟩
    obtain ⟨hp, ht⟩ | hop := (hostEffect_of_hostStep hh).sameStaging_or
    · exact absurd hne (not_or.2 ⟨not_not.2 hp, not_not.2 ht⟩)
    · exact hop

/-- Settles O20: an engine step keeps VIOL, and every host operation but those named keeps it set. -/
theorem violIsSticky : Obligations.ViolIsSticky := by
  intro s t h hset hclear
  obtain ⟨-, ⟨-, -, rfl⟩ | ⟨-, turns, he⟩ | ⟨op, ops, turns, hops, hh⟩⟩ := step_cases h
  · simp [hset] at hclear
  · have hv : t.viol = s.viol := (engineFrame_of_engineStep he).viol
    simp [hv, hset] at hclear
  · refine ⟨op, ops, hops, ?_⟩
    obtain hv | hop := (hostEffect_of_hostStep hh).viol_or hset
    · simp [hv] at hclear
    · exact hop

end Sys2Proof.Machine

/-! PROOFS. The invariant: what does not depend on the running command is a predicate of its own, `StoreInv`; the two
commands' bit counts are kept by their element steps; every step then keeps `Inv`, and the power-on state meets it. -/

namespace Sys2Proof.Machine

/-! ## The part of the invariant about the parameters, the tables and the memories -/

/-- The part of `Inv` that speaks of the parameters, the ACTIVE tables and the two memories only. -/
structure StoreInv (s : State) : Prop where
  addrW_pos : 1 ≤ s.cfg.addrW
  addrW_le : s.cfg.addrW ≤ 28
  defaultP_clean : Clean s.cfg.defaultP
  defaultT_clean : Clean s.cfg.defaultT
  actP_clean : Clean s.actP
  actT_clean : Clean s.actT
  byteMem_wf : Memory.wf s.byteMem
  byteMem_in : Memory.within s.byteMem s.memSize
  symMem_wf : Memory.wf s.symMem
  symMem_in : Memory.within s.symMem s.memSize

/-- The invariant contains its part about the parameters, the tables and the memories. -/
theorem Inv.storeInv {s : State} (h : Inv s) : StoreInv s := { h with }

/-- Acceptance touches nothing `StoreInv` speaks of. -/
theorem StoreInv.after_accept {s : State} (h : StoreInv s) : StoreInv (accept s) := { h with }

/-- The install of two clean tables. -/
theorem StoreInv.after_install {s : State} {p : Table Symbol 2048} {q : Table Symbol 8} (h : StoreInv s) (hp : Clean p)
    (hq : Clean q) : StoreInv (installTables p q s) :=
  { h with actP_clean := hp, actT_clean := hq }

/-- One symbol written inside SYM_MEM at L_DST + OUT. -/
theorem StoreInv.after_emit {s : State} (h : StoreInv s) (ha : dstAddr s < s.memSize) (c : Symbol) :
    StoreInv (emitSymbol c s) :=
  { h with symMem_wf := Memory.wf_write h.symMem_wf _ _, symMem_in := Memory.within_write h.symMem_in ha _ }

/-- The residue counter is nothing `StoreInv` speaks of. -/
theorem StoreInv.after_residue {s : State} (h : StoreInv s) : StoreInv (updateResidue s) := { h with }

/-- The bytes of one accumulation written inside BYTE_MEM from L_DST + OUT on. -/
theorem StoreInv.after_accumulate {s : State} {n bits : Nat} (h : StoreInv s)
    (ha : dstAddr s + (accBytes n bits s).length ≤ s.memSize) : StoreInv (accumulate n bits s) :=
  { h with
    byteMem_wf := Memory.wf_writeRun h.byteMem_wf _
    byteMem_in := Memory.within_writeRun h.byteMem_in ha }

/-- A core with ADDR_W in range and clean default tables starts in a state that meets the invariant (R141, R290). -/
theorem inv_powerOn {c : Config} (hpos : 1 ≤ c.addrW) (hle : c.addrW ≤ 28) (hp : Clean c.defaultP)
    (hq : Clean c.defaultT) : Inv (State.powerOn c) where
  addrW_pos := hpos
  addrW_le := hle
  defaultP_clean := hp
  defaultT_clean := hq
  actP_clean := hp
  actT_clean := hq
  byteMem_wf := List.Pairwise.nil
  byteMem_in := by simp [State.powerOn]
  symMem_wf := List.Pairwise.nil
  symMem_in := by simp [State.powerOn]
  error_code := by simp [State.powerOn]
  corrupt_pos := by simp [State.powerOn]
  idle_zero := by simp [State.powerOn]
  running := by simp [State.powerOn]

/-! ## The ways a command ends -/

/-- A command that ends with an error leaves the invariant: only CORRUPT may report a position (R263). -/
theorem StoreInv.inv_raiseError {s : State} {code : ErrCode} {pos : Word} (h : StoreInv s) (hcode : code ≠ .none)
    (hpos : pos ≠ 0 → code = .corrupt) : Inv (raiseError code pos s) :=
  { h with
    error_code := by simp [hcode]
    corrupt_pos := hpos
    idle_zero := by simp
    running := by simp }

/-- A command that ends without error leaves the invariant. -/
theorem StoreInv.inv_finish {s : State} (h : StoreInv s) (herr : s.err = .none) (hpos : s.errPos = 0) (r : Word) :
    Inv (finish r s) :=
  { h with
    error_code := by simp [herr]
    corrupt_pos := by simp [hpos]
    idle_zero := by simp
    running := by simp }

/-- CLEAR leaves the invariant. -/
theorem StoreInv.inv_clear {s : State} (h : StoreInv s) :
    Inv { accept s with engine := .idle, viol := false } :=
  { h with
    error_code := by simp
    corrupt_pos := by simp
    idle_zero := by simp
    running := by simp }

/-! ## ENCODE -/

/-- The invariant of the encoder at its start (R171). -/
theorem encodeInv_initEncoder {s : State} (hroom : encodedLen s.lLen.toNat ≤ s.lCap.toNat) :
    EncodeInv (initEncoder s) where
  room := hroom
  rem_le := by simp
  stage_lt := by simp
  bits := by simp

/-- While source bits are not yet written out, the capacity check of R170 leaves room for a symbol. -/
theorem EncodeInv.out_lt_cap {s : State} (h : EncodeInv s) (hout : 11 * s.out < 8 * s.lLen.toNat) :
    s.out < s.lCap.toNat := by
  have := h.room
  unfold encodedLen at this
  omega

/-- What is kept under `mask n` fits `n` bits (R12). -/
theorem and_mask_lt (x n : Nat) : x &&& mask n < 2 ^ n := by
  rw [mask, Nat.and_two_pow_sub_one_eq_mod]
  exact Nat.mod_lt _ (Nat.two_pow_pos n)

/-- A byte that completes a group keeps the encoder's bit counts (R172, R176, R177). -/
theorem EncodeInv.after_emit {s : State} (h : EncodeInv s) (b : Byte) (hneed : encodeNeed s ≤ 8) :
    EncodeInv (encodeEmit b s) := by
  obtain ⟨hroom, hrem, hstage, hbits⟩ := h
  have hkeep : 8 - encodeNeed s + 3 = s.encRem.toNat := by unfold encodeNeed at *; omega
  have hrem' : (encodeEmit b s).encRem.toNat = 8 - encodeNeed s := by
    simp only [encodeEmit, advance_encRem, setStage_encRem, BitVec.toNat_ofNat]
    omega
  refine ⟨hroom, by omega, ?_, ?_⟩
  · rw [hrem']
    exact (Nat.mod_le _ _).trans_lt (and_mask_lt _ _)
  · rw [hrem']
    simp only [encodeEmit, advance_idx, advance_out, setStage_idx, setStage_out, emitSymbol_idx, emitSymbol_out]
    omega

/-- A byte folded in keeps the encoder's bit counts (R173, R176, R177). -/
theorem EncodeInv.after_fold {s : State} (h : EncodeInv s) (b : Byte) (hneed : ¬ encodeNeed s ≤ 8) :
    EncodeInv (encodeFold b s) := by
  obtain ⟨hroom, hrem, hstage, hbits⟩ := h
  have hsmall : s.encRem.toNat ≤ 2 := by unfold encodeNeed at hneed; omega
  have hrem' : (encodeFold b s).encRem.toNat = s.encRem.toNat + 8 := by
    simp only [encodeFold, advance_encRem, setStage_encRem, BitVec.toNat_ofNat]
    omega
  refine ⟨hroom, by omega, ?_, ?_⟩
  · rw [hrem']
    have hshift : s.encStage.toNat <<< 8 < 2 ^ (s.encRem.toNat + 8) := by
      rw [Nat.shiftLeft_eq, Nat.pow_add]
      exact Nat.mul_lt_mul_of_pos_right hstage (by decide)
    have hbyte : b.toNat < 2 ^ (s.encRem.toNat + 8) :=
      b.isLt.trans_le (Nat.pow_le_pow_right (by decide) (by omega))
    exact (Nat.mod_le _ _).trans_lt (Nat.or_lt_two_pow hshift hbyte)
  · rw [hrem']
    simp only [encodeFold, advance_idx, advance_out, setStage_idx, setStage_out]
    omega

/-! ## DECODE -/

/-- The invariant of the decoder at its start (R201, R202). -/
theorem decodeInv_initDecoder {s : State} {src : List Symbol} (hroom : decodedLen s.lLen.toNat ≤ s.lCap.toNat)
    (hsrc : Memory.readRun s.symMem s.lSrc.toNat s.lLen.toNat = some src) :
    DecodeInv (initDecoder (setLast src s)) where
  room := hroom
  acc_lt := by simp
  bits := by simp
  source := ⟨src, hsrc, by cases h : lastNonWs src <;> simp [h], by simp [nonWsCount]⟩

/-- The capacity check of R200 bounds OUT (R214). -/
theorem DecodeInv.out_le_cap {s : State} (h : DecodeInv s) (hidx : s.idx ≤ s.lLen.toNat) : s.out ≤ s.lCap.toNat := by
  have hroom := h.room
  have hbits := h.bits
  unfold decodedLen at hroom
  omega

/-- One more symbol adds 1 to the count of non-whitespace symbols, or 0 when it is whitespace. -/
theorem nonWsCount_take_succ {src : List Symbol} {i : Nat} {c : Symbol} (h : src[i]? = some c) :
    nonWsCount (src.take (i + 1)) = nonWsCount (src.take i) + if isWs c then 0 else 1 := by
  unfold nonWsCount
  rw [List.take_add_one, h, List.filter_append, List.length_append]
  cases hws : isWs c <;> simp [hws]

/-- The symbol a step reads is the source's symbol at IDX (R69). -/
theorem getElem?_idx_of_read {s : State} {src : List Symbol} {c : Symbol}
    (hsrc : Memory.readRun s.symMem s.lSrc.toNat s.lLen.toNat = some src) (hidx : s.idx < s.lLen.toNat)
    (hc : Memory.read s.symMem (srcAddr s) = some c) : src[s.idx]? = some c := by
  obtain ⟨hlen, hread⟩ := Memory.readRun_eq_some.1 hsrc
  have hlt : s.idx < src.length := by omega
  rw [List.getElem?_eq_getElem hlt, ← hread s.idx hlt]
  exact hc

/-- A whitespace symbol is skipped and keeps the decoder's bit counts (R203). -/
theorem DecodeInv.after_skip {s : State} {c : Symbol} (h : DecodeInv s) (hidx : s.idx < s.lLen.toNat)
    (hc : Memory.read s.symMem (srcAddr s) = some c) (hws : isWs c = true) : DecodeInv (advance s) := by
  obtain ⟨hroom, hacc, hbits, src, hsrc, hlast, hres⟩ := h
  refine ⟨hroom, hacc, ?_, src, hsrc, hlast, ?_⟩
  · simp only [advance_out, advance_decRem, advance_idx]
    omega
  · rw [advance_idx, nonWsCount_take_succ (getElem?_idx_of_read hsrc hidx hc), if_pos hws]
    exact hres

/-- An accumulation of at most 11 bits keeps the decoder's bit counts (R204, R208, R214, R215). -/
theorem DecodeInv.after_accumulate {s : State} {c : Symbol} {n : Nat} (h : DecodeInv s) (hidx : s.idx < s.lLen.toNat)
    (hc : Memory.read s.symMem (srcAddr s) = some c) (hws : isWs c = false) (hn : n ≤ 11) (bits : Nat) :
    DecodeInv (advance (accumulate n bits (updateResidue s))) := by
  obtain ⟨hroom, hacc, hbits, src, hsrc, hlast, hres⟩ := h
  have hrem : (advance (accumulate n bits (updateResidue s))).decRem.toNat
      = accBits n (updateResidue s) % 8 := by
    simp only [advance_decRem, accumulate_decRem, BitVec.toNat_ofNat]
    omega
  refine ⟨by simpa using hroom, ?_, ?_, src, by simpa using hsrc, ?_, ?_⟩
  · rw [hrem]
    exact (Nat.mod_le _ _).trans_lt (and_mask_lt _ _)
  · rw [hrem]
    simp only [advance_out, advance_idx, accumulate_out, accumulate_idx, updateResidue_out, updateResidue_idx, accBits,
      updateResidue_decRem]
    omega
  · cases hl : s.decHasLast <;> simpa [hl] using hlast
  · simp only [advance_decRes, advance_idx, accumulate_decRes, accumulate_idx, updateResidue_decRes, updateResidue_idx,
      BitVec.toNat_ofNat, nonWsCount_take_succ (getElem?_idx_of_read hsrc hidx hc), hws]
    simp only [Bool.false_eq_true, if_false]
    omega

/-! ## The invariant and the host's fields -/

/-- The state with every field that `Inv` does not speak of blanked out. -/
def invPart (s : State) : State :=
  { s with
    ops := [], turns := [], replies := [], faulted := [], viol := false
    srcBase := 0, srcLen := 0, dstBase := 0, dstCap := 0, tblIndex := 0, tblBank := false, plen := 0, tlen := 0
    stgP := Table.fill 2048 none, stgT := Table.fill 8 none }

/-- The invariant speaks of `invPart` only. -/
theorem inv_invPart {s : State} : Inv (invPart s) ↔ Inv s := by
  refine ⟨fun h => ?_, fun h => ?_⟩ <;>
    exact { h with running := fun hb =>
      let hr := h.running hb
      { hr with encode := fun ho => { hr.encode ho with }, decode := fun ho => { hr.decode ho with } } }

/-- A step that changes only fields `Inv` does not speak of keeps it. -/
theorem Inv.congr {s t : State} (h : Inv s) (heq : invPart t = invPart s) : Inv t := by
  rw [← inv_invPart, heq, inv_invPart]
  exact h

/-! ## The host's steps -/

/-- The range check at acceptance, as bounds on the two ranges (R170, R200). -/
theorem operandsOutOfRange_eq_false {s : State} (h : operandsOutOfRange s = false) :
    s.srcBase.toNat + s.srcLen.toNat ≤ s.memSize ∧ s.dstBase.toNat + s.dstCap.toNat ≤ s.memSize := by
  simpa [operandsOutOfRange] using h

/-- Acceptance of a command keeps the invariant. -/
theorem Accepted.inv {i : Instr} {s t : State} (ha : Accepted s i t) (h : Inv s) : Inv t := by
  have hstore : StoreInv (accept s) := h.storeInv.after_accept
  cases ha with
  | error hnone hcorrupt => exact hstore.inv_raiseError hnone (absurd rfl)
  | enclen | declen => exact hstore.inv_finish rfl rfl _
  | build hp hq => exact (hstore.after_install hp hq).inv_finish rfl rfl _
  | loaddef => exact (hstore.after_install h.defaultP_clean h.defaultT_clean).inv_finish rfl rfl _
  | clear => exact h.storeInv.inv_clear
  | encode hrange hroom =>
    obtain ⟨hsource, hdest⟩ := operandsOutOfRange_eq_false hrange
    have hrun : RunningInv (startEngine (initEncoder (latch opEncode (accept s)))) :=
      { op := .inl rfl, source_in := hsource, dest_in := hdest, idx_le := Nat.zero_le _, result_zero := rfl
        errPos_zero := rfl, encode := fun _ => { encodeInv_initEncoder hroom with }, decode := fun ho => by cases ho }
    exact { hstore with error_code := by simp, corrupt_pos := by simp, idle_zero := by simp, running := fun _ => hrun }
  | @decode src hrange hroom hsrc =>
    obtain ⟨hsource, hdest⟩ := operandsOutOfRange_eq_false hrange
    have hrun : RunningInv (startEngine (initDecoder (setLast src (latch opDecode (accept s))))) :=
      { op := .inr rfl, source_in := hsource, dest_in := hdest, idx_le := Nat.zero_le _, result_zero := rfl
        errPos_zero := rfl, encode := fun ho => by cases ho
        decode := fun _ => { decodeInv_initDecoder hroom hsrc with } }
    exact { hstore with error_code := by simp, corrupt_pos := by simp, idle_zero := by simp, running := fun _ => hrun }

/-- A host operation keeps the invariant. -/
theorem HostEffect.inv {op : HostOp} {s t : State} (he : HostEffect s op t) (h : Inv s) : Inv t := by
  have idle : s.busy = false → s.engine ≠ .busy := fun hb hbusy => by simp [State.busy, hbusy] at hb
  cases he with
  | violation | operands | stage | hostSide => exact h.congr rfl
  | command _ ha => exact ha.inv h
  | illegal => exact h.storeInv.after_accept.inv_raiseError (by decide) (absurd rfl)
  | byte v ha hbusy =>
    exact { h with
      byteMem_wf := Memory.wf_write h.byteMem_wf _ _
      byteMem_in := Memory.within_write h.byteMem_in ha _
      running := fun hb => absurd hb (idle hbusy) }
  | symbol v ha hbusy =>
    exact { h with
      symMem_wf := Memory.wf_write h.symMem_wf _ _
      symMem_in := Memory.within_write h.symMem_in ha _
      running := fun hb => absurd hb (idle hbusy) }
  | reset => exact (inv_powerOn h.addrW_pos h.addrW_le h.defaultP_clean h.defaultT_clean).congr rfl

/-! ## The engine's steps -/

section
variable {s : State} (h : Inv s) (hbusy : s.engine = .busy)
include h hbusy

/-- While BUSY no error stands (R27). -/
theorem Inv.err_of_busy : s.err = .none := by
  by_contra hne
  have := h.error_code.2 hne
  rw [hbusy] at this
  cases this

/-- An element step that leaves STATE, ERR, RESULT and ERR_POS keeps the invariant as soon as it keeps the memories in
range and the bit counts of the running command. -/
theorem Inv.goes_on {t : State} (he : engineStep s = .next t) (hidx : s.idx < s.lLen.toNat)
    (hstatus : t.engine = s.engine ∧ t.err = s.err ∧ t.result = s.result ∧ t.errPos = s.errPos) (hstore : StoreInv t)
    (hencode : s.lOp = opEncode → EncodeInv t) (hdecode : s.lOp = opDecode → DecodeInv t) : Inv t := by
  have hrun := h.running hbusy
  have hnoerr := h.err_of_busy hbusy
  obtain ⟨-, ⟨hop, hsrc, hlen, hdst, hcap⟩, -, -, ⟨hcfg, -⟩, -, -⟩ := engineFrame_of_engineStep he
  obtain ⟨hengine, herr, hresult, hpos⟩ := hstatus
  have hnext := engineStep_advances he hidx (hengine.trans hbusy)
  have hrun' : RunningInv t :=
    { op := by rw [hop]; exact hrun.op
      source_in := by rw [hsrc, hlen, State.memSize, hcfg]; exact hrun.source_in
      dest_in := by rw [hdst, hcap, State.memSize, hcfg]; exact hrun.dest_in
      idx_le := by rw [hnext, hlen]; exact hidx
      result_zero := hresult.trans hrun.result_zero
      errPos_zero := hpos.trans hrun.errPos_zero
      encode := fun ho => hencode (hop.symm.trans ho)
      decode := fun ho => hdecode (hop.symm.trans ho) }
  exact { hstore with
    error_code := by simp [hengine, hbusy, herr, hnoerr]
    corrupt_pos := by simp [hpos, hrun.errPos_zero]
    idle_zero := by simp [hengine, hbusy]
    running := fun _ => hrun' }

/-- A byte step of ENCODE keeps the invariant. -/
theorem Inv.after_byte {t : State} (he : engineStep s = .next t) (hop : s.lOp = opEncode) (hidx : s.idx < s.lLen.toNat)
    {b : Byte} (ht : t = if encodeNeed s ≤ 8 then encodeEmit b s else encodeFold b s) : Inv t := by
  have hrun := h.running hbusy
  have hencode := hrun.encode hop
  have hne : s.lOp ≠ opDecode := by rw [hop]; decide
  split at ht
  · next hneed =>
    subst ht
    have hroom : s.out < s.lCap.toNat := hencode.out_lt_cap (by have := hencode.bits; omega)
    have haddr : dstAddr s < s.memSize := (Nat.add_lt_add_left hroom _).trans_le hrun.dest_in
    have hstore : StoreInv (encodeEmit b s) := { h.storeInv.after_emit haddr (symbolP s (encodeIndex b s)) with }
    exact h.goes_on hbusy he hidx ⟨rfl, rfl, rfl, rfl⟩ hstore (fun _ => hencode.after_emit b hneed) (absurd · hne)
  · next hneed =>
    subst ht
    have hstore : StoreInv (encodeFold b s) := { h.storeInv with }
    exact h.goes_on hbusy he hidx ⟨rfl, rfl, rfl, rfl⟩ hstore (fun _ => hencode.after_fold b hneed) (absurd · hne)

/-- The final step of ENCODE keeps the invariant. -/
theorem Inv.after_encodeFinal (hop : s.lOp = opEncode) (hidx : s.idx = s.lLen.toNat) : Inv (encodeFinal s) := by
  have hrun := h.running hbusy
  have hencode := hrun.encode hop
  have herr := h.err_of_busy hbusy
  have haddr (hrem : s.encRem.toNat ≠ 0) : dstAddr s < s.memSize :=
    (Nat.add_lt_add_left (hencode.out_lt_cap (by have := hencode.bits; omega)) _).trans_le hrun.dest_in
  unfold encodeFinal encodeTail
  split_ifs with hrem
  · exact h.storeInv.inv_finish herr hrun.errPos_zero _
  · exact (h.storeInv.after_emit (haddr hrem) _).inv_finish herr hrun.errPos_zero _
  · exact (h.storeInv.after_emit (haddr hrem) _).inv_finish herr hrun.errPos_zero _

/-- A symbol that is accumulated keeps the invariant: the bit counts after the step bound the bytes it writes. -/
theorem Inv.after_accumulate {c : Symbol} {n bits : Nat} (hop : s.lOp = opDecode) (hidx : s.idx < s.lLen.toNat)
    (hc : Memory.read s.symMem (srcAddr s) = some c) (hws : isWs c = false) (hn : n ≤ 11)
    (he : engineStep s = .next (advance (accumulate n bits (updateResidue s)))) :
    Inv (advance (accumulate n bits (updateResidue s))) := by
  have hrun := h.running hbusy
  have hne : s.lOp ≠ opEncode := by rw [hop]; decide
  have hdecode := (hrun.decode hop).after_accumulate hidx hc hws hn bits
  have hroom : s.out + (accBytes n bits (updateResidue s)).length ≤ s.lCap.toNat := by
    simpa using hdecode.out_le_cap (by simpa using hidx)
  have hdest : dstAddr (updateResidue s) + (accBytes n bits (updateResidue s)).length ≤ s.memSize := by
    have := hrun.dest_in
    simp only [dstAddr, updateResidue_lDst, updateResidue_out]
    omega
  have hstore := h.storeInv.after_residue.after_accumulate hdest
  exact h.goes_on hbusy he hidx (by simp) { hstore with } (absurd · hne) fun _ => hdecode

/-- A symbol step of DECODE keeps the invariant. -/
theorem Inv.after_symbol {t : State} (he : engineStep s = .next t) (hop : s.lOp = opDecode)
    (hidx : s.idx < s.lLen.toNat) {c : Symbol} (hc : Memory.read s.symMem (srcAddr s) = some c)
    (ht : t = if isWs c then advance s else decodeSymbol c s) : Inv t := by
  have hne : s.lOp ≠ opEncode := by rw [hop]; decide
  split at ht
  · next hws =>
    subst ht
    exact h.goes_on hbusy he hidx ⟨rfl, rfl, rfl, rfl⟩ { h.storeInv with } (absurd · hne)
      fun _ => ((h.running hbusy).decode hop).after_skip hidx hc hws
  · next hws =>
    obtain ⟨n, bits, hd, hn, -⟩ | hd := decodeSymbol_cases c s
    · obtain rfl := ht.trans hd
      exact h.after_accumulate hbusy hop hidx hc (by simpa using hws) hn he
    · obtain rfl := ht.trans hd
      exact h.storeInv.after_residue.inv_raiseError (by decide) fun _ => rfl

/-- An engine step keeps the invariant. -/
theorem Inv.after_engineStep {t : State} (he : engineStep s = .next t) : Inv t := by
  obtain ⟨hop, hidx, b, -, ht⟩ | ⟨hop, hidx, rfl⟩ | ⟨hop, hidx, c, hc, ht⟩ | ⟨hop, hidx, rfl⟩ := engineStep_cases he
  · exact h.after_byte hbusy he hop hidx ht
  · exact h.after_encodeFinal hbusy hop hidx
  · exact h.after_symbol hbusy he hop hidx hc ht
  · exact h.storeInv.inv_finish (h.err_of_busy hbusy) (h.running hbusy).errPos_zero _

end

/-- Settles O45: nobody goes, the engine goes, or the host does, and each keeps the invariant. -/
theorem stepKeepsInvariant : Obligations.StepKeepsInvariant := by
  intro s t h hs
  obtain ⟨-, ⟨-, -, rfl⟩ | ⟨hbusy, turns, he⟩ | ⟨op, ops, turns, -, hh⟩⟩ := step_cases hs
  · exact h
  · have h' : Inv { s with turns := turns } := h.congr rfl
    exact h'.after_engineStep ((busy_iff s).1 hbusy) he
  · exact (hostEffect_of_hostStep hh).inv (h.congr rfl)

/-! ## The power-on state -/

/-- A 21-bit number but 10 and 13 is a symbol that is not CR or LF (R17). -/
theorem isWs_ofNat {n : Nat} (hn : n < 2 ^ 21) (hlf : n ≠ 10) (hcr : n ≠ 13) : isWs (BitVec.ofNat 21 n) = false := by
  have ne_ofNat {m : Nat} (hm : m < 2 ^ 21) (hne : n ≠ m) : BitVec.ofNat 21 n ≠ BitVec.ofNat 21 m := by
    intro heq
    have := congrArg BitVec.toNat heq
    rw [BitVec.toNat_ofNat, BitVec.toNat_ofNat, Nat.mod_eq_of_lt hn, Nat.mod_eq_of_lt hm] at this
    exact hne this
  simp only [isWs, Bool.or_eq_false_iff, beq_eq_false_iff_ne]
  exact ⟨ne_ofNat (by decide) hcr, ne_ofNat (by decide) hlf⟩

/-- The free values of the default tables are numbered among the symbols that are not CR or LF (R141). -/
theorem isWs_nonWsSymbol (k : Fin Config.nonWsCount) : isWs (Config.nonWsSymbol k) = false := by
  have hk : k.val < 2097150 := k.isLt
  unfold Config.nonWsSymbol
  split_ifs <;> exact isWs_ofNat (by omega) (by omega) (by omega)

/-- A table of symbols that are not CR or LF is clean. -/
theorem clean_ofFn {n : Nat} {f : Nat → Symbol} (h : ∀ v, isWs (f v) = false) : Clean (Table.ofFn n f) := by
  intro c hc
  obtain ⟨v, -, rfl⟩ := List.mem_map.1 hc
  exact h v

/-- Settles O44: the given parameters are well formed, so its power-on state meets the invariant. -/
theorem resetMeetsInvariant : Obligations.ResetMeetsInvariant :=
  inv_powerOn (by decide) (by decide) (clean_ofFn fun _ => isWs_nonWsSymbol _) (clean_ofFn fun _ => isWs_nonWsSymbol _)

end Sys2Proof.Machine

/-! PROOFS. What the accepting step of a command leaves unchanged, read off the cases of `Accepted`; and, while both
agents have a step, the two turns. -/

namespace Sys2Proof.Machine

/-! ## What a command leaves alone at acceptance -/

/-- What every accepting step keeps, whichever command it accepts and whether or not it ends with an Error. -/
structure AcceptFrame (s t : State) : Prop where
  buffers : SameBuffers s t
  operands : SameOperands s t
  staging : SameStaging s t
  hostSide : SameHostSide s t

/-- No command stores an element, writes an operand register or a STAGING entry, or touches the host's side at
acceptance. -/
theorem Accepted.acceptFrame {i : Instr} {s t : State} (h : Accepted s i t) : AcceptFrame s t where
  buffers := by cases h <;> exact ⟨fun _ => rfl, fun _ => rfl⟩
  operands := by cases h <;> exact ⟨rfl, rfl, rfl, rfl, rfl, rfl, rfl, rfl⟩
  staging := h.sameStaging
  hostSide := by cases h <;> exact ⟨rfl, rfl, rfl, rfl, rfl⟩

/-- Only ENCODE and DECODE latch operands and clear IDX and OUT. -/
theorem Accepted.sameLatches_sameCounters {i : Instr} {s t : State} (h : Accepted s i t) (he : i ≠ .encode)
    (hd : i ≠ .decode) : SameLatches s t ∧ SameCounters s t := by
  cases h with
  | encode => exact absurd rfl he
  | decode => exact absurd rfl hd
  | _ => exact ⟨⟨rfl, rfl, rfl, rfl, rfl⟩, ⟨rfl, rfl⟩⟩

/-- Only ENCODE clears the encoder. -/
theorem Accepted.sameEncoder {i : Instr} {s t : State} (h : Accepted s i t) (he : i ≠ .encode) : SameEncoder s t := by
  cases h with
  | encode => exact absurd rfl he
  | _ => exact ⟨rfl, rfl⟩

/-- Only DECODE clears the decoder and searches the last symbol of its source. -/
theorem Accepted.sameDecoder_sameLast {i : Instr} {s t : State} (h : Accepted s i t) (hd : i ≠ .decode) :
    SameDecoder s t ∧ SameLast s t := by
  cases h with
  | decode => exact absurd rfl hd
  | _ => exact ⟨⟨rfl, rfl, rfl⟩, ⟨rfl, rfl⟩⟩

/-- Settles O19: an accepting step is one of the cases of `Accepted`, and each of them has the frame. -/
theorem commandFrame : Obligations.CommandFrame := by
  intro i s t h
  have ha := accepted_of_exec h
  obtain ⟨buffers, operands, staging, hostSide⟩ := ha.acceptFrame
  exact ⟨buffers, operands, staging, hostSide, ha.sameLatches_sameCounters, ha.sameEncoder, ha.sameDecoder_sameLast,
    ha.sameActive, ha.viol_eq⟩

/-! ## Whose turn it is -/

/-- While BUSY, a turn of the host makes the step its first operation, and uses the turn up. -/
theorem step_host_turn {s : State} {op : HostOp} {ops : List HostOp} {turns : List Agent} (hf : s.faulted = [])
    (hb : s.busy = true) (ho : s.ops = op :: ops) (ht : s.turns = .host :: turns) :
    step s = hostStep op { s with ops := ops, turns := turns } := by
  unfold step
  rw [if_neg (by simp [hf]), ho, hb, ht]

/-- While BUSY, a turn of the engine makes the step the engine's, and uses the turn up. -/
theorem step_engine_turn {s : State} {op : HostOp} {ops : List HostOp} {turns : List Agent} (hf : s.faulted = [])
    (hb : s.busy = true) (ho : s.ops = op :: ops) (ht : s.turns = .engine :: turns) :
    step s = engineStep { s with turns := turns } := by
  unfold step
  rw [if_neg (by simp [hf]), ho, hb, ht]

/-- Settles O39: the engine goes alone when the host has no operation left, and each turn chooses its agent. -/
theorem eitherEnabledAgentMayGo : Obligations.EitherEnabledAgentMayGo := by
  intro s hf hb
  refine ⟨step_engine hf hb, fun op ops turns ho => ⟨?_, ?_⟩⟩
  · exact step_host_turn (s := { s with turns := .host :: turns }) hf hb ho rfl
  · exact step_engine_turn (s := { s with turns := .engine :: turns }) hf hb ho rfl

end Sys2Proof.Machine

/-! PROOFS. The decoder of command words: which words are legal and which command each one is, in terms of their two
fields; what a write of an illegal word comes to; and the loop of WAIT. -/

namespace Sys2Proof.Machine

/-! ## The decoder, field by field -/

/-- The opcodes of the map are 0x1 to 0x7; the others are reserved (R92, R94). -/
theorem instrOfOp_isSome_iff :
    ∀ op : BitVec 4, (instrOfOp op).isSome = true ↔ 1 ≤ op.toNat ∧ op.toNat ≤ 7 := by
  decide

/-- Every command's own encoding decodes to it (R95). -/
theorem decodeCmd_encode (i : Instr) : decodeCmd (Sys2Proof.encode i) = .legal i := by
  cases i <;> decide

/-- The words that decode to a command are the command's own encoding (R95). -/
theorem decodeCmd_eq_legal_iff (w : Word) (i : Instr) : decodeCmd w = .legal i ↔ w = Sys2Proof.encode i :=
  ⟨eq_encode_of_decodeCmd, fun h => h ▸ decodeCmd_encode i⟩

/-- RSV is checked first (R96). -/
theorem decodeCmd_of_rsvField_ne_zero {w : Word} (h : rsvField w ≠ 0#28) : decodeCmd w = .illegal .rsvNotZero :=
  if_neg h

/-- With RSV = 0 the opcode map decides (R96). -/
theorem decodeCmd_of_rsvField_eq_zero {w : Word} (h : rsvField w = 0#28) :
    decodeCmd w = (instrOfOp (opField w)).elim (.illegal .reservedOp) .legal := by
  unfold decodeCmd
  rw [if_pos h]
  cases instrOfOp (opField w) <;> rfl

/-- A word is legal when RSV is 0 and OP is 0x1 to 0x7 (R94, R95). -/
theorem exists_decodeCmd_eq_legal_iff (w : Word) :
    (∃ i, decodeCmd w = .legal i) ↔ rsvField w = 0#28 ∧ 1 ≤ (opField w).toNat ∧ (opField w).toNat ≤ 7 := by
  rw [← instrOfOp_isSome_iff]
  by_cases hrsv : rsvField w = 0#28
  · rw [decodeCmd_of_rsvField_eq_zero hrsv]
    cases instrOfOp (opField w) <;> simp [hrsv]
  · simp [decodeCmd_of_rsvField_ne_zero hrsv, hrsv]

/-- The two outcomes of the decoder. -/
theorem decodeCmd_legal_or_illegal (w : Word) :
    (∃ i, decodeCmd w = .legal i) ∨ ∃ why, decodeCmd w = .illegal why := by
  cases decodeCmd w with
  | legal i => exact .inl ⟨i, rfl⟩
  | illegal why => exact .inr ⟨why, rfl⟩

/-! ## The fields as numbers -/

/-- OP is the low hexadecimal digit of the word (R91). -/
theorem opField_toNat (w : Word) : (opField w).toNat = w.toNat % 16 := by
  simp [opField]

/-- RSV is the word without that digit (R91). -/
theorem rsvField_toNat (w : Word) : (rsvField w).toNat = w.toNat / 16 := by
  have hw := w.isLt
  rw [rsvField, BitVec.extractLsb'_toNat, Nat.shiftRight_eq_div_pow]
  omega

/-- RSV is 0 when the word is a single hexadecimal digit (R91). -/
theorem rsvField_eq_zero_iff (w : Word) : rsvField w = 0#28 ↔ w.toNat < 16 := by
  rw [← BitVec.toNat_inj, rsvField_toNat, BitVec.toNat_zero]
  omega

/-- Settles O1: a legal word has RSV = 0 and an OP of the map, which as a number is 1 to 7. -/
theorem legalWordsAreTheSevenEncodings : Obligations.LegalWordsAreTheSevenEncodings := by
  refine ⟨decodeCmd_eq_legal_iff, fun w => ?_, decodeCmd_legal_or_illegal⟩
  rw [exists_decodeCmd_eq_legal_iff, rsvField_eq_zero_iff, opField_toNat]
  omega

/-- With RSV = 0, an opcode outside the map is reserved (R94). -/
theorem decodeCmd_of_reserved {w : Word} (hrsv : rsvField w = 0#28) (hop : opField w = 0#4 ∨ 8 ≤ (opField w).toNat) :
    decodeCmd w = .illegal .reservedOp := by
  have hnone : instrOfOp (opField w) = none := by
    rw [← Option.not_isSome_iff_eq_none, instrOfOp_isSome_iff]
    obtain hop | hop := hop
    · simp [hop]
    · omega
  rw [decodeCmd_of_rsvField_eq_zero hrsv, hnone]
  rfl

/-- Settles O2: the seven words are encodings, and the other ones have a reserved opcode or RSV not 0. -/
theorem opcodeMapWords : Obligations.OpcodeMapWords := by
  refine ⟨decodeCmd_encode .enclen, decodeCmd_encode .declen, decodeCmd_encode .encode, decodeCmd_encode .decode,
    decodeCmd_encode .build, decodeCmd_encode .loaddef, decodeCmd_encode .clear, fun n hn hop => ?_,
    decodeCmd_of_rsvField_ne_zero (by decide), decodeCmd_of_rsvField_ne_zero (by decide)⟩
  have hw : (BitVec.ofNat 32 n).toNat = n := by rw [BitVec.toNat_ofNat]; omega
  apply decodeCmd_of_reserved
  · rwa [rsvField_eq_zero_iff, hw]
  · rw [← BitVec.toNat_inj, opField_toNat, hw, BitVec.toNat_zero]
    omega

/-! ## An illegal word -/

/-- A word with RSV not 0 or a reserved opcode is illegal (R94). -/
theorem exists_decodeCmd_eq_illegal {w : Word} (h : rsvField w ≠ 0#28 ∨ opField w = 0#4 ∨ 8 ≤ (opField w).toNat) :
    ∃ why, decodeCmd w = .illegal why := by
  by_cases hrsv : rsvField w = 0#28
  · exact ⟨_, decodeCmd_of_reserved hrsv (h.resolve_left (not_not_intro hrsv))⟩
  · exact ⟨_, decodeCmd_of_rsvField_ne_zero hrsv⟩

/-- An Error but CORRUPT raised at acceptance writes STATE, ERR, ERR_POS and RESULT and nothing else (R121, R263). -/
theorem raiseError_accept {code : ErrCode} (h : code ≠ .corrupt) (s : State) :
    raiseError code 0 (accept s) = endedWith code s := by
  simp [raiseError, accept, endedWith, h]

/-- The host writes CMD by a 32-bit access at offset 0x00 (R22, R120). -/
theorem hostStep_wr_cmd (w : Word) (s : State) : hostStep (.wr 4 0x00 w) s = issueCommand w s := rfl

/-- While not BUSY, an illegal word ends at once with ILLEGAL (R122). -/
theorem issueCommand_of_illegal {w : Word} {why : DecodeError} {s : State} (hb : s.busy = false)
    (hw : decodeCmd w = .illegal why) : issueCommand w s = .next (endedWith .illegal s) := by
  rw [← raiseError_accept (by decide)]
  simp [issueCommand, hb, hw]

/-- Settles O4: the step is the host's write of CMD, and the word decodes to no command. -/
theorem illegalWordEndsWithIllegal : Obligations.IllegalWordEndsWithIllegal := by
  intro s w ops hf hb ho hw
  obtain ⟨why, hwhy⟩ := exists_decodeCmd_eq_illegal hw
  rw [step_host hf hb ho, hostStep_wr_cmd]
  exact issueCommand_of_illegal hb hwhy

/-! ## WAIT -/

/-- While BUSY, WAIT reads STATUS and stays the host's next operation (R99). -/
theorem waitStep_of_busy {s : State} (hb : s.busy = true) :
    waitStep s = { s with ops := .wait :: s.ops, replies := statusWord s :: s.replies } :=
  if_pos hb

/-- While not BUSY, WAIT reads STATUS and is done (R99). -/
theorem waitStep_of_not_busy {s : State} (hb : s.busy = false) :
    waitStep s = { s with replies := statusWord s :: s.replies } :=
  if_neg (by simp [hb])

/-- Settles O55: a WAIT is one `waitStep`, which looks at BUSY. -/
theorem waitReadsStatusUntilNotBusy : Obligations.WaitReadsStatusUntilNotBusy := fun _ =>
  ⟨fun hb => congrArg Host.Outcome.next (waitStep_of_busy hb),
    fun hb => congrArg Host.Outcome.next (waitStep_of_not_busy hb)⟩

end Sys2Proof.Machine

/-! PROOFS. The host's accesses: an access of the register window is `writeReg` or the answer of `readReg` on the register
its offset selects, or BAD_ACCESS; an access of a buffer memory is one of the outcomes of `bufferAccess`. From these, what
each access returns and leaves unchanged; and the steps that issue a command. -/

namespace Sys2Proof.Machine

/-! ## The step of the host -/

/-- Settles O41: a fault that stands stops the step before any agent goes. -/
theorem faultedMachineHasNoStep : Obligations.FaultedMachineHasNoStep := fun _ hf => if_pos hf

/-- Settles O56: this is the case of `step` where only the host has a step. -/
theorem hostStepsWhileNotBusy : Obligations.HostStepsWhileNotBusy := fun _ _ _ hf hb ho => step_host hf hb ho

/-- While not BUSY, a legal command word is run (R120, R123). -/
theorem issueCommand_of_legal {w : Word} {i : Instr} {s : State} (hb : s.busy = false) (hw : decodeCmd w = .legal i) :
    issueCommand w s = exec i s := by
  simp [issueCommand, hb, hw]

/-- While BUSY, a command word sets VIOL and does nothing else (R120, R296). -/
theorem issueCommand_of_busy {s : State} (hb : s.busy = true) (w : Word) : issueCommand w s = .next (setViol s) :=
  if_pos hb

/-- Settles O3: the step is the host's write of CMD, which runs the decoded command. -/
theorem stepRunsDecodedCommand : Obligations.StepRunsDecodedCommand := by
  intro s w i ops hf hb ho hw
  rw [step_host hf hb ho, hostStep_wr_cmd]
  exact issueCommand_of_legal hb hw

/-- Settles O5: the step is the host's write of CMD, which is refused while BUSY. -/
theorem commandWhileBusySetsViolOnly : Obligations.CommandWhileBusySetsViolOnly := by
  intro s w ops turns hf hb ho ht
  rw [step_host_turn hf hb ho ht, hostStep_wr_cmd]
  exact issueCommand_of_busy (s := { s with ops := ops, turns := turns }) hb w

/-- Settles O17: CLEAR is acceptance, then IDLE and no VIOL, and acceptance clears ERR, RESULT and ERR_POS. -/
theorem clearReturnsToIdle : Obligations.ClearReturnsToIdle := fun _ => rfl

/-! ## The register window -/

section
variable {size off : Nat} {r : Reg}

/-- A write that R67 defines is a write of the register at its offset. -/
theorem hostStep_wr (hr : registerAt size off = some r) (w : Word) (s : State) :
    hostStep (.wr size off w) s = writeReg r w s := by
  simp [hostStep, hr]

/-- A read that R67 defines, of a register that has a value, returns that value and changes nothing else (R126). -/
theorem hostStep_rd_of_some {w : Word} {s : State} (hr : registerAt size off = some r) (hw : readReg r s = some w) :
    hostStep (.rd size off) s = .next { s with replies := w :: s.replies } := by
  simp [hostStep, hr, hw, answer, reply]

/-- A read of a register that has no value is ModelFault(UNWRITTEN) (R79). -/
theorem hostStep_rd_of_none {s : State} (hr : registerAt size off = some r) (hw : readReg r s = none) :
    hostStep (.rd size off) s = .fault (.raised .unwritten (addFault .unwritten s.faulted)) := by
  simp [hostStep, hr, hw, answer, modelFault]

end

/-- An access of another width, misaligned, or beyond the window reaches no register (R67). -/
theorem registerAt_eq_none {size off : Nat} (h : size ≠ 4 ∨ off % 4 ≠ 0 ∨ 0x40 ≤ off) : registerAt size off = none := by
  refine if_neg fun hok => ?_
  simp only [registerAccessOk, Bool.and_eq_true, beq_iff_eq, decide_eq_true_eq] at hok
  omega

/-- Settles O47: each offset selects its operand register, whose write takes the whole word. -/
theorem operandRegisterWrites : Obligations.OperandRegisterWrites := fun s w =>
  ⟨hostStep_wr (r := .srcBase) rfl w s, hostStep_wr (r := .srcLen) rfl w s, hostStep_wr (r := .dstBase) rfl w s,
    hostStep_wr (r := .dstCap) rfl w s, hostStep_wr (r := .plen) rfl w s, hostStep_wr (r := .tlen) rfl w s⟩

/-- The registers whose writes are ignored (R127). -/
theorem writeReg_ignored {r : Reg} (hr : r ∈ [.status, .result, .errPos, .id, .reserved]) (w : Word) (s : State) :
    writeReg r w s = .next s := by
  cases r with
  | status | result | errPos | id | reserved => rfl
  | _ => simp at hr

/-- The offsets of those registers (R22, R127). -/
theorem registerAt_ignored : ∀ off ∈ [0x04, 0x18, 0x1C, 0x30, 0x34, 0x38, 0x3C],
    ∃ r ∈ [Reg.status, .result, .errPos, .id, .reserved], registerAt 4 off = some r := by
  decide

/-- The offsets of the reserved words (R22, R127). -/
theorem registerAt_reserved : ∀ off ∈ [0x34, 0x38, 0x3C], registerAt 4 off = some .reserved := by
  decide

/-- Settles O48: each listed offset selects a register whose write is ignored, a reserved word reads 0, and the other
accesses select no register. -/
theorem ignoredAndUndefinedAccesses : Obligations.IgnoredAndUndefinedAccesses := by
  refine ⟨fun s w off hoff => ?_, fun s off hoff => ?_, fun s w size off h => ?_⟩
  · obtain ⟨r, hr, hat⟩ := registerAt_ignored off hoff
    rw [hostStep_wr hat, writeReg_ignored hr]
  · exact hostStep_rd_of_some (registerAt_reserved off hoff) rfl
  · have hnone := registerAt_eq_none h
    constructor <;> simp [hostStep, hnone, modelFault]

/-! ## The words of STATUS and TBL_INDEX as numbers -/

/-- A field shifted above another is their sum as numbers. -/
theorem toNat_shiftLeft_or {x y : Word} {k : Nat} (hx : 2 ^ k * x.toNat < 2 ^ 32) (hy : y.toNat < 2 ^ k) :
    (x <<< k ||| y).toNat = 2 ^ k * x.toNat + y.toNat := by
  rw [BitVec.toNat_or, BitVec.toNat_shiftLeft, Nat.shiftLeft_eq, Nat.mul_comm, Nat.mod_eq_of_lt hx,
    Nat.two_pow_add_eq_or_of_lt hy]

/-- A one-bit field as a number. -/
theorem toNat_setWidth_ofBool (b : Bool) : ((BitVec.ofBool b).setWidth 32).toNat = b.toNat := by
  rw [BitVec.toNat_setWidth_of_le (by decide), BitVec.toNat_ofBool]

/-- The fields of STATUS (R25): VIOL and STATE fill the 4 bits below ERR. -/
theorem statusWord_toNat (s : State) :
    (statusWord s).toNat = 16 * s.err.code.toNat + 4 * s.viol.toNat + s.engine.code.toNat := by
  have herr : (s.err.code.setWidth 32).toNat = s.err.code.toNat := BitVec.toNat_setWidth_of_le (by decide)
  have hviol : ((BitVec.ofBool s.viol).setWidth 32).toNat = s.viol.toNat := toNat_setWidth_ofBool s.viol
  have hengine : (s.engine.code.setWidth 32).toNat = s.engine.code.toNat := BitVec.toNat_setWidth_of_le (by decide)
  have herrLt := s.err.code.isLt
  have hviolLe := Bool.toNat_le s.viol
  have hengineLt := s.engine.code.isLt
  have hlow : ((BitVec.ofBool s.viol).setWidth 32 <<< 2 ||| s.engine.code.setWidth 32).toNat
      = 4 * s.viol.toNat + s.engine.code.toNat := by
    rw [toNat_shiftLeft_or] <;> omega
  rw [statusWord, BitVec.or_assoc, toNat_shiftLeft_or] <;> omega

/-- The fields of TBL_INDEX (R31): INDEX fills the 12 bits below BANK. -/
theorem tblIndexWord_toNat (s : State) : (tblIndexWord s).toNat = 4096 * s.tblBank.toNat + s.tblIndex.toNat := by
  have hbank : ((BitVec.ofBool s.tblBank).setWidth 32).toNat = s.tblBank.toNat := toNat_setWidth_ofBool s.tblBank
  have hindex : (s.tblIndex.setWidth 32).toNat = s.tblIndex.toNat := BitVec.toNat_setWidth_of_le (by decide)
  have hbankLe := Bool.toNat_le s.tblBank
  have hindexLt := s.tblIndex.isLt
  rw [tblIndexWord, toNat_shiftLeft_or] <;> omega

/-- Settles O46: the codes are those of the model, and each offset selects a register that has a value. -/
theorem registerReadsReturn : Obligations.RegisterReadsReturn := by
  refine ⟨⟨rfl, rfl, rfl, rfl⟩, ⟨rfl, rfl, rfl, rfl, rfl, rfl, rfl, rfl⟩, fun s => ?_⟩
  exact ⟨⟨_, hostStep_rd_of_some (r := .status) rfl rfl, statusWord_toNat s⟩,
    ⟨_, hostStep_rd_of_some (r := .tblIndex) rfl rfl, tblIndexWord_toNat s⟩,
    hostStep_rd_of_some (r := .cmd) rfl rfl, hostStep_rd_of_some (r := .srcBase) rfl rfl,
    hostStep_rd_of_some (r := .srcLen) rfl rfl, hostStep_rd_of_some (r := .dstBase) rfl rfl,
    hostStep_rd_of_some (r := .dstCap) rfl rfl, hostStep_rd_of_some (r := .result) rfl rfl,
    hostStep_rd_of_some (r := .errPos) rfl rfl, hostStep_rd_of_some (r := .plen) rfl rfl,
    hostStep_rd_of_some (r := .tlen) rfl rfl, hostStep_rd_of_some (r := .id) rfl rfl⟩

/-! ## The table port -/

/-- Bit `k` of a word as a number. -/
theorem toNat_getLsbD (w : Word) (k : Nat) : (w.getLsbD k).toNat = w.toNat / 2 ^ k % 2 := by
  rw [BitVec.getLsbD, Nat.toNat_testBit]

/-- Settles O49: INDEX is bits 11:0 of the word and BANK is bit 12. -/
theorem tableIndexWrite : Obligations.TableIndexWrite := by
  intro s w
  refine ⟨writeTblIndex w s, hostStep_wr (r := .tblIndex) rfl w s, ?_, toNat_getLsbD w 12, rfl⟩
  simp [writeTblIndex]

section
variable {s : State}

/-- A write of TBL_DATA with BANK = 0 and INDEX in the primary table (R130). -/
theorem writeTblData_primary (hbank : s.tblBank = false) (hi : s.tblIndex.toNat < 2048) (w : Word) :
    writeTblData w s = { s with stgP := s.stgP.set s.tblIndex.toNat (some (w.extractLsb' 0 21)) } := by
  simp [writeTblData, hbank, hi]

/-- A write of TBL_DATA with BANK = 0 and INDEX in the trailing table (R130). -/
theorem writeTblData_trailing (hbank : s.tblBank = false) (hlo : 2048 ≤ s.tblIndex.toNat)
    (hhi : s.tblIndex.toNat < 2056) (w : Word) :
    writeTblData w s = { s with stgT := s.stgT.set (s.tblIndex.toNat - 2048) (some (w.extractLsb' 0 21)) } := by
  simp [writeTblData, hbank, hlo.not_gt, hhi]

/-- A write of TBL_DATA that selects no STAGING entry (R130). -/
theorem writeTblData_violation (h : s.tblBank = true ∨ 2056 ≤ s.tblIndex.toNat) (w : Word) :
    writeTblData w s = setViol s := by
  unfold writeTblData
  obtain hbank | hi := h
  · rw [if_pos hbank]
  · rw [if_neg (by omega : ¬ s.tblIndex.toNat < 2048), if_neg hi.not_gt, ite_self]

/-- A read of TBL_DATA with INDEX in the primary table (R131). -/
theorem readTblData_primary {v : Fin 2048} (hv : s.tblIndex.toNat = v.val) :
    readTblData s = if s.tblBank then some ((s.actP.get v).setWidth 32) else (s.stgP.get v).map (BitVec.setWidth 32) := by
  simp [readTblData, hv]

/-- A read of TBL_DATA with INDEX in the trailing table (R131). -/
theorem readTblData_trailing {v : Fin 8} (hv : s.tblIndex.toNat = 2048 + v.val) :
    readTblData s = if s.tblBank then some ((s.actT.get v).setWidth 32) else (s.stgT.get v).map (BitVec.setWidth 32) := by
  simp [readTblData, hv]

/-- A read of TBL_DATA that selects no entry (R131). -/
theorem readTblData_unselected (hi : 2056 ≤ s.tblIndex.toNat) : readTblData s = some 0 := by
  rw [readTblData, dif_neg (by omega), dif_neg (by omega)]

end

/-- Settles O50: the three cases of `writeTblData`, the stored symbol being the word's low 21 bits. -/
theorem tableDataWrite : Obligations.TableDataWrite := by
  intro s w c hc
  have hstored : w.extractLsb' 0 21 = c := BitVec.eq_of_toNat_eq (by simp [hc])
  have hwrite : hostStep (.wr 4 0x24 w) s = .next (writeTblData w s) := hostStep_wr (r := .tblData) rfl w s
  rw [hwrite]
  refine ⟨fun hbank hi => ?_, fun hbank hlo hhi => ?_, fun h => ?_⟩
  · rw [writeTblData_primary hbank hi, hstored]
    exact ⟨_, rfl, fun v => by simp only [Table.get_set, eq_comm], rfl⟩
  · rw [writeTblData_trailing hbank hlo hhi, hstored]
    exact ⟨_, rfl, fun v => by simp only [Table.get_set, eq_comm], rfl⟩
  · rw [writeTblData_violation h]
    rfl

/-- The read of a table whose ACTIVE entry is `x` and whose STAGING entry is `y`: the bank chooses the one returned, and
an unwritten STAGING entry is UNWRITTEN (R131). -/
theorem hostStep_rd_tblData {s : State} {x : Symbol} {y : Option Symbol}
    (hread : readTblData s = if s.tblBank then some (x.setWidth 32) else y.map (BitVec.setWidth 32)) :
    (s.tblBank = true → hostStep (.rd 4 0x24) s = .next { s with replies := x.setWidth 32 :: s.replies })
    ∧ (∀ c, s.tblBank = false → y = some c →
      hostStep (.rd 4 0x24) s = .next { s with replies := c.setWidth 32 :: s.replies })
    ∧ (s.tblBank = false → y = none →
      hostStep (.rd 4 0x24) s = .fault (.raised .unwritten (addFault .unwritten s.faulted))) := by
  refine ⟨fun hbank => ?_, fun c hbank hy => ?_, fun hbank hy => ?_⟩
  · exact hostStep_rd_of_some (r := .tblData) rfl (hread.trans (if_pos hbank))
  · exact hostStep_rd_of_some (r := .tblData) rfl (hread.trans (by simp [hbank, hy]))
  · exact hostStep_rd_of_none (r := .tblData) rfl (hread.trans (by simp [hbank, hy]))

/-- Settles O51: the three cases of `readTblData`; in the two tables the bank chooses the entry. -/
theorem tableDataRead : Obligations.TableDataRead := fun _ =>
  ⟨fun _ hv => hostStep_rd_tblData (readTblData_primary hv), fun _ hv => hostStep_rd_tblData (readTblData_trailing hv),
    fun hi => hostStep_rd_of_some (r := .tblData) rfl (readTblData_unselected hi)⟩

/-! ## The ports of the buffer memories -/

section
variable {s : State} {ok : Bool} {access : Host.Outcome State Fault Refusal}

/-- A buffer access out of range or too wide (R132). -/
theorem bufferAccess_badAccess (hok : ok = false) :
    bufferAccess ok s access = .fault (.raised .badAccess (addFault .badAccess s.faulted)) := by
  simp [bufferAccess, hok, modelFault]

/-- A defined buffer access while BUSY (R132, R297). -/
theorem bufferAccess_hazard (hok : ok = true) (hb : s.busy = true) :
    bufferAccess ok s access = .fault (.raised .hazard (addFault .hazard s.faulted)) := by
  simp [bufferAccess, hok, hb, modelFault]

/-- A defined buffer access while not BUSY (R132). -/
theorem bufferAccess_access (hok : ok = true) (hb : s.busy = false) : bufferAccess ok s access = access := by
  simp [bufferAccess, hok, hb]

end

/-- A store through a port of elements of `k` bits (R132, R297): its three outcomes, `t` being the state after it. -/
theorem hostStep_store {s t : State} {op : HostOp} {k a v : Nat}
    (hop : hostStep op s = bufferAccess (a < 2 ^ s.cfg.addrW && v < 2 ^ k) s (.next t)) :
    (a < 2 ^ s.cfg.addrW → v < 2 ^ k → s.busy = false → hostStep op s = .next t)
    ∧ (2 ^ s.cfg.addrW ≤ a ∨ 2 ^ k ≤ v →
      hostStep op s = .fault (.raised .badAccess (addFault .badAccess s.faulted)))
    ∧ (a < 2 ^ s.cfg.addrW → v < 2 ^ k → s.busy = true →
      hostStep op s = .fault (.raised .hazard (addFault .hazard s.faulted))) := by
  refine ⟨fun ha hv hb => ?_, fun h => ?_, fun ha hv hb => ?_⟩
  · exact hop.trans (bufferAccess_access (by simp [ha, hv]) hb)
  · exact hop.trans (bufferAccess_badAccess (by simpa [imp_iff_not_or] using h))
  · exact hop.trans (bufferAccess_hazard (by simp [ha, hv]) hb)

/-- A load through the port of the memory `m`, of elements of `k` bits (R132, R297): its four outcomes. -/
theorem hostStep_load {s : State} {op : HostOp} {k a : Nat} {m : Memory (BitVec k)}
    (hop : hostStep op s
      = bufferAccess (a < 2 ^ s.cfg.addrW) s (answer ((Memory.read m a).map (BitVec.setWidth 32)) s)) :
    (∀ x, a < 2 ^ s.cfg.addrW → s.busy = false → Memory.read m a = some x →
      hostStep op s = .next { s with replies := x.setWidth 32 :: s.replies })
    ∧ (a < 2 ^ s.cfg.addrW → s.busy = false → Memory.read m a = none →
      hostStep op s = .fault (.raised .unwritten (addFault .unwritten s.faulted)))
    ∧ (2 ^ s.cfg.addrW ≤ a → hostStep op s = .fault (.raised .badAccess (addFault .badAccess s.faulted)))
    ∧ (a < 2 ^ s.cfg.addrW → s.busy = true →
      hostStep op s = .fault (.raised .hazard (addFault .hazard s.faulted))) := by
  refine ⟨fun x ha hb hx => ?_, fun ha hb hx => ?_, fun ha => ?_, fun ha hb => ?_⟩
  · rw [hop, bufferAccess_access (by simpa using ha) hb, hx]
    rfl
  · rw [hop, bufferAccess_access (by simpa using ha) hb, hx]
    rfl
  · exact hop.trans (bufferAccess_badAccess (by simpa using ha))
  · exact hop.trans (bufferAccess_hazard (by simpa using ha) hb)

/-- Settles O52: SB and LB are the store and the load of a port of 8-bit elements. -/
theorem byteMemoryPort : Obligations.ByteMemoryPort := by
  intro s a v
  obtain ⟨hstore, hbad, hhazard⟩ := hostStep_store (op := .sb a v) (s := s) (t := storeByte a v s) rfl
  refine ⟨fun ha hv hb => ⟨_, hstore ha hv hb, ?_, fun b hba => ?_, rfl⟩, hbad, hhazard, hostStep_load rfl⟩
  · exact Memory.read_write_same _ _ _
  · exact Memory.read_write_other hba

/-- Settles O53: SS and LS are the store and the load of a port of 21-bit elements. -/
theorem symbolMemoryPort : Obligations.SymbolMemoryPort := by
  intro s a v
  obtain ⟨hstore, hbad, hhazard⟩ := hostStep_store (op := .ss a v) (s := s) (t := storeSymbol a v s) rfl
  refine ⟨fun ha hv hb => ⟨_, hstore ha hv hb, ?_, fun b hba => ?_, rfl⟩, hbad, hhazard, hostStep_load rfl⟩
  · exact Memory.read_write_same _ _ _
  · exact Memory.read_write_other hba

end Sys2Proof.Machine

/-! PROOFS. The alphabet store: the CR/LF check and the reading of a staged table as statements about their entries,
which give the outcomes of BUILD and of `configure`; the inverse lookup of a table indexed by bit vectors;
and the symbols an ENCODE step can emit, which are entries of the ACTIVE tables. -/

namespace Sys2Proof.Machine

/-! ## The CR/LF check -/

/-- Whitespace is CR or LF (R17). -/
theorem isWs_eq_true_iff (c : Symbol) : isWs c = true ↔ c = 0x0D#21 ∨ c = 0x0A#21 := by
  simp [isWs]

/-- A symbol that is no whitespace is neither CR nor LF (R17). -/
theorem isWs_eq_false_iff (c : Symbol) : isWs c = false ↔ c ≠ 0x0D#21 ∧ c ≠ 0x0A#21 := by
  simp [isWs]

section
variable {m n : Nat} {p : Table Symbol m} {q : Table Symbol n}

/-- Two tables pass the CR/LF check when no entry of either is CR or LF (R143). -/
theorem hasWs_or_eq_false_iff :
    (hasWs p || hasWs q) = false ↔ ∀ c, c ∈ p.entries ∨ c ∈ q.entries → c ≠ 0x0D#21 ∧ c ≠ 0x0A#21 := by
  simp only [Bool.or_eq_false_iff, hasWs_eq_false, Clean, ← isWs_eq_false_iff, or_imp, forall_and]

/-- Two tables fail the CR/LF check when an entry of one of them is CR or LF (R143). -/
theorem hasWs_or_eq_true_iff :
    (hasWs p || hasWs q) = true ↔ ∃ c, (c ∈ p.entries ∨ c ∈ q.entries) ∧ (c = 0x0D#21 ∨ c = 0x0A#21) := by
  rw [← Bool.not_eq_false, hasWs_or_eq_false_iff]
  simp only [not_forall, exists_prop, not_and_or, not_not]

end

/-! ## A staged table with an unwritten entry -/

/-- A list of entries does not read whole when one of them is unwritten (R79). -/
theorem allSome_eq_none {α : Type} {l : List (Option α)} : allSome l = none ↔ none ∈ l := by
  induction l with
  | nil => simp [allSome]
  | cons x xs ih =>
    cases x with
    | none => simp [allSome]
    | some x =>
      unfold allSome
      rw [List.mem_cons, ← ih]
      split
      · next ys hys => simp [hys]
      · next hn => simp [hn]

/-- A staging table does not read whole when one of its entries is unwritten (R143, R79). -/
theorem readStaged_eq_none {n : Nat} {t : Table (Option Symbol) n} : readStaged t = none ↔ none ∈ t.entries := by
  rw [← allSome_eq_none]
  unfold readStaged
  split
  · next l hl => simp [hl]
  · next hl => simp [hl]

/-! ## BUILD and LOADDEF -/

section
variable {s : State}

/-- BUILD checks PLEN first (R144). -/
theorem execBuild_of_plen (hp : s.plen ≠ 2048) : execBuild s = .next (endedWith .cfgPsize s) := by
  rw [← raiseError_accept (by decide)]
  exact if_pos hp

/-- With PLEN right, BUILD checks TLEN (R144). -/
theorem execBuild_of_tlen (hp : s.plen = 2048) (ht : s.tlen ≠ 8) : execBuild s = .next (endedWith .cfgTsize s) := by
  rw [← raiseError_accept (by decide)]
  exact (if_neg (not_not_intro hp)).trans (if_pos ht)

/-- With both sizes right, an unwritten entry stops BUILD before any CR or LF is looked for (R143, R79). -/
theorem execBuild_of_unwritten (hp : s.plen = 2048) (ht : s.tlen = 8)
    (h : none ∈ s.stgP.entries ∨ none ∈ s.stgT.entries) : execBuild s = modelFault .unwritten s := by
  rw [← readStaged_eq_none, ← readStaged_eq_none] at h
  unfold execBuild
  rw [if_neg (not_not_intro hp), if_neg (not_not_intro ht)]
  split
  · next hsp hsq => simp [hsp, hsq] at h
  · rfl

/-- With both sizes right and every entry written, the CR/LF check decides between an Error and the whole candidate
(R143, R145). -/
theorem execBuild_of_staged {p : Table Symbol 2048} {q : Table Symbol 8} (hp : s.plen = 2048) (ht : s.tlen = 8)
    (hsp : s.stgP.entries = p.entries.map some) (hsq : s.stgT.entries = q.entries.map some) :
    execBuild s = if hasWs p || hasWs q then .next (endedWith .cfgCtrl s)
      else .next (finish 0 (installTables p q (accept s))) := by
  unfold execBuild
  rw [if_neg (not_not_intro hp), if_neg (not_not_intro ht), readStaged_eq_some.2 hsp, readStaged_eq_some.2 hsq,
    ← raiseError_accept (by decide)]

end

/-- Settles O10: the checks in the order of `execBuild`, the CR/LF check read as a statement about the entries. -/
theorem buildChecksThenInstalls : Obligations.BuildChecksThenInstalls := by
  intro s
  refine ⟨execBuild_of_plen, execBuild_of_tlen, execBuild_of_unwritten, fun p q hp ht hsp hsq => ?_⟩
  have hbuild := execBuild_of_staged hp ht hsp hsq
  refine ⟨fun hws => ?_, fun hclean => ?_⟩
  · exact hbuild.trans (if_pos (hasWs_or_eq_true_iff.2 hws))
  · have hpass := hasWs_or_eq_false_iff.2 hclean
    exact ⟨_, hbuild.trans (if_neg (by simp [hpass])), rfl, rfl, rfl, rfl, rfl, rfl, rfl, rfl⟩

/-- Settles O11: LOADDEF answers one next state, whose fields are those stated. -/
theorem loaddefInstallsDefaults : Obligations.LoaddefInstallsDefaults := fun _ =>
  ⟨_, rfl, rfl, rfl, rfl, rfl, rfl, rfl, ⟨rfl, rfl⟩, rfl, rfl⟩

/-! ## Configuring the core -/

/-- A configuration is well formed when ADDR_W is in range and its default tables pass the CR/LF check (R10, R141). -/
theorem wellFormed_config_iff (c : Config) :
    c.wellFormed = true ↔ 1 ≤ c.addrW ∧ c.addrW ≤ 28 ∧ (hasWs c.defaultP || hasWs c.defaultT) = false := by
  simp only [Config.wellFormed, hasWs, Bool.and_eq_true, decide_eq_true_eq, Bool.not_eq_true', Bool.or_eq_false_iff,
    and_assoc]

/-- Settles O16: a CR or LF fails the CR/LF check that `wellFormed` asks for. -/
theorem illFormedInstanceRefused : Obligations.IllFormedInstanceRefused := by
  refine fun c => ⟨fun hws => if_neg fun hwf => ?_, fun hlo hhi hclean => if_pos ?_⟩
  · obtain ⟨-, -, hpass⟩ := (wellFormed_config_iff c).1 hwf
    rw [hasWs_or_eq_true_iff.2 hws] at hpass
    cases hpass
  · exact (wellFormed_config_iff c).2 ⟨hlo, hhi, hasWs_or_eq_false_iff.2 hclean⟩

/-! ## The inverse lookup of a table indexed by bit vectors -/

section
variable {k : Nat} {t : Table Symbol (2 ^ k)} {c : Symbol}

/-- The entry at a position of the list, as the entry at an index of the table. -/
theorem Table.getElem?_toNat (t : Table Symbol (2 ^ k)) (v : BitVec k) :
    t.entries[v.toNat]? = some (t.get ⟨v.toNat, v.isLt⟩) :=
  Table.getElem?_entries t ⟨v.toNat, v.isLt⟩

/-- A position that holds a symbol is the number of a bit vector. -/
theorem Table.exists_toNat_eq {j : Nat} (hj : t.entries[j]? = some c) : ∃ v : BitVec k, v.toNat = j := by
  obtain ⟨hlt, -⟩ := List.getElem?_eq_some_iff.1 hj
  rw [t.size] at hlt
  exact ⟨BitVec.ofNatLT j hlt, rfl⟩

/-- The index found, as a number and as a bit vector: it fits, since the table has `2 ^ k` entries. -/
theorem map_lastIndexOf_eq_some {v : BitVec k} :
    (lastIndexOf c t.entries).map (BitVec.ofNat k) = some v ↔ lastIndexOf c t.entries = some v.toNat := by
  rw [Option.map_eq_some_iff]
  constructor
  · rintro ⟨j, hj, rfl⟩
    have hlt : j < 2 ^ k := t.size ▸ lastIndexOf_lt hj
    rw [hj, BitVec.toNat_ofNat, Nat.mod_eq_of_lt hlt]
  · exact fun h => ⟨v.toNat, h, by simp⟩

/-- The inverse lookup gives the highest index whose entry is the symbol (R148 to R150). -/
theorem map_lastIndexOf_eq_some_iff_get {v : BitVec k} :
    (lastIndexOf c t.entries).map (BitVec.ofNat k) = some v ↔
      t.get ⟨v.toNat, v.isLt⟩ = c ∧ ∀ w : BitVec k, v.toNat < w.toNat → t.get ⟨w.toNat, w.isLt⟩ ≠ c := by
  rw [map_lastIndexOf_eq_some, lastIndexOf_eq_some, Table.getElem?_toNat, Option.some.injEq]
  refine and_congr_right fun _ => ⟨fun hmax w hw hc => ?_, fun hmax j hj hc => ?_⟩
  · exact hmax w.toNat hw ((Table.getElem?_toNat t w).trans (congrArg some hc))
  · obtain ⟨w, rfl⟩ := Table.exists_toNat_eq hc
    exact hmax w hj (Option.some.inj ((Table.getElem?_toNat t w).symm.trans hc))

/-- The inverse lookup gives nothing when no entry is the symbol (R148, R149). -/
theorem map_lastIndexOf_eq_none_iff_get :
    (lastIndexOf c t.entries).map (BitVec.ofNat k) = none ↔ ∀ v : BitVec k, t.get ⟨v.toNat, v.isLt⟩ ≠ c := by
  rw [Option.map_eq_none_iff, lastIndexOf_eq_none]
  constructor
  · rintro hc v rfl
    exact hc (Table.get_mem t _)
  · intro hne hc
    obtain ⟨j, hj⟩ := List.getElem?_of_mem hc
    obtain ⟨v, rfl⟩ := Table.exists_toNat_eq hj
    exact hne v (Option.some.inj ((Table.getElem?_toNat t v).symm.trans hj))

end

/-- Settles O12: PINV and TINV are the inverse lookups of tables of `2 ^ 11` and `2 ^ 3` entries. -/
theorem inverseLookupGivesHighestIndex : Obligations.InverseLookupGivesHighestIndex := fun s _ =>
  ⟨fun _ => map_lastIndexOf_eq_some_iff_get (k := 11) (t := s.actP),
    map_lastIndexOf_eq_none_iff_get (k := 11) (t := s.actP),
    fun _ => map_lastIndexOf_eq_some_iff_get (k := 3) (t := s.actT),
    map_lastIndexOf_eq_none_iff_get (k := 3) (t := s.actT)⟩

/-! ## Clean ACTIVE tables -/

/-- An entry of a clean table is neither CR nor LF (R152). -/
theorem Clean.get_ne {n : Nat} {t : Table Symbol n} (h : Clean t) (i : Fin n) :
    t.get i ≠ 0x0D#21 ∧ t.get i ≠ 0x0A#21 :=
  (isWs_eq_false_iff _).1 (h _ (Table.get_mem t i))

/-- The inverse lookup of a clean table finds no whitespace (R152). -/
theorem Clean.lastIndexOf_eq_none {n : Nat} {t : Table Symbol n} {c : Symbol} (h : Clean t) (hc : isWs c = true) :
    lastIndexOf c t.entries = none :=
  Machine.lastIndexOf_eq_none.2 fun hmem => by simp [h c hmem] at hc

/-- What an ENCODE step writes to SYM_MEM, if anything, is an entry of an ACTIVE table (R172, R174). -/
theorem encode_engineStep_emits {s t : State} (h : engineStep s = .next t) (hop : s.lOp = opEncode) :
    t.symMem = s.symMem
      ∨ ∃ c, (c ∈ s.actP.entries ∨ c ∈ s.actT.entries) ∧ t.symMem = Memory.write s.symMem (dstAddr s) c := by
  obtain ⟨-, -, b, -, rfl⟩ | ⟨-, -, rfl⟩ | ⟨hop', -⟩ | ⟨hop', -⟩ := engineStep_cases h
  · split
    · exact .inr ⟨_, .inl (Table.get_mem _ _), rfl⟩
    · exact .inl rfl
  · unfold encodeFinal encodeTail
    split_ifs
    · exact .inl rfl
    · exact .inr ⟨_, .inr (Table.get_mem _ _), rfl⟩
    · exact .inr ⟨_, .inl (Table.get_mem _ _), rfl⟩
  · rw [hop] at hop'; cases hop'
  · rw [hop] at hop'; cases hop'

/-- With clean ACTIVE tables, the whitespace in SYM_MEM after an ENCODE step was there before it (R152). -/
theorem read_symMem_of_isWs {s t : State} (hp : Clean s.actP) (hq : Clean s.actT) (h : engineStep s = .next t)
    (hop : s.lOp = opEncode) {a : Nat} {c : Symbol} (ha : Memory.read t.symMem a = some c) (hc : isWs c = true) :
    Memory.read s.symMem a = some c := by
  obtain heq | ⟨x, hx, heq⟩ := encode_engineStep_emits h hop
  · rwa [heq] at ha
  · rw [heq, Memory.read_write] at ha
    split at ha
    · cases ha
      have hclean : isWs c = false := hx.elim (hp c) (hq c)
      simp [hclean] at hc
    · exact ha

/-- Settles O13: the invariant keeps both ACTIVE tables clean, and an ENCODE step emits entries of these only. -/
theorem activeTablesHoldNoWhitespace : Obligations.ActiveTablesHoldNoWhitespace := by
  intro s h
  have hP {c : Symbol} (hc : isWs c = true) : primaryInverse s c = none :=
    Option.map_eq_none_iff.2 (h.actP_clean.lastIndexOf_eq_none hc)
  have hT {c : Symbol} (hc : isWs c = true) : trailingInverse s c = none :=
    Option.map_eq_none_iff.2 (h.actT_clean.lastIndexOf_eq_none hc)
  refine ⟨fun v => h.actP_clean.get_ne _, fun v => h.actT_clean.get_ne _, hP (by decide), hP (by decide),
    hT (by decide), hT (by decide), fun t hrun hstep a c ha hc => ?_⟩
  exact read_symMem_of_isWs h.actP_clean h.actT_clean hstep hrun.2 ha ((isWs_eq_true_iff c).2 hc)

end Sys2Proof.Machine

/-! PROOFS. ENCODE: its acceptance, its two byte steps and its final step by what they do to the accumulator; then a whole
run, in which the accumulator always holds the bits of the stream that are not yet written. -/

namespace Sys2Proof.Machine

/-! ## The bit stream -/

/-- The value of a stream with one more byte behind it (R65). -/
theorem streamValue_append (bs : List Byte) (b : Byte) : streamValue (bs ++ [b]) = streamValue bs * 256 + b.toNat := by
  simp [streamValue]

section
variable {bs : List Byte} {b : Byte} {i n k : Nat}

/-- Bits that lie in the first bytes do not depend on a byte behind them (R181). -/
theorem streamBits_append_of_le (h : i + n ≤ 8 * bs.length) : streamBits (bs ++ [b]) i n = streamBits bs i n := by
  have hshift : 8 * (bs ++ [b]).length - i - n = 8 + (8 * bs.length - i - n) := by
    rw [List.length_append, List.length_singleton]
    omega
  have hdrop : (streamValue bs * 256 + b.toNat) >>> 8 = streamValue bs := by
    rw [Nat.shiftRight_eq_div_pow]
    omega
  rw [streamBits, streamBits, streamValue_append, hshift, Nat.shiftRight_add, hdrop]

/-- The top `k` bits of a byte fit `k` bits. -/
theorem byte_div_lt (b : Byte) (hk : k ≤ 8) : b.toNat / 2 ^ (8 - k) < 2 ^ k := by
  refine Nat.div_lt_of_lt_mul (b.isLt.trans_eq ?_)
  rw [← Nat.pow_add, Nat.sub_add_cancel hk]

/-- `k` bits `c` below a number `v`, cut to `n + k` bits. -/
theorem two_pow_mul_add_mod {c : Nat} (hc : c < 2 ^ k) (v n : Nat) :
    (2 ^ k * v + c) % 2 ^ (n + k) = v % 2 ^ n * 2 ^ k + c := by
  rw [Nat.add_comm n k, Nat.pow_add, Nat.mod_mul, Nat.mul_add_mod, Nat.mod_eq_of_lt hc,
    Nat.mul_add_div (Nat.two_pow_pos k), Nat.div_eq_of_lt hc, Nat.add_zero, Nat.add_comm, Nat.mul_comm]

/-- The last bits of the first bytes and the top `k` bits of the byte behind them (R181). -/
theorem streamBits_append_of_eq (h : i + n = 8 * bs.length) (hk : k ≤ 8) :
    streamBits (bs ++ [b]) i (n + k) = streamBits bs i n * 2 ^ k + b.toNat / 2 ^ (8 - k) := by
  have hlow : 8 * (bs ++ [b]).length - i - (n + k) = 8 - k := by
    rw [List.length_append, List.length_singleton]
    omega
  have hlow' : 8 * bs.length - i - n = 0 := by omega
  have hcut : (streamValue bs * 256 + b.toNat) / 2 ^ (8 - k) = 2 ^ k * streamValue bs + b.toNat / 2 ^ (8 - k) := by
    have hbyte : 256 = 2 ^ (8 - k) * 2 ^ k := by rw [← Nat.pow_add, Nat.sub_add_cancel hk]
    rw [hbyte, Nat.mul_comm, Nat.mul_assoc, Nat.mul_add_div (Nat.two_pow_pos _)]
  rw [streamBits, streamBits, streamValue_append, hlow, hlow', Nat.shiftRight_zero, Nat.shiftRight_eq_div_pow, hcut,
    two_pow_mul_add_mod (byte_div_lt b hk)]

/-- The last bits of a stream are the low bits of its last byte (R181). -/
theorem streamBits_append_low (h : i + k = 8 * bs.length + 8) (hk : k ≤ 8) :
    streamBits (bs ++ [b]) i k = b.toNat % 2 ^ k := by
  have hlow : 8 * (bs ++ [b]).length - i - k = 0 := by
    rw [List.length_append, List.length_singleton]
    omega
  have hbyte : 256 = 2 ^ k * 2 ^ (8 - k) := by rw [← Nat.pow_add, Nat.add_sub_cancel' hk]
  rw [streamBits, streamValue_append, hlow, Nat.shiftRight_zero, Nat.mul_comm, hbyte, Nat.mul_assoc, Nat.mul_add_mod]

end

/-! ## ENCODE's acceptance -/

section
variable {s : State}

/-- The range check at acceptance, as the two sums it makes (R170, R200). -/
theorem operandsOutOfRange_eq_true_iff (s : State) : operandsOutOfRange s = true ↔
    s.srcBase.toNat + s.srcLen.toNat > 2 ^ s.cfg.addrW ∨ s.dstBase.toNat + s.dstCap.toNat > 2 ^ s.cfg.addrW := by
  simp [operandsOutOfRange, State.memSize]

/-- Operands whose two sums do not exceed the memory are in range (R170, R200). -/
theorem operandsOutOfRange_of_le (hs : s.srcBase.toNat + s.srcLen.toNat ≤ 2 ^ s.cfg.addrW)
    (hd : s.dstBase.toNat + s.dstCap.toNat ≤ 2 ^ s.cfg.addrW) : operandsOutOfRange s = false := by
  rw [← Bool.not_eq_true, operandsOutOfRange_eq_true_iff, not_or, Nat.not_lt, Nat.not_lt]
  exact ⟨hs, hd⟩

/-- ENCODE checks its ranges first (R170). -/
theorem execEncode_of_range (h : operandsOutOfRange s = true) : execEncode s = .next (endedWith .range s) := by
  rw [← raiseError_accept (by decide)]
  exact if_pos h

/-- With its ranges right, ENCODE checks its capacity (R170). -/
theorem execEncode_of_dstSmall (hr : operandsOutOfRange s = false) (hc : s.dstCap.toNat < encodedLen s.srcLen.toNat) :
    execEncode s = .next (endedWith .dstSmall s) := by
  rw [← raiseError_accept (by decide)]
  exact (if_neg (by simp [hr])).trans (if_pos hc)

/-- The state in which an accepted ENCODE begins to run (R171). -/
def encodeStart (s : State) : State := startEngine (initEncoder (latch opEncode (accept s)))

/-- With its ranges and its capacity right, ENCODE is accepted (R170, R171). -/
theorem execEncode_of_room (hr : operandsOutOfRange s = false) (hc : encodedLen s.srcLen.toNat ≤ s.dstCap.toNat) :
    execEncode s = .next (encodeStart s) :=
  (if_neg (by simp [hr])).trans (if_neg (Nat.not_lt.2 hc))

end

/-- Settles O21: the two checks of `execEncode` in their order, and the fields of the state it starts in. -/
theorem encodeAcceptance : Obligations.EncodeAcceptance := fun s =>
  ⟨fun h => execEncode_of_range ((operandsOutOfRange_eq_true_iff s).2 h),
    fun hs hd hc => execEncode_of_dstSmall (operandsOutOfRange_of_le hs hd) hc,
    fun hs hd hc => ⟨_, execEncode_of_room (operandsOutOfRange_of_le hs hd) hc, rfl, rfl, rfl, rfl, rfl, rfl, rfl, rfl,
      rfl, rfl, rfl, rfl, rfl⟩⟩

/-! ## ENCODE's engine steps -/

section
variable {s : State}

/-- The engine's step on a written source byte of a running ENCODE (R172, R173). -/
theorem engineStep_of_byte {b : Byte} (hop : s.lOp = opEncode) (hidx : s.idx < s.lLen.toNat)
    (hb : Memory.read s.byteMem (srcAddr s) = some b) :
    engineStep s = .next (if encodeNeed s ≤ 8 then encodeEmit b s else encodeFold b s) := by
  rw [engineStep, if_pos hop, encodeStep, if_pos hidx, encodeByteStep, hb]

/-- The engine's step when ENCODE has read its whole source (R174). -/
theorem engineStep_of_end (hop : s.lOp = opEncode) (hidx : s.idx = s.lLen.toNat) :
    engineStep s = .next (encodeFinal s) := by
  rw [engineStep, if_pos hop, encodeStep, if_neg (by omega), if_pos hidx]

/-! ### A byte that completes a group -/

/-- A byte completes a group when at least 3 bits are held (R172). -/
theorem encodeNeed_le_iff (s : State) : encodeNeed s ≤ 8 ↔ 3 ≤ s.encRem.toNat := by
  unfold encodeNeed
  omega

/-- `8 - need` bits are held after a byte that completes a group (R172). -/
theorem encodeEmit_encRem_toNat (b : Byte) (s : State) : (encodeEmit b s).encRem.toNat = 8 - encodeNeed s := by
  simp only [encodeEmit, advance_encRem, setStage_encRem, BitVec.toNat_ofNat]
  omega

/-- They are the byte's low bits (R172). -/
theorem encodeEmit_encStage_toNat (b : Byte) (s : State) :
    (encodeEmit b s).encStage.toNat = b.toNat % 2 ^ (8 - encodeNeed s) := by
  have hlt : b.toNat % 2 ^ (8 - encodeNeed s) < 2 ^ 11 := (Nat.mod_le _ _).trans_lt (by omega)
  simp only [encodeEmit, advance_encStage, setStage_encStage, BitVec.toNat_ofNat, mask, Nat.and_two_pow_sub_one_eq_mod]
  exact Nat.mod_eq_of_lt hlt

/-- The index formed from the accumulator and the top bits of the byte, in arithmetic (R172). -/
theorem formedIndex_eq (hneed : encodeNeed s ≤ 8) (b : Byte) :
    (s.encStage.toNat <<< encodeNeed s) ||| (b.toNat >>> (8 - encodeNeed s))
      = s.encStage.toNat * 2 ^ encodeNeed s + b.toNat / 2 ^ (8 - encodeNeed s) := by
  rw [Nat.shiftRight_eq_div_pow, ← Nat.shiftLeft_add_eq_or_of_lt (byte_div_lt b hneed), Nat.shiftLeft_eq]

/-- The formed index selects an entry of the primary table (R172, R176). -/
theorem EncodeInv.formedIndex_lt (h : EncodeInv s) (b : Byte) :
    (s.encStage.toNat <<< encodeNeed s) ||| (b.toNat >>> (8 - encodeNeed s)) < 2048 := by
  obtain ⟨-, hrem, hstage, -⟩ := h
  have hwidth : 2 ^ s.encRem.toNat * 2 ^ encodeNeed s = 2 ^ 11 := by
    rw [← Nat.pow_add, encodeNeed, Nat.add_sub_of_le (by omega)]
  have hshift : s.encStage.toNat <<< encodeNeed s < 2 ^ 11 := by
    rw [Nat.shiftLeft_eq, ← hwidth]
    exact Nat.mul_lt_mul_of_pos_right hstage (Nat.two_pow_pos _)
  have htop : b.toNat >>> (8 - encodeNeed s) < 2 ^ 11 := (Nat.shiftRight_le _ _).trans_lt (by omega)
  exact Nat.or_lt_two_pow hshift htop

/-- The index formed loses no bits in its 11-bit register (R172, R176). -/
theorem EncodeInv.encodeIndex_toNat (h : EncodeInv s) (b : Byte) :
    (encodeIndex b s).toNat = (s.encStage.toNat <<< encodeNeed s) ||| (b.toNat >>> (8 - encodeNeed s)) := by
  rw [encodeIndex, BitVec.toNat_ofNat]
  exact Nat.mod_eq_of_lt (h.formedIndex_lt b)

/-- The primary symbol of an index given as a number (R151). -/
theorem symbolP_eq_get (s : State) {v : BitVec 11} {n : Nat} (hv : v.toNat = n) (hn : n < 2048) :
    symbolP s v = s.actP.get ⟨n, hn⟩ := by
  subst hv
  rfl

/-! ### A byte that completes no group -/

/-- `8` more bits are held after a byte that completes no group (R173). -/
theorem encodeFold_encRem_toNat (hrem : s.encRem.toNat ≤ 2) (b : Byte) :
    (encodeFold b s).encRem.toNat = s.encRem.toNat + 8 := by
  simp only [encodeFold, advance_encRem, setStage_encRem, BitVec.toNat_ofNat]
  omega

/-- The accumulator takes the byte in below its own bits (R173). -/
theorem EncodeInv.encodeFold_encStage_toNat (h : EncodeInv s) (hrem : s.encRem.toNat ≤ 2) (b : Byte) :
    (encodeFold b s).encStage.toNat = s.encStage.toNat * 256 + b.toNat := by
  have hstage : s.encStage.toNat < 2 ^ 2 := h.stage_lt.trans_le (Nat.pow_le_pow_right (by decide) hrem)
  simp only [encodeFold, advance_encStage, setStage_encStage, BitVec.toNat_ofNat]
  rw [← Nat.shiftLeft_add_eq_or_of_lt b.isLt, Nat.shiftLeft_eq]
  omega

end

/-- Settles O22: the byte is taken in by `encodeEmit`, whose formed index and kept bits are those stated. -/
theorem encodeByteCompletesGroup : Obligations.EncodeByteCompletesGroup := by
  intro s b hinv ⟨hbusy, hop⟩ hidx hb hrem
  have henc := (hinv.running hbusy).encode hop
  have hneed := (encodeNeed_le_iff s).2 hrem
  refine ⟨encodeEmit b s, (engineStep_of_byte hop hidx hb).trans (by rw [if_pos hneed]), henc.formedIndex_lt b,
    ?_, fun a ha => Memory.read_write_other ha, fun _ => rfl, rfl, rfl, hbusy, encodeEmit_encRem_toNat b s,
    encodeEmit_encStage_toNat b s⟩
  exact (Memory.read_write_same _ _ _).trans
    (congrArg some (symbolP_eq_get s (henc.encodeIndex_toNat b) (henc.formedIndex_lt b)))

/-- Settles O23: the byte is taken in by `encodeFold`, which emits no symbol. -/
theorem encodeByteFolds : Obligations.EncodeByteFolds := by
  intro s b hinv ⟨hbusy, hop⟩ hidx hb hrem
  have henc := (hinv.running hbusy).encode hop
  have hneed : ¬ encodeNeed s ≤ 8 := by rw [encodeNeed_le_iff]; omega
  exact ⟨encodeFold b s, (engineStep_of_byte hop hidx hb).trans (by rw [if_neg hneed]),
    henc.encodeFold_encStage_toNat hrem b, encodeFold_encRem_toNat hrem b, rfl, rfl, hbusy, fun _ => rfl, fun _ => rfl⟩

/-! ### The final step -/

section
variable {s : State}

/-- With no bits left over no symbol is written (R174). -/
theorem encodeTail_of_none (h : s.encRem.toNat = 0) : encodeTail s = s := if_pos h

/-- 1 to 3 bits left over go to the trailing table (R174, R180). -/
theorem encodeTail_of_trailing (h0 : s.encRem.toNat ≠ 0) (h3 : s.encRem.toNat ≤ 3) :
    encodeTail s = emitSymbol (symbolT s (s.encStage.setWidth 3)) s :=
  (if_neg h0).trans (if_pos h3)

/-- 4 or more bits left over go to the primary table (R174, R180). -/
theorem encodeTail_of_primary (h3 : 3 < s.encRem.toNat) : encodeTail s = emitSymbol (symbolP s s.encStage) s :=
  (if_neg (by omega)).trans (if_neg (by omega))

/-- Left-over bits are written as one symbol, whatever their number (R174). -/
theorem exists_encodeTail_eq_emitSymbol (h : s.encRem.toNat ≠ 0) : ∃ c, encodeTail s = emitSymbol c s := by
  by_cases h3 : s.encRem.toNat ≤ 3
  · exact ⟨_, encodeTail_of_trailing h h3⟩
  · exact ⟨_, encodeTail_of_primary (by omega)⟩

/-- The final symbol counts as one when bits are left over (R174). -/
theorem encodeTail_out (s : State) : (encodeTail s).out = s.out + if s.encRem.toNat = 0 then 0 else 1 := by
  split
  · next h0 => rw [encodeTail_of_none h0]; rfl
  · next h0 =>
    obtain ⟨c, hc⟩ := exists_encodeTail_eq_emitSymbol h0
    rw [hc, emitSymbol_out]

/-- The count of symbols fits RESULT: the capacity check of R170 bounds it (R174, R69). -/
theorem EncodeInv.encodeFinal_result_toNat (h : EncodeInv s) (hidx : s.idx = s.lLen.toNat) :
    (encodeFinal s).result.toNat = (encodeTail s).out := by
  have hlen := s.lLen.isLt
  have hcap := s.lCap.isLt
  have hbits := h.bits
  have hlt : (encodeTail s).out < 2 ^ 32 := by
    rw [encodeTail_out]
    split
    · omega
    · have := h.out_lt_cap (by omega)
      omega
  exact (BitVec.toNat_ofNat _ _).trans (Nat.mod_eq_of_lt hlt)

/-- The trailing symbol of an index given as a number (R151). -/
theorem symbolT_eq_get (s : State) {v : BitVec 3} {n : Nat} (hv : v.toNat = n) (hn : n < 8) :
    symbolT s v = s.actT.get ⟨n, hn⟩ := by
  subst hv
  rfl

/-- The final step leaves the bytes, ERR and ERR_POS as they are (R174). -/
theorem encodeFinal_keeps (s : State) : (encodeFinal s).byteMem = s.byteMem ∧ (encodeFinal s).err = s.err
    ∧ (encodeFinal s).errPos = s.errPos := by
  unfold encodeFinal encodeTail
  split_ifs <;> exact ⟨rfl, rfl, rfl⟩

end

/-- Settles O24: `encodeTail` in its three cases, and RESULT its count of symbols. -/
theorem encodeFinalSymbol : Obligations.EncodeFinalSymbol := by
  intro s hinv ⟨hbusy, hop⟩ hidx
  have henc := (hinv.running hbusy).encode hop
  have hresult := henc.encodeFinal_result_toNat hidx
  obtain ⟨hbytes, herr, -⟩ := encodeFinal_keeps s
  refine ⟨encodeFinal s, engineStep_of_end hop hidx, rfl, herr.trans (hinv.err_of_busy hbusy), fun h0 => ?_,
    fun hne => ?_⟩
  · rw [hresult, encodeFinal, encodeTail_of_none (by simp [h0])]
    exact ⟨rfl, rfl, fun _ => rfl, fun _ => rfl⟩
  · have h0 : s.encRem.toNat ≠ 0 := by simpa [← BitVec.toNat_inj] using hne
    obtain ⟨c, hc⟩ := exists_encodeTail_eq_emitSymbol h0
    refine ⟨by rw [hresult, hc]; rfl, by rw [encodeFinal, hc]; rfl, fun a ha => ?_, fun a => by rw [hbytes],
      fun h3 => ?_, fun h4 => ?_⟩
    · rw [encodeFinal, hc]
      exact Memory.read_write_other ha
    · have hlt : s.encStage.toNat < 2 ^ 3 := henc.stage_lt.trans_le (Nat.pow_le_pow_right (by decide) h3)
      have hv : (s.encStage.setWidth 3).toNat = s.encStage.toNat :=
        (BitVec.toNat_setWidth _ _).trans (Nat.mod_eq_of_lt hlt)
      rw [encodeFinal, encodeTail_of_trailing h0 h3]
      exact ⟨hlt, (Memory.read_write_same _ _ _).trans (congrArg some (symbolT_eq_get s hv hlt))⟩
    · rw [encodeFinal, encodeTail_of_primary (by omega)]
      exact ⟨s.encStage.isLt, Memory.read_write_same _ _ _⟩

/-! ## The symbols of `ENC(b)` -/

section
variable {p : Table Symbol 2048} {bs : List Byte} {b : Byte}

/-- The symbols of a stream's whole groups of 11 bits: `ENC(b)` without its final symbol (R181). -/
def groupSymbols (p : Table Symbol 2048) (bs : List Byte) : List Symbol :=
  (List.range (8 * bs.length / 11)).map fun k => p.get (Fin.ofNat 2048 (streamBits bs (11 * k) 11))

/-- `ENC(b)` is its whole groups, then the left-over bits (R181). -/
theorem encodedSymbols_eq (p : Table Symbol 2048) (q : Table Symbol 8) (bs : List Byte) :
    encodedSymbols p q bs = groupSymbols p bs
      ++ lastSymbols p q (streamBits bs (11 * (8 * bs.length / 11)) (8 * bs.length % 11)) (8 * bs.length % 11) :=
  rfl

@[simp] theorem groupSymbols_length (p : Table Symbol 2048) (bs : List Byte) :
    (groupSymbols p bs).length = 8 * bs.length / 11 := by
  simp [groupSymbols]

@[simp] theorem lastSymbols_length (p : Table Symbol 2048) (q : Table Symbol 8) (v r : Nat) :
    (lastSymbols p q v r).length = if r = 0 then 0 else 1 := by
  unfold lastSymbols
  split_ifs <;> rfl

/-- `ENC(b)` has `encoded_len(n)` symbols (R241). -/
theorem encodedSymbols_length (p : Table Symbol 2048) (q : Table Symbol 8) (bs : List Byte) :
    (encodedSymbols p q bs).length = encodedLen bs.length := by
  rw [encodedSymbols_eq, List.length_append, groupSymbols_length, lastSymbols_length, encodedLen]
  split <;> omega

/-- The first groups of a stream do not depend on a byte behind them. -/
theorem map_groups_append (p : Table Symbol 2048) (bs : List Byte) (b : Byte) :
    (List.range (8 * bs.length / 11)).map (fun k => p.get (Fin.ofNat 2048 (streamBits (bs ++ [b]) (11 * k) 11)))
      = groupSymbols p bs := by
  refine List.map_congr_left fun k hk => ?_
  have := List.mem_range.1 hk
  rw [streamBits_append_of_le (by omega)]

/-- A byte that completes no group adds no symbol. -/
theorem groupSymbols_append_of_eq (h : 8 * (bs ++ [b]).length / 11 = 8 * bs.length / 11) :
    groupSymbols p (bs ++ [b]) = groupSymbols p bs := by
  rw [← map_groups_append p bs b, groupSymbols, h]

/-- A byte that completes a group adds that group's symbol. -/
theorem groupSymbols_append_of_succ (h : 8 * (bs ++ [b]).length / 11 = 8 * bs.length / 11 + 1) :
    groupSymbols p (bs ++ [b])
      = groupSymbols p bs ++ [p.get (Fin.ofNat 2048 (streamBits (bs ++ [b]) (11 * (8 * bs.length / 11)) 11))] := by
  rw [← map_groups_append p bs b, groupSymbols, h, List.range_succ, List.map_append, List.map_singleton]

end

/-! ## Runs of elements and runs of steps -/

/-- Two runs of writes, one behind the other, are one run. -/
theorem Memory.writeRun_append {α : Type} (m : Memory α) (a : Nat) (xs ys : List α) :
    Memory.writeRun m a (xs ++ ys) = Memory.writeRun (Memory.writeRun m a xs) (a + xs.length) ys := by
  induction xs generalizing m a with
  | nil => simp
  | cons x xs ih => simp [ih, Nat.add_right_comm, Nat.add_assoc]

/-- A run of elements reads as it was written. -/
theorem Memory.readRun_writeRun {α : Type} (m : Memory α) (a : Nat) (xs : List α) :
    Memory.readRun (Memory.writeRun m a xs) a xs.length = some xs :=
  Memory.readRun_eq_some.2 ⟨rfl, fun _ hi => Memory.read_writeRun_inside hi⟩

/-- A run of any core that goes on: its first step, then the others. -/
theorem run_succ_eq_next (M : Host.Core) {k : Nat} {s u : M.State} :
    M.run (k + 1) s = .next u ↔ ∃ m, M.step s = .next m ∧ M.run k m = .next u := by
  rw [Host.Core.run]
  cases M.step s <;> simp

/-- A run of steps that goes on: its first step, then the others. -/
theorem runSteps_succ_eq_next {k : Nat} {s u : State} :
    runSteps (k + 1) s = .next u ↔ ∃ m, step s = .next m ∧ runSteps k m = .next u :=
  run_succ_eq_next Sys2Proof.core

/-- A run of steps followed by one more. -/
theorem runSteps_succ_of_step {k : Nat} {s m u : State} (h : runSteps k s = .next m) (hm : step m = .next u) :
    runSteps (k + 1) s = .next u := by
  induction k generalizing s with
  | zero =>
    cases h
    exact runSteps_succ_eq_next.2 ⟨u, hm, rfl⟩
  | succ k ih =>
    obtain ⟨s', hs, h⟩ := runSteps_succ_eq_next.1 h
    exact runSteps_succ_eq_next.2 ⟨s', hs, ih h⟩

/-! ## A whole run of ENCODE -/

/-- The encoder of `s` has taken in the bytes `bs`: its accumulator holds the bits of the stream from the last whole
group on (R176, R179). -/
structure TakenIn (bs : List Byte) (s : State) : Prop where
  counts : EncodeInv s
  idx_eq : s.idx = bs.length
  stage_eq : s.encStage.toNat = streamBits bs (11 * s.out) s.encRem.toNat

section
variable {s : State} {bs : List Byte}

/-- The bits written and the bits held are the bits taken in (R177). -/
theorem TakenIn.bits (h : TakenIn bs s) : 11 * s.out + s.encRem.toNat = 8 * bs.length := by
  rw [h.counts.bits, h.idx_eq]

/-- OUT counts the whole groups taken in (R177). -/
theorem TakenIn.out_eq (h : TakenIn bs s) : s.out = 8 * bs.length / 11 := by
  have := h.bits
  have := h.counts.rem_le
  omega

/-- ENC_REM counts the bits behind them (R177). -/
theorem TakenIn.rem_eq (h : TakenIn bs s) : s.encRem.toNat = 8 * bs.length % 11 := by
  have := h.bits
  have := h.counts.rem_le
  omega

/-- The index formed from a byte is the next group of the stream (R172, R181). -/
theorem TakenIn.encodeIndex_toNat (h : TakenIn bs s) (b : Byte) (hneed : encodeNeed s ≤ 8) :
    (encodeIndex b s).toNat = streamBits (bs ++ [b]) (11 * s.out) 11 := by
  have hgroup : s.encRem.toNat + encodeNeed s = 11 := Nat.add_sub_of_le (h.counts.rem_le.trans (by decide))
  have hformed := streamBits_append_of_eq (b := b) h.bits hneed
  rw [hgroup] at hformed
  rw [h.counts.encodeIndex_toNat, formedIndex_eq hneed, h.stage_eq, hformed]

/-- A byte that completes a group is taken in (R172). -/
theorem TakenIn.after_emit (h : TakenIn bs s) (b : Byte) (hneed : encodeNeed s ≤ 8) :
    TakenIn (bs ++ [b]) (encodeEmit b s) where
  counts := h.counts.after_emit b hneed
  idx_eq := by simpa [encodeEmit] using h.idx_eq
  stage_eq := by
    have hout : (encodeEmit b s).out = s.out + 1 := rfl
    have hbits := (h.counts.after_emit b hneed).bits
    have hidx : (encodeEmit b s).idx = bs.length + 1 := congrArg (· + 1) h.idx_eq
    have hrem := encodeEmit_encRem_toNat b s
    rw [encodeEmit_encStage_toNat, ← hrem, streamBits_append_low (by omega) (by omega)]

/-- A byte that completes no group is taken in (R173). -/
theorem TakenIn.after_fold (h : TakenIn bs s) (b : Byte) (hneed : ¬ encodeNeed s ≤ 8) :
    TakenIn (bs ++ [b]) (encodeFold b s) where
  counts := h.counts.after_fold b hneed
  idx_eq := by simpa [encodeFold] using h.idx_eq
  stage_eq := by
    have hrem : s.encRem.toNat ≤ 2 := by rw [encodeNeed_le_iff] at hneed; omega
    have hout : (encodeFold b s).out = s.out := rfl
    rw [h.counts.encodeFold_encStage_toNat hrem, encodeFold_encRem_toNat hrem, hout,
      streamBits_append_of_eq h.bits (Nat.le_refl 8), h.stage_eq, Nat.sub_self, Nat.pow_zero, Nat.div_one]
    rfl

/-- The primary symbol of an index, as an entry of `ENC(b)` names it (R151, R181). -/
theorem symbolP_eq_get_ofNat (s : State) (v : BitVec 11) : symbolP s v = s.actP.get (Fin.ofNat 2048 v.toNat) :=
  symbolP_eq_get s (Nat.mod_eq_of_lt v.isLt).symm _

/-- The trailing symbol of an accumulator, as an entry of `ENC(b)` names it (R151, R181). -/
theorem symbolT_setWidth_eq_get_ofNat (s : State) (v : BitVec 11) :
    symbolT s (v.setWidth 3) = s.actT.get (Fin.ofNat 8 v.toNat) :=
  symbolT_eq_get s (BitVec.toNat_setWidth _ _) _

/-- The final step writes the left-over bits' symbols behind those written so far (R174, R181). -/
theorem encodeTail_symMem (s : State) : (encodeTail s).symMem = Memory.writeRun s.symMem (dstAddr s)
    (lastSymbols s.actP s.actT s.encStage.toNat s.encRem.toNat) := by
  unfold encodeTail lastSymbols
  split_ifs
  · simp
  · simp [symbolT_setWidth_eq_get_ofNat]
  · simp [symbolP_eq_get_ofNat]

end

/-- `Encoding t bs m`: an ENCODE that started in `t` has taken in the bytes `bs` and written their whole groups, and is
now in `m`, still running (R179). -/
structure Encoding (t : State) (bs : List Byte) (m : State) : Prop where
  takenIn : TakenIn bs m
  kept : engineKept m = engineKept t
  busy : m.engine = .busy
  noError : m.err = .none ∧ m.errPos = 0
  byteMem_eq : m.byteMem = t.byteMem
  symMem_eq : m.symMem = Memory.writeRun t.symMem t.lDst.toNat (groupSymbols t.actP bs)

section
variable {t m : State} {bs : List Byte}

/-- A running ENCODE has kept the frame of its steps. -/
theorem Encoding.frame (h : Encoding t bs m) : EngineFrame t m := by
  have hk := h.kept
  simp only [engineKept, State.mk.injEq] at hk
  constructor <;> simp [SameOperands, SameLatches, SameActive, SameStaging, SameHostSide, SameLast, hk]

/-- An accepted ENCODE starts with no byte taken in (R171). -/
theorem encoding_encodeStart {s : State} (hroom : encodedLen s.srcLen.toNat ≤ s.dstCap.toNat) :
    Encoding (encodeStart s) [] (encodeStart s) where
  takenIn := { counts := { encodeInv_initEncoder hroom with }, idx_eq := rfl, stage_eq := rfl }
  kept := rfl
  busy := rfl
  noError := ⟨rfl, rfl⟩
  byteMem_eq := rfl
  symMem_eq := rfl

/-- A byte that completes a group: its symbol is the next one of `ENC(b)` (R172, R181). -/
theorem Encoding.after_emit (h : Encoding t bs m) (b : Byte) (hneed : encodeNeed m ≤ 8) :
    Encoding t (bs ++ [b]) (encodeEmit b m) where
  takenIn := h.takenIn.after_emit b hneed
  kept := by simpa [engineKept, encodeEmit] using h.kept
  busy := h.busy
  noError := h.noError
  byteMem_eq := h.byteMem_eq
  symMem_eq := by
    have hout : m.out = 8 * bs.length / 11 := h.takenIn.out_eq
    have hnext : m.out + 1 = 8 * (bs ++ [b]).length / 11 := (h.takenIn.after_emit b hneed).out_eq
    obtain ⟨hP, -⟩ := h.frame.active
    obtain ⟨-, -, -, hdst, -⟩ := h.frame.latches
    have hgroup : symbolP m (encodeIndex b m)
        = t.actP.get (Fin.ofNat 2048 (streamBits (bs ++ [b]) (11 * m.out) 11)) := by
      rw [symbolP_eq_get_ofNat, h.takenIn.encodeIndex_toNat b hneed, hP]
    rw [groupSymbols_append_of_succ (by omega), Memory.writeRun_append, ← h.symMem_eq, groupSymbols_length, ← hout,
      ← hgroup, ← hdst, Memory.writeRun_cons, Memory.writeRun_nil]
    simp [encodeEmit, dstAddr]

/-- A byte that completes no group: nothing is written (R173, R181). -/
theorem Encoding.after_fold (h : Encoding t bs m) (b : Byte) (hneed : ¬ encodeNeed m ≤ 8) :
    Encoding t (bs ++ [b]) (encodeFold b m) where
  takenIn := h.takenIn.after_fold b hneed
  kept := by simpa [engineKept, encodeFold] using h.kept
  busy := h.busy
  noError := h.noError
  byteMem_eq := h.byteMem_eq
  symMem_eq := by
    have hout : m.out = 8 * bs.length / 11 := h.takenIn.out_eq
    have hnext : m.out = 8 * (bs ++ [b]).length / 11 := (h.takenIn.after_fold b hneed).out_eq
    rw [groupSymbols_append_of_eq (hnext.symm.trans hout)]
    exact h.symMem_eq

/-- With no fault and no host operation, a running ENCODE's step is the engine's (R133). -/
theorem Encoding.step_eq (h : Encoding t bs m) (hf : t.faulted = []) (ho : t.ops = []) : step m = engineStep m := by
  obtain ⟨-, hops, -, -, hfaulted⟩ := h.frame.hostSide
  exact step_engine (hfaulted.trans hf) ((busy_iff m).2 h.busy) (hops.trans ho)

/-- After the final step the symbols of `ENC(b)` stand at the destination (R174, R181). -/
theorem Encoding.encodeFinal_symMem (h : Encoding t bs m) :
    (encodeFinal m).symMem = Memory.writeRun t.symMem t.lDst.toNat (encodedSymbols t.actP t.actT bs) := by
  obtain ⟨hP, hT⟩ := h.frame.active
  obtain ⟨-, -, -, hdst, -⟩ := h.frame.latches
  calc (encodeFinal m).symMem
      = Memory.writeRun m.symMem (dstAddr m) (lastSymbols m.actP m.actT m.encStage.toNat m.encRem.toNat) :=
        encodeTail_symMem m
    _ = _ := by
      rw [encodedSymbols_eq, Memory.writeRun_append, ← h.symMem_eq, groupSymbols_length, h.takenIn.stage_eq,
        h.takenIn.rem_eq, dstAddr, hdst, h.takenIn.out_eq, hP, hT]

/-- After the final step RESULT is `encoded_len(n)` (R174, R241). -/
theorem Encoding.encodeFinal_result (h : Encoding t bs m) (hlen : bs.length = t.lLen.toNat) :
    (encodeFinal m).result.toNat = encodedLen bs.length := by
  obtain ⟨-, -, hlen', -, -⟩ := h.frame.latches
  rw [h.takenIn.counts.encodeFinal_result_toNat (by rw [h.takenIn.idx_eq, hlen, hlen']), encodeTail_out,
    h.takenIn.out_eq, h.takenIn.rem_eq, encodedLen]
  split <;> omega

variable (hop : t.lOp = opEncode)
include hop

/-- An engine step with a written source byte left takes that byte in (R172, R173). -/
theorem Encoding.engineStep_byte (h : Encoding t bs m) {b : Byte} (hlt : bs.length < t.lLen.toNat)
    (hb : Memory.read t.byteMem (t.lSrc.toNat + bs.length) = some b) :
    ∃ m', engineStep m = .next m' ∧ Encoding t (bs ++ [b]) m' := by
  obtain ⟨hopm, hsrc, hlen, -, -⟩ := h.frame.latches
  have hidx := h.takenIn.idx_eq
  refine ⟨_, engineStep_of_byte (b := b) (hopm.trans hop) (by rwa [hidx, hlen]) ?_, ?_⟩
  · rwa [srcAddr, hsrc, hidx, h.byteMem_eq]
  · split
    · next hneed => exact h.after_emit b hneed
    · next hneed => exact h.after_fold b hneed

/-- The first `k` engine steps take in the first `k` source bytes (R179). -/
theorem Encoding.run {src : List Byte} (h : Encoding t [] t) (hf : t.faulted = []) (ho : t.ops = [])
    (hsrc : Memory.readRun t.byteMem t.lSrc.toNat t.lLen.toNat = some src) {k : Nat} (hk : k ≤ src.length) :
    ∃ m, runSteps k t = .next m ∧ Encoding t (src.take k) m := by
  induction k with
  | zero => exact ⟨t, rfl, h⟩
  | succ k ih =>
    obtain ⟨m, hrun, hm⟩ := ih (by omega)
    obtain ⟨hlen, hread⟩ := Memory.readRun_eq_some.1 hsrc
    have htake : (src.take k).length = k := List.length_take_of_le (by omega)
    obtain ⟨m', hstep, hm'⟩ := hm.engineStep_byte hop (b := src[k]) (by omega) (by rw [htake]; exact hread k hk)
    rw [← List.take_succ_eq_append_getElem hk] at hm'
    exact ⟨m', runSteps_succ_of_step hrun ((hm.step_eq hf ho).trans hstep), hm'⟩

/-- When the whole source is taken in, the engine's step is the final one (R174). -/
theorem Encoding.engineStep_end (h : Encoding t bs m) (hlen : bs.length = t.lLen.toNat) :
    engineStep m = .next (encodeFinal m) := by
  obtain ⟨hopm, -, hlen', -, -⟩ := h.frame.latches
  exact engineStep_of_end (hopm.trans hop) (by rw [h.takenIn.idx_eq, hlen, hlen'])

end

/-- Settles O25: the run takes in the source byte by byte, and the final step writes the left-over bits' symbol. -/
theorem encodeRunWritesEncodedSymbols : Obligations.EncodeRunWritesEncodedSymbols := by
  intro s src hf ho hs hd hroom hsrc
  have hlen : src.length = s.srcLen.toNat := (Memory.readRun_eq_some.1 hsrc).1
  have run {k : Nat} (hk : k ≤ src.length) := (encoding_encodeStart hroom).run rfl hf ho hsrc hk
  obtain ⟨m, hrun, hm⟩ := run (Nat.le_refl _)
  rw [List.take_length] at hm
  have hstep : step m = .next (encodeFinal m) := (hm.step_eq hf ho).trans (hm.engineStep_end rfl hlen)
  have hsym := hm.encodeFinal_symMem
  obtain ⟨hbytes, herr, hpos⟩ := encodeFinal_keeps m
  have haccept := execEncode_of_room (operandsOutOfRange_of_le hs hd) hroom
  refine ⟨encodeStart s, encodeFinal m, haccept, ?_, fun k hk => ?_, rfl, herr.trans hm.noError.1,
    hpos.trans hm.noError.2, hm.encodeFinal_result hlen, ?_, fun a ha => ?_, fun a => ?_⟩
  · rw [← hlen]
    exact runSteps_succ_of_step hrun hstep
  · obtain ⟨m', hrun', hm'⟩ := run (hk.trans_eq hlen.symm)
    exact ⟨m', hrun', hm'.busy⟩
  · rw [hsym, ← encodedSymbols_length s.actP s.actT]
    exact Memory.readRun_writeRun _ _ _
  · rw [← encodedSymbols_length s.actP s.actT] at ha
    rw [hsym]
    exact Memory.read_writeRun_outside ha
  · rw [hbytes, hm.byteMem_eq]
    rfl

end Sys2Proof.Machine

/-! PROOFS. DECODE: its acceptance, its symbol steps and its final step, each by what it does to the accumulator; a
whole run, in which the bytes written and the accumulator are the two ends of one bit stream; and the function of
43_decode.md R221 on what ENCODE writes and on sources with whitespace in them. -/

namespace Sys2Proof.Machine

/-! ## DECODE's acceptance -/

/-- One pass: nothing is found when nothing was found before and every symbol is whitespace. -/
theorem lastNonWsFrom_eq_none {l : List Symbol} {i : Nat} {best : Option Nat} :
    lastNonWsFrom l i best = none ↔ best = none ∧ ∀ c ∈ l, isWs c = true := by
  induction l generalizing i best with
  | nil => simp [lastNonWsFrom]
  | cons x xs ih =>
    rw [lastNonWsFrom, ih, List.forall_mem_cons]
    cases isWs x <;> simp

/-- No last symbol is found exactly when every symbol is whitespace (R201). -/
theorem lastNonWs_eq_none {src : List Symbol} : lastNonWs src = none ↔ ∀ c ∈ src, isWs c = true := by
  simp [lastNonWs, lastNonWsFrom_eq_none]

section
variable {s : State}

/-- DECODE checks its ranges first (R200). -/
theorem execDecode_of_range (h : operandsOutOfRange s = true) : execDecode s = .next (endedWith .range s) := by
  rw [← raiseError_accept (by decide)]
  exact if_pos h

/-- With its ranges right, DECODE checks its capacity (R200). -/
theorem execDecode_of_dstSmall (hr : operandsOutOfRange s = false) (hc : s.dstCap.toNat < decodedLen s.srcLen.toNat) :
    execDecode s = .next (endedWith .dstSmall s) := by
  rw [← raiseError_accept (by decide)]
  exact (if_neg (by simp [hr])).trans (if_pos hc)

/-- The state in which a DECODE accepted with the source `src` begins to run (R201, R202). -/
def decodeStart (src : List Symbol) (s : State) : State :=
  startEngine (initDecoder (setLast src (latch opDecode (accept s))))

/-- Acceptance and the start of DECODE change no byte (R80). -/
@[simp] theorem decodeStart_byteMem (src : List Symbol) (s : State) : (decodeStart src s).byteMem = s.byteMem := by
  simp [decodeStart]

/-- Nor any symbol (R80). -/
@[simp] theorem decodeStart_symMem (src : List Symbol) (s : State) : (decodeStart src s).symMem = s.symMem := by
  simp [decodeStart]

/-- The destination is latched at acceptance (R36). -/
@[simp] theorem decodeStart_lDst (src : List Symbol) (s : State) : (decodeStart src s).lDst = s.dstBase := by
  simp [decodeStart]

/-- With its ranges and its capacity right and its source written, DECODE is accepted (R200 to R202). -/
theorem execDecode_of_room {src : List Symbol} (hr : operandsOutOfRange s = false)
    (hc : decodedLen s.srcLen.toNat ≤ s.dstCap.toNat)
    (hsrc : Memory.readRun s.symMem s.srcBase.toNat s.srcLen.toNat = some src) :
    execDecode s = .next (decodeStart src s) := by
  rw [execDecode, if_neg (by simp [hr]), if_neg (Nat.not_lt.2 hc), hsrc]
  rfl

end

/-- Settles O26: the two checks of `execDecode` in their order, the fields of the state it starts in, and the position
`lastNonWs` finds. -/
theorem decodeAcceptance : Obligations.DecodeAcceptance := by
  intro s
  refine ⟨fun h => execDecode_of_range ((operandsOutOfRange_eq_true_iff s).2 h),
    fun hs hd hc => execDecode_of_dstSmall (operandsOutOfRange_of_le hs hd) hc, fun src hs hd hc hsrc => ?_⟩
  refine ⟨_, execDecode_of_room (operandsOutOfRange_of_le hs hd) hc hsrc, rfl, rfl, rfl, rfl, rfl, rfl, rfl, rfl, rfl,
    rfl, rfl, rfl, rfl, rfl, fun hnone => ?_, fun hsome => ?_⟩
  · have hlast : lastNonWs src = none := by simpa [decodeStart] using hnone
    refine ⟨congrArg (Option.getD · 0) hlast, fun c hc => ?_⟩
    exact (isWs_eq_true_iff c).1 (lastNonWs_eq_none.1 hlast c hc)
  · obtain ⟨k, hlast⟩ := Option.isSome_iff_exists.1 hsome
    have hk : (decodeStart src s).decLast = k := congrArg (Option.getD · 0) hlast
    obtain ⟨c, hc, hws, hmax⟩ := lastNonWs_eq_some.1 hlast
    obtain ⟨hcr, hlf⟩ := (isWs_eq_false_iff c).1 hws
    rw [hk]
    exact ⟨c, hc, hcr, hlf, fun j d hj hd => (isWs_eq_true_iff d).1 (hmax j d hj hd)⟩

/-! ## DECODE's engine steps -/

section
variable {s : State} {c : Symbol}

/-- The engine's step on a source symbol of a running DECODE (R203, R204). -/
theorem engineStep_of_symbol (hop : s.lOp = opDecode) (hidx : s.idx < s.lLen.toNat)
    (hc : Memory.read s.symMem (srcAddr s) = some c) :
    engineStep s = .next (if isWs c then advance s else decodeSymbol c s) := by
  rw [engineStep, if_neg (by rw [hop]; decide), if_pos hop, decodeStep, if_pos hidx, decodeSymbolStep, hc]

/-- The engine's step on a source symbol that is not whitespace (R204). -/
theorem engineStep_of_nonWs (hop : s.lOp = opDecode) (hidx : s.idx < s.lLen.toNat)
    (hc : Memory.read s.symMem (srcAddr s) = some c) (hws : isWs c = false) :
    engineStep s = .next (decodeSymbol c s) := by
  rw [engineStep_of_symbol hop hidx hc, hws]
  rfl

/-- The engine's step when DECODE has read its whole source (R210). -/
theorem engineStep_of_source_end (hop : s.lOp = opDecode) (hidx : s.idx = s.lLen.toNat) :
    engineStep s = .next (decodeFinal s) := by
  rw [engineStep, if_neg (by rw [hop]; decide), if_pos hop, decodeStep, if_neg (by omega), if_pos hidx]

/-- OUT fits RESULT: the capacity check of R200 bounds it (R210, R214). -/
theorem DecodeInv.out_lt (h : DecodeInv s) (hidx : s.idx ≤ s.lLen.toNat) : s.out < 2 ^ 32 :=
  (h.out_le_cap hidx).trans_lt s.lCap.isLt

/-- RESULT after the final step is OUT (R210). -/
theorem DecodeInv.decodeFinal_result (h : DecodeInv s) (hidx : s.idx ≤ s.lLen.toNat) :
    (decodeFinal s).result.toNat = s.out :=
  (BitVec.toNat_ofNat _ _).trans (Nat.mod_eq_of_lt (h.out_lt hidx))

/-- A symbol that raises CORRUPT reports its position and the bytes written before it (R211). -/
theorem DecodeInv.corrupted (h : DecodeInv s) (hidx : s.idx < s.lLen.toNat) :
    Corrupted s (corruptHere (updateResidue s)) where
  engine_eq := rfl
  err_eq := rfl
  errPos_eq := (BitVec.toNat_ofNat _ _).trans (Nat.mod_eq_of_lt (hidx.trans s.lLen.isLt))
  result_eq := (BitVec.toNat_ofNat _ _).trans (Nat.mod_eq_of_lt (h.out_lt (Nat.le_of_lt hidx)))
  buffers := ⟨fun _ => rfl, fun _ => rfl⟩
  counters := ⟨rfl, rfl⟩

/-! ### What a symbol stands for -/

/-- A symbol of the primary table is decoded as one (R205). -/
theorem decodeSymbol_of_primary {v : BitVec 11} (h : primaryInverse s c = some v) :
    decodeSymbol c s = decodePrimary v (updateResidue s) := by
  rw [decodeSymbol, h]

/-- A symbol of the trailing table alone is decoded as a trailing one (R206). -/
theorem decodeSymbol_of_trailing {v : BitVec 3} (hp : primaryInverse s c = none) (h : trailingInverse s c = some v) :
    decodeSymbol c s = decodeTrailing v (updateResidue s) := by
  rw [decodeSymbol, hp, h]

/-- A symbol of neither table is corrupt (R207). -/
theorem decodeSymbol_of_unknown (hp : primaryInverse s c = none) (h : trailingInverse s c = none) :
    decodeSymbol c s = corruptHere (updateResidue s) := by
  rw [decodeSymbol, hp, h]

/-- A symbol step writes no symbol (R69). -/
theorem decodeSymbol_symMem (c : Symbol) (s : State) : (decodeSymbol c s).symMem = s.symMem := by
  obtain ⟨n, bits, hd, -⟩ | hd := decodeSymbol_cases c s <;> simp [hd, corruptHere]

/-- The bits of a primary symbol, by the residue after it (R204, R205). -/
theorem primaryBits_updateResidue (s : State) : primaryBits (updateResidue s)
    = if s.decHasLast && s.idx == s.decLast then 11 - (s.decRes.toNat + 11) % 8 else 11 := by
  simp [primaryBits, isLast]

/-- The bits of a trailing symbol do not depend on the residue (R206). -/
theorem trailingBits_updateResidue (s : State) : trailingBits (updateResidue s) = 8 - s.decRem.toNat := rfl

/-- A primary symbol whose value fits its bits is accumulated (R205). -/
theorem decodePrimary_of_lt {v : BitVec 11} (h : v.toNat < 2 ^ primaryBits s) :
    decodePrimary v s = advance (accumulate (primaryBits s) v.toNat s) :=
  if_pos h

/-- A trailing symbol that is the last one and fits its bits is accumulated (R206). -/
theorem decodeTrailing_of_last {v : BitVec 3} (hlast : isLast s = true) (h : v.toNat < 2 ^ trailingBits s) :
    decodeTrailing v s = advance (accumulate (trailingBits s) v.toNat s) :=
  if_pos (by simp [hlast, h])

/-- Any other trailing symbol is corrupt (R206). -/
theorem decodeTrailing_of_not {v : BitVec 3} (h : ¬ (isLast s = true ∧ v.toNat < 2 ^ trailingBits s)) :
    decodeTrailing v s = corruptHere s :=
  if_neg (by simpa using h)

/-! ### The accumulator -/

/-- The shifted accumulator holds the bits held and the `n` new ones below them (R208). -/
theorem DecodeInv.accShifted_eq (h : DecodeInv s) {n bits : Nat} (hbits : bits < 2 ^ n) :
    accShifted n bits s = s.decAcc.toNat * 2 ^ n + bits := by
  have hlt : s.decAcc.toNat * 2 ^ n + bits < 2 ^ accBits n s := by
    rw [accBits, Nat.pow_add]
    calc s.decAcc.toNat * 2 ^ n + bits
        < (s.decAcc.toNat + 1) * 2 ^ n := by rw [Nat.add_one_mul]; omega
      _ ≤ 2 ^ s.decRem.toNat * 2 ^ n := Nat.mul_le_mul_right _ h.acc_lt
  rw [accShifted, mask, Nat.and_two_pow_sub_one_eq_mod, ← Nat.shiftLeft_add_eq_or_of_lt hbits, Nat.shiftLeft_eq,
    Nat.mod_eq_of_lt hlt]

/-- A byte is the low 8 bits of a number, cut off or not. -/
theorem ofNat_and_byte (x : Nat) : BitVec.ofNat 8 (x &&& 0xFF) = BitVec.ofNat 8 x := by
  rw [show 0xFF = 2 ^ 8 - 1 from rfl, Nat.and_two_pow_sub_one_eq_mod, ← BitVec.toNat_inj]
  simp

/-- The bytes cut off a number, each by the bits below it (R208). -/
theorem cutBytes_eq_map (a m k : Nat) :
    cutBytes a m k = (List.range k).map fun j => BitVec.ofNat 8 (a / 2 ^ (m - 8 * (j + 1))) := by
  simp only [cutBytes, ofNat_and_byte, Nat.shiftRight_eq_div_pow]

/-- Fewer than 8 bits of the shifted accumulator are kept (R208). -/
theorem accumulate_decRem_toNat (n bits : Nat) (s : State) :
    (accumulate n bits s).decRem.toNat = (s.decRem.toNat + n) % 8 := by
  rw [accumulate_decRem, BitVec.toNat_ofNat, accBits]
  omega

/-- They are its low bits (R208). -/
theorem accumulate_decAcc_toNat (n bits : Nat) (s : State) :
    (accumulate n bits s).decAcc.toNat = accShifted n bits s % 2 ^ ((s.decRem.toNat + n) % 8) := by
  have hlt : accShifted n bits s % 2 ^ ((s.decRem.toNat + n) % 8) < 2 ^ 7 :=
    (Nat.mod_lt _ (Nat.two_pow_pos _)).trans_le (Nat.pow_le_pow_right (by decide) (by omega))
  rw [accumulate_decAcc, BitVec.toNat_ofNat, mask, Nat.and_two_pow_sub_one_eq_mod, accBits, Nat.mod_eq_of_lt hlt]

/-- The shifted accumulator does not depend on the residue (R208). -/
@[simp] theorem accShifted_updateResidue (n bits : Nat) (s : State) :
    accShifted n bits (updateResidue s) = accShifted n bits s := rfl

/-- Nor do the bytes an accumulation writes (R208). -/
@[simp] theorem accBytes_updateResidue (n bits : Nat) (s : State) :
    accBytes n bits (updateResidue s) = accBytes n bits s := rfl

/-- A symbol that is accumulated writes the whole bytes and keeps the rest (R208). -/
theorem accumulated_accumulate (n bits : Nat) (s : State) :
    Accumulated n (accShifted n bits s) s (advance (accumulate n bits (updateResidue s))) where
  out_eq := rfl
  rem_eq := accumulate_decRem_toNat n bits (updateResidue s)
  acc_eq := accumulate_decAcc_toNat n bits (updateResidue s)
  written j hj := by
    have hlen : j < (accBytes n bits (updateResidue s)).length := by rwa [accBytes_length]
    refine (Memory.read_writeRun_inside hlen).trans ?_
    simp [accBytes, cutBytes_eq_map, accShifted, accBits]
  kept b hb := Memory.read_writeRun_outside (by rw [accBytes_length]; exact hb)

end

/-- Settles O28: a whitespace symbol is `advance`. -/
theorem decodeSkipsWhitespace : Obligations.DecodeSkipsWhitespace := by
  intro s c ⟨_, hop⟩ hidx hc hws
  rw [engineStep_of_symbol hop hidx hc, if_pos ((isWs_eq_true_iff c).2 hws)]
  rfl

/-- Settles O33: the final step is `decodeFinal`, and OUT fits RESULT. -/
theorem decodeFinalStep : Obligations.DecodeFinalStep := by
  intro s hinv ⟨hbusy, hop⟩ hidx
  have hdec := (hinv.running hbusy).decode hop
  exact ⟨decodeFinal s, engineStep_of_source_end hop hidx, rfl, hinv.err_of_busy hbusy,
    hdec.decodeFinal_result (Nat.le_of_eq hidx), rfl⟩

/-- Settles O32: a symbol in neither table is `corruptHere`. -/
theorem decodeUnknownSymbolIsCorrupt : Obligations.DecodeUnknownSymbolIsCorrupt := by
  intro s c hinv ⟨hbusy, hop⟩ hidx hc hcr hlf hp hq
  have hstep := engineStep_of_nonWs hop hidx hc ((isWs_eq_false_iff c).2 ⟨hcr, hlf⟩)
  rw [decodeSymbol_of_unknown hp hq] at hstep
  exact ⟨_, hstep, ((hinv.running hbusy).decode hop).corrupted hidx⟩

/-- Settles O29: the symbol is accumulated with `primaryBits` bits. -/
theorem decodePrimarySymbol : Obligations.DecodePrimarySymbol := by
  intro s c v n hinv ⟨hbusy, hop⟩ hidx hc hcr hlf hp hn hv
  have hdec := (hinv.running hbusy).decode hop
  have hbits : primaryBits (updateResidue s) = n := (primaryBits_updateResidue s).trans hn.symm
  have hstep := engineStep_of_nonWs hop hidx hc ((isWs_eq_false_iff c).2 ⟨hcr, hlf⟩)
  rw [decodeSymbol_of_primary hp, decodePrimary_of_lt (by rwa [hbits]), hbits] at hstep
  refine ⟨_, hstep, ?_, by simp, by simp, by simpa using hbusy, by simp⟩
  rw [← hdec.accShifted_eq hv]
  exact accumulated_accumulate n v.toNat s

/-- Settles O30: the three branches of `decodePrimary` on a value too wide for its bits. -/
theorem decodeTooWidePrimary : Obligations.DecodeTooWidePrimary := by
  intro s c v n hinv ⟨hbusy, hop⟩ hidx hc hcr hlf hp hhas hlast hn hv
  have hdec := (hinv.running hbusy).decode hop
  have hbits : primaryBits (updateResidue s) = n := by simp [primaryBits_updateResidue, hhas, hlast, hn]
  have hwide : ¬ v.toNat < 2 ^ primaryBits (updateResidue s) := by rw [hbits]; omega
  have hsym := decodeSymbol_of_primary hp
  rw [decodePrimary, if_neg hwide, hbits] at hsym
  refine ⟨_, engineStep_of_nonWs hop hidx hc ((isWs_eq_false_iff c).2 ⟨hcr, hlf⟩),
    fun a => by rw [decodeSymbol_symMem], fun hfit => ?_, fun hfit => ?_, fun hfit => ?_⟩
  · simp only [updateResidue_cfg, hfit, mask, Nat.and_two_pow_sub_one_eq_mod] at hsym
    rw [hsym, ← hdec.accShifted_eq (Nat.mod_lt _ (Nat.two_pow_pos n))]
    exact ⟨accumulated_accumulate n _ s, by simp, by simpa using hbusy⟩
  · simp only [updateResidue_cfg, hfit] at hsym
    have hacc := accumulated_accumulate n v.toNat s
    rw [accShifted, mask, Nat.and_two_pow_sub_one_eq_mod, accBits] at hacc
    rw [hsym]
    exact ⟨hacc, by simp, by simpa using hbusy⟩
  · simp only [updateResidue_cfg, hfit] at hsym
    rw [hsym]
    exact hdec.corrupted hidx

/-- Settles O31: a trailing symbol is accumulated with the bits missing from the current byte, or is `corruptHere`. -/
theorem decodeTrailingSymbol : Obligations.DecodeTrailingSymbol := by
  intro s c v hinv ⟨hbusy, hop⟩ hidx hc hcr hlf hp hq
  have hdec := (hinv.running hbusy).decode hop
  have hsym := decodeSymbol_of_trailing hp hq
  have hfull : s.decRem.toNat + (8 - s.decRem.toNat) = 8 := Nat.add_sub_of_le (Nat.le_of_lt s.decRem.isLt)
  have hlast : isLast (updateResidue s) = true ↔ s.decHasLast = true ∧ s.idx = s.decLast := by simp [isLast]
  refine ⟨_, engineStep_of_nonWs hop hidx hc ((isWs_eq_false_iff c).2 ⟨hcr, hlf⟩),
    fun a => by rw [decodeSymbol_symMem], fun ⟨hhas, hpos, hv⟩ => ?_, fun hnot => ?_⟩
  · have hacc := accumulated_accumulate (8 - s.decRem.toNat) v.toNat s
    rw [hdec.accShifted_eq hv] at hacc
    rw [hsym, decodeTrailing_of_last (hlast.2 ⟨hhas, hpos⟩) hv, trailingBits_updateResidue]
    refine ⟨hacc, by rw [hacc.out_eq, hfull], ?_, by simp, by simp, by simpa using hbusy⟩
    rw [← BitVec.toNat_inj, hacc.rem_eq, hfull]
    rfl
  · rw [hsym, decodeTrailing_of_not fun h => hnot (and_assoc.1 (h.imp_left hlast.1))]
    exact hdec.corrupted hidx

/-! ## The bytes of a bit stream -/

section
variable {a m i k n : Nat}

/-- Bytes cut in two goes. -/
theorem cutBytes_add (a m i k : Nat) : cutBytes a m (i + k) = cutBytes a m i ++ cutBytes a (m - 8 * i) k := by
  simp only [cutBytes, List.range_add, List.map_append, List.map_map]
  refine congrArg _ (List.map_congr_left fun j _ => ?_)
  rw [Function.comp_apply, show m - 8 * (i + j + 1) = m - 8 * i - 8 * (j + 1) by omega]

/-- The bits below the bytes cut off do not matter. -/
theorem cutBytes_shiftRight (h : 8 * k ≤ m) : cutBytes (a >>> n) m k = cutBytes a (m + n) k := by
  simp only [cutBytes]
  refine List.map_congr_left fun j hj => ?_
  have := List.mem_range.1 hj
  rw [← Nat.shiftRight_add, show n + (m - 8 * (j + 1)) = m + n - 8 * (j + 1) by omega]

/-- The bits above the bytes cut off do not matter. -/
theorem cutBytes_mod (h : 8 * k ≤ m) : cutBytes (a % 2 ^ m) m k = cutBytes a m k := by
  rw [cutBytes_eq_map, cutBytes_eq_map]
  refine List.map_congr_left fun j hj => ?_
  have := List.mem_range.1 hj
  have hsplit : 2 ^ m = 2 ^ (m - 8 * (j + 1)) * 2 ^ (8 * (j + 1)) := by
    rw [← Nat.pow_add, Nat.sub_add_cancel (by omega)]
  rw [hsplit, Nat.mod_mul_right_div_self, ← BitVec.toNat_inj, BitVec.toNat_ofNat, BitVec.toNat_ofNat,
    Nat.mod_mod_of_dvd _ (Nat.pow_dvd_pow 2 (by omega))]

end

/-- What is shifted out of a stream by `n` more bits, the rest of its current byte with them, was there before. -/
theorem BitStream.append_value_shiftRight (b : BitStream) (n x : Nat) :
    (b.append n x).value >>> (b.count % 8 + n) = b.value >>> (b.count % 8) := by
  have hlow : (x % 2 ^ (b.count % 8 + n)) >>> (b.count % 8 + n) = 0 := by
    rw [Nat.shiftRight_eq_div_pow, Nat.div_eq_of_lt (Nat.mod_lt _ (Nat.two_pow_pos _))]
  rw [append, Nat.shiftRight_or_distrib, hlow, Nat.or_zero, Nat.add_comm, Nat.shiftRight_add, Nat.shiftLeft_shiftRight]

/-- The low bits of a stream after `n` more: those of the current byte, shifted, with the new ones ORed in (R208). -/
theorem BitStream.append_value_mod (b : BitStream) (n x : Nat) :
    (b.append n x).value % 2 ^ (b.count % 8 + n)
      = (((b.value % 2 ^ (b.count % 8)) <<< n) ||| x) % 2 ^ (b.count % 8 + n) := by
  rw [append, Nat.or_mod_two_pow, Nat.or_mod_two_pow, Nat.mod_mod, Nat.shiftLeft_eq, Nat.shiftLeft_eq, Nat.pow_add,
    Nat.mul_mod_mul_right, Nat.mul_mod_mul_right, Nat.mod_mod]

/-- `n` more bits leave the whole bytes as they were, and complete those of the bits behind them (R208, R221). -/
theorem BitStream.bytes_append (b : BitStream) (n x : Nat) :
    (b.append n x).bytes = b.bytes ++ cutBytes ((((b.value % 2 ^ (b.count % 8)) <<< n) ||| x) % 2 ^ (b.count % 8 + n))
      (b.count % 8 + n) ((b.count % 8 + n) / 8) := by
  have hcount : (b.append n x).count = 8 * (b.count / 8) + (b.count % 8 + n) := by
    show b.count + n = _
    omega
  have hwhole : (b.append n x).count / 8 = b.count / 8 + (b.count % 8 + n) / 8 := by omega
  have hold : cutBytes (b.append n x).value (b.append n x).count (b.count / 8) = b.bytes := by
    rw [hcount, ← cutBytes_shiftRight (Nat.le_refl _), append_value_shiftRight, cutBytes_shiftRight (Nat.le_refl _),
      Nat.div_add_mod, bytes]
  rw [bytes, hwhole, cutBytes_add, hold, hcount, Nat.add_sub_cancel_left, ← append_value_mod,
    cutBytes_mod (Nat.mul_div_le _ _)]

@[simp] theorem BitStream.append_count (b : BitStream) (n x : Nat) : (b.append n x).count = b.count + n := rfl

@[simp] theorem BitStream.bytes_length (b : BitStream) : b.bytes.length = b.count / 8 := by
  simp [bytes, cutBytes]

/-- A value of at most `n` bits is appended in arithmetic. -/
theorem BitStream.append_value_of_lt (b : BitStream) {n x : Nat} (h : x < 2 ^ n) :
    (b.append n x).value = b.value * 2 ^ n + x := by
  have hx : x % 2 ^ (b.count % 8 + n) = x :=
    Nat.mod_eq_of_lt (h.trans_le (Nat.pow_le_pow_right (by decide) (Nat.le_add_left _ _)))
  rw [append, hx, ← Nat.shiftLeft_add_eq_or_of_lt h, Nat.shiftLeft_eq]

/-- The whole bytes of a byte sequence read as one stream are the sequence (R65, R221). -/
theorem BitStream.bytes_streamValue (bs : List Byte) : BitStream.bytes ⟨streamValue bs, 8 * bs.length⟩ = bs := by
  induction bs using List.reverseRecOn with
  | nil => rfl
  | append_singleton bs c ih =>
    have happend : BitStream.mk (streamValue (bs ++ [c])) (8 * (bs ++ [c]).length)
        = BitStream.append ⟨streamValue bs, 8 * bs.length⟩ 8 c.toNat := by
      have hvalue := append_value_of_lt ⟨streamValue bs, 8 * bs.length⟩ c.isLt
      rw [streamValue_append, List.length_append, List.length_singleton]
      exact congrArg₂ BitStream.mk hvalue.symm rfl
    rw [happend, bytes_append, ih]
    simp [cutBytes_eq_map, Nat.mod_one, Nat.mod_eq_of_lt c.isLt]

/-! ## The decoder's function, symbol by symbol -/

section
variable {fit : LastFit} {p : Table Symbol 2048} {q : Table Symbol 8} {last : Option Nat} {c : Symbol}
  {cs : List Symbol} {pos k : Nat} {b : BitStream}

/-- Whitespace only moves the position (R203). -/
theorem decodeFrom_cons_of_ws (hws : isWs c = true) :
    decodeFrom fit p q last (c :: cs) pos k b = decodeFrom fit p q last cs (pos + 1) k b := by
  rw [decodeFrom, if_pos hws]

/-- A symbol that stands for a field appends it (R205, R206). -/
theorem decodeFrom_cons_of_field {n x : Nat} (hws : isWs c = false)
    (hf : fieldOf fit p q (last == some pos) (k + 1) b.count c = some (n, x)) :
    decodeFrom fit p q last (c :: cs) pos k b = decodeFrom fit p q last cs (pos + 1) (k + 1) (b.append n x) := by
  rw [decodeFrom, if_neg (by simp [hws]), hf]

/-- A symbol that stands for none is the end (R207). -/
theorem decodeFrom_cons_of_corrupt (hws : isWs c = false)
    (hf : fieldOf fit p q (last == some pos) (k + 1) b.count c = none) :
    decodeFrom fit p q last (c :: cs) pos k b = ⟨some pos, b.bytes⟩ := by
  rw [decodeFrom, if_neg (by simp [hws]), hf]

end

/-! ## Whitespace in the source -/

/-- The decodes of `cs` from position `pos` and of `cs'` from position `pos'` come to `r` and `r'`, with the same bytes
and the same outcome: CORRUPT, if at all, at the same symbol behind as many non-whitespace ones (R217). -/
structure SameOutcome (cs cs' : List Symbol) (pos pos' : Nat) (r r' : DecodeResult) : Prop where
  bytes_eq : r.bytes = r'.bytes
  done_iff : r.corruptAt = none ↔ r'.corruptAt = none
  corrupt : ∀ i j, r.corruptAt = some i → r'.corruptAt = some j → ∃ d e, i = pos + d ∧ j = pos' + e
    ∧ cs[d]? = cs'[e]? ∧ nonWsCount (cs.take d) = nonWsCount (cs'.take e)

section
variable {c : Symbol} {cs cs' : List Symbol} {pos pos' : Nat} {r r' : DecodeResult}

/-- A symbol in front counts unless it is whitespace. -/
theorem nonWsCount_take_cons (c : Symbol) (cs : List Symbol) (d : Nat) :
    nonWsCount ((c :: cs).take (d + 1)) = (if isWs c then 0 else 1) + nonWsCount (cs.take d) := by
  cases hws : isWs c <;> simp [nonWsCount, hws, Nat.add_comm]

/-- One more whitespace symbol in front of the first source. -/
theorem SameOutcome.cons_ws (h : SameOutcome cs cs' (pos + 1) pos' r r') (hws : isWs c = true) :
    SameOutcome (c :: cs) cs' pos pos' r r' := by
  refine ⟨h.bytes_eq, h.done_iff, fun i j hi hj => ?_⟩
  obtain ⟨d, e, rfl, rfl, hsym, hcount⟩ := h.corrupt i j hi hj
  exact ⟨d + 1, e, by omega, rfl, hsym, by rw [nonWsCount_take_cons, if_pos hws, Nat.zero_add, hcount]⟩

/-- One more symbol in front of both sources. -/
theorem SameOutcome.cons_cons (h : SameOutcome cs cs' (pos + 1) (pos' + 1) r r') (c : Symbol) :
    SameOutcome (c :: cs) (c :: cs') pos pos' r r' := by
  refine ⟨h.bytes_eq, h.done_iff, fun i j hi hj => ?_⟩
  obtain ⟨d, e, rfl, rfl, hsym, hcount⟩ := h.corrupt i j hi hj
  exact ⟨d + 1, e + 1, by omega, by omega, hsym, by rw [nonWsCount_take_cons, nonWsCount_take_cons, hcount]⟩

/-- A symbol is the last one that is not whitespace when only whitespace is behind it (R201). -/
theorem lastNonWsFrom_eq_some_before (cs : List Symbol) (pos : Nat) :
    lastNonWsFrom cs (pos + 1) (some pos) = some pos ↔ ∀ c ∈ cs, isWs c = true := by
  rw [lastNonWsFrom_eq]
  constructor
  · rintro (⟨j, -, hj, -⟩ | ⟨h, -⟩)
    · omega
    · exact h
  · exact fun h => .inr ⟨h, rfl⟩

/-- The same symbols are last with the whitespace taken out. -/
theorem lastNonWsFrom_filter_beq (cs : List Symbol) (pos pos' : Nat) :
    (lastNonWsFrom (cs.filter fun c => !isWs c) (pos' + 1) (some pos') == some pos')
      = (lastNonWsFrom cs (pos + 1) (some pos) == some pos) := by
  rw [Bool.eq_iff_iff, beq_iff_eq, beq_iff_eq, lastNonWsFrom_eq_some_before, lastNonWsFrom_eq_some_before]
  simp only [List.mem_filter]
  refine forall_congr' fun c => ?_
  cases isWs c <;> simp

end

/-- A source decodes as it does with its whitespace taken out (R217). The last symbols are those the search of R201
finds from here on, `best` and `best'` being what it has found before. -/
theorem decodeFrom_filter (fit : LastFit) (p : Table Symbol 2048) (q : Table Symbol 8) (cs : List Symbol)
    (pos pos' k : Nat) (b : BitStream) (best best' : Option Nat) :
    SameOutcome cs (cs.filter fun c => !isWs c) pos pos' (decodeFrom fit p q (lastNonWsFrom cs pos best) cs pos k b)
      (decodeFrom fit p q (lastNonWsFrom (cs.filter fun c => !isWs c) pos' best') (cs.filter fun c => !isWs c) pos' k
        b) := by
  induction cs generalizing pos pos' k b best best' with
  | nil => exact ⟨rfl, Iff.rfl, fun _ _ h => by cases h⟩
  | cons c cs ih =>
    rw [lastNonWsFrom]
    cases hws : isWs c with
    | true =>
      rw [List.filter_cons_of_neg (by simp [hws]), decodeFrom_cons_of_ws hws, if_pos rfl]
      exact (ih (pos + 1) pos' k b best best').cons_ws hws
    | false =>
      have hlast := lastNonWsFrom_filter_beq cs pos pos'
      rw [List.filter_cons_of_pos (by simp [hws]), lastNonWsFrom, hws, if_neg Bool.false_ne_true]
      cases hf : fieldOf fit p q (lastNonWsFrom cs (pos + 1) (some pos) == some pos) (k + 1) b.count c with
      | none =>
        rw [decodeFrom_cons_of_corrupt hws hf, decodeFrom_cons_of_corrupt hws (hlast ▸ hf)]
        refine ⟨rfl, by simp, fun i j hi hj => ?_⟩
        cases hi
        cases hj
        exact ⟨0, 0, rfl, rfl, rfl, rfl⟩
      | some field =>
        rw [decodeFrom_cons_of_field hws hf, decodeFrom_cons_of_field hws (hlast ▸ hf)]
        exact (ih (pos + 1) (pos' + 1) (k + 1) _ (some pos) (some pos')).cons_cons c

/-- A whole source decodes as it does with its whitespace taken out (R217). -/
theorem decodedResult_filter (fit : LastFit) (p : Table Symbol 2048) (q : Table Symbol 8) (src : List Symbol) :
    SameOutcome src (src.filter fun c => !isWs c) 0 0 (decodedResult fit p q src)
      (decodedResult fit p q (src.filter fun c => !isWs c)) :=
  decodeFrom_filter fit p q src 0 0 0 ⟨0, 0⟩ none none

/-- Settles O37: both sources decode as their non-whitespace symbols do. -/
theorem decodeIgnoresWhitespace : Obligations.DecodeIgnoresWhitespace := by
  intro fit p q src src' hsame
  have h := decodedResult_filter fit p q src
  have h' := decodedResult_filter fit p q src'
  rw [← hsame] at h'
  have hdone := h.done_iff.trans h'.done_iff.symm
  refine ⟨h.bytes_eq.trans h'.bytes_eq.symm, hdone.1, fun i hi => ?_⟩
  have hne : (decodedResult fit p q src).corruptAt ≠ none := by simp [hi]
  obtain ⟨j, hj⟩ := Option.ne_none_iff_exists'.1 (mt hdone.2 hne)
  obtain ⟨m, hm⟩ := Option.ne_none_iff_exists'.1 (mt h.done_iff.2 hne)
  obtain ⟨d, e, hd, he, hsym, hcount⟩ := h.corrupt i m hi hm
  obtain ⟨d', e', hd', he', hsym', hcount'⟩ := h'.corrupt j m hj hm
  obtain ⟨rfl, rfl, rfl, rfl⟩ : d = i ∧ d' = j ∧ e = m ∧ e' = m := by omega
  exact ⟨d', hj, hsym.trans hsym'.symm, hcount.trans hcount'.symm⟩

/-! ## The decoder's function on `ENC(b)` -/

/-- In a table of distinct symbols each is found at its own index (R148). -/
theorem Table.lastIndexOf_get {n : Nat} {t : Table Symbol n} (h : t.entries.Nodup) (i : Fin n) :
    lastIndexOf (t.get i) t.entries = some i.val :=
  lastIndexOf_getElem h (by rw [t.size]; exact i.isLt)

section
variable {fit : LastFit} {p : Table Symbol 2048} {q : Table Symbol 8}

/-- A primary symbol whose index fits its bits stands for that index (R205). -/
theorem fieldOf_primary (h : p.entries.Nodup) {last : Bool} {k held n : Nat} {v : Fin 2048}
    (hn : n = if last then 11 - 11 * k % 8 else 11) (hv : v.val < 2 ^ n) :
    fieldOf fit p q last k held (p.get v) = some (n, v.val) := by
  subst hn
  rw [fieldOf, Table.lastIndexOf_get h]
  exact if_pos hv

/-- A last trailing symbol whose index fits the current byte stands for that index (R206). -/
theorem fieldOf_trailing (h : RoundTripAlphabet p q) {k held n : Nat} {v : Fin 8} (hn : n = 8 - held % 8)
    (hv : v.val < 2 ^ n) : fieldOf fit p q true k held (q.get v) = some (n, v.val) := by
  subst hn
  have hp : lastIndexOf (q.get v) p.entries = none :=
    lastIndexOf_eq_none.2 fun hmem => h.disjoint _ hmem (Table.get_mem q v)
  rw [fieldOf, hp, Table.lastIndexOf_get h.trailing_distinct]
  exact if_pos (by simpa using hv)

/-- `ENC(b)` holds no whitespace (R152). -/
theorem RoundTripAlphabet.encodedSymbols_clean (h : RoundTripAlphabet p q) (bs : List Byte) :
    ∀ c ∈ encodedSymbols p q bs, isWs c = false := by
  have hP (v : Fin 2048) : isWs (p.get v) = false := h.primary_clean _ (Table.get_mem p v)
  have hT (v : Fin 8) : isWs (q.get v) = false := h.trailing_clean _ (Table.get_mem q v)
  rw [encodedSymbols_eq]
  refine List.forall_mem_append.2 ⟨List.forall_mem_map.2 fun _ _ => hP _, ?_⟩
  unfold lastSymbols
  split_ifs <;> simp [hP, hT]

/-- In a source without whitespace the last symbol is the one at its end (R201). -/
theorem lastNonWs_beq_of_clean {src : List Symbol} (h : ∀ c ∈ src, isWs c = false) {pos : Nat}
    (hpos : pos < src.length) : (lastNonWs src == some pos) = (pos + 1 == src.length) := by
  rw [Bool.eq_iff_iff, beq_iff_eq, beq_iff_eq, lastNonWs_eq_some]
  constructor
  · rintro ⟨c, -, -, hmax⟩
    by_contra hne
    have hlt : pos + 1 < src.length := by omega
    have hws := hmax (pos + 1) _ (by omega) (List.getElem?_eq_getElem hlt)
    simp [h _ (List.getElem_mem hlt)] at hws
  · intro hlen
    refine ⟨_, List.getElem?_eq_getElem hpos, h _ (List.getElem_mem hpos), fun j c hj hc => ?_⟩
    have := (List.getElem?_eq_some_iff.1 hc).1
    omega

end

/-- The first bits of a stream and `n` more behind them (R181). -/
theorem streamBits_zero_add {bs : List Byte} {i n : Nat} (h : i + n ≤ 8 * bs.length) :
    streamBits bs 0 (i + n) = streamBits bs 0 i * 2 ^ n + streamBits bs i n := by
  have hi : 8 * bs.length - 0 - i = 8 * bs.length - i - n + n := by omega
  have hin : 8 * bs.length - 0 - (i + n) = 8 * bs.length - i - n := by omega
  rw [streamBits, streamBits, streamBits, hi, hin, Nat.shiftRight_add, Nat.shiftRight_eq_div_pow _ n, Nat.add_comm i n,
    Nat.pow_add, Nat.mod_mul, Nat.add_comm, Nat.mul_comm]

/-- `n` bits of a stream fit `n` bits. -/
theorem streamBits_lt (bs : List Byte) (i n : Nat) : streamBits bs i n < 2 ^ n := Nat.mod_lt _ (Nat.two_pow_pos n)

/-- The first `i` bits of a byte sequence as the bits a decoder has taken (R221). -/
def streamHead (bs : List Byte) (i : Nat) : BitStream := ⟨streamBits bs 0 i, i⟩

section
variable {bs : List Byte} {i n : Nat}

@[simp] theorem streamHead_count (bs : List Byte) (i : Nat) : (streamHead bs i).count = i := rfl

/-- No bits. -/
theorem streamHead_zero (bs : List Byte) : streamHead bs 0 = ⟨0, 0⟩ := by
  simp [streamHead, streamBits, Nat.mod_one]

/-- The next `n` bits of the stream appended. -/
theorem streamHead_append (h : i + n ≤ 8 * bs.length) :
    (streamHead bs i).append n (streamBits bs i n) = streamHead bs (i + n) := by
  have hvalue := (streamHead bs i).append_value_of_lt (streamBits_lt bs i n)
  exact congrArg₂ BitStream.mk (hvalue.trans (streamBits_zero_add h).symm) rfl

/-- All the bits of a byte sequence make up its bytes. -/
theorem streamHead_bytes (bs : List Byte) : (streamHead bs (8 * bs.length)).bytes = bs := by
  have hall : streamBits bs 0 (8 * bs.length) = streamValue bs % 2 ^ (8 * bs.length) := by simp [streamBits]
  rw [streamHead, hall, BitStream.bytes, cutBytes_mod (Nat.mul_div_le _ _)]
  exact BitStream.bytes_streamValue bs

end

section
variable {fit : LastFit} {p : Table Symbol 2048} {q : Table Symbol 8} (h : RoundTripAlphabet p q) (bs : List Byte)
include h

/-- The symbol of a group stands for the 11 bits of the group, even as the last one: the residue is then 0 (R205). -/
theorem RoundTripAlphabet.fieldOf_group {k : Nat} (hk : k < 8 * bs.length / 11) (held : Nat) :
    fieldOf fit p q (lastNonWs (encodedSymbols p q bs) == some k) (k + 1) held
      (p.get (Fin.ofNat 2048 (streamBits bs (11 * k) 11))) = some (11, streamBits bs (11 * k) 11) := by
  have hlen := encodedSymbols_length p q bs
  have hval : (Fin.ofNat 2048 (streamBits bs (11 * k) 11)).val = streamBits bs (11 * k) 11 :=
    Nat.mod_eq_of_lt (streamBits_lt bs _ 11)
  have hbits : 11 = if lastNonWs (encodedSymbols p q bs) == some k then 11 - 11 * (k + 1) % 8 else 11 := by
    rw [lastNonWs_beq_of_clean (h.encodedSymbols_clean bs) (by rw [hlen, encodedLen]; omega), hlen, encodedLen]
    split
    · next hlast =>
      rw [beq_iff_eq] at hlast
      have hall : 11 * (k + 1) = 8 * bs.length := by omega
      omega
    · rfl
  rw [fieldOf_primary h.primary_distinct hbits (by rw [hval]; exact streamBits_lt bs _ 11), hval]

/-- The first `k` groups of `ENC(b)` give the first `11k` bits of the stream back (R216, R221). -/
theorem RoundTripAlphabet.decode_groups {k : Nat} (hk : k ≤ 8 * bs.length / 11) :
    decodedResult fit p q (encodedSymbols p q bs) = decodeFrom fit p q (lastNonWs (encodedSymbols p q bs))
      ((encodedSymbols p q bs).drop k) k k (streamHead bs (11 * k)) := by
  induction k with
  | zero => rw [Nat.mul_zero, streamHead_zero]; rfl
  | succ k ih =>
    have hpos : k < (encodedSymbols p q bs).length := by rw [encodedSymbols_length, encodedLen]; omega
    have hsym : (encodedSymbols p q bs)[k] = p.get (Fin.ofNat 2048 (streamBits bs (11 * k) 11)) := by
      simp [encodedSymbols_eq, groupSymbols, List.getElem_append_left, Nat.lt_of_succ_le hk]
    rw [ih (Nat.le_of_succ_le hk), List.drop_eq_getElem_cons hpos, hsym,
      decodeFrom_cons_of_field (h.primary_clean _ (Table.get_mem p _)) (h.fieldOf_group bs hk _),
      streamHead_append (by omega), Nat.mul_succ]

/-- The final symbol of `ENC(b)` stands for the bits left over by the groups (R174, R205, R206). -/
theorem RoundTripAlphabet.fieldOf_lastSymbols {K r : Nat} (hbits : 11 * K + r = 8 * bs.length) (hr : r < 11) {v : Nat}
    (hv : v < 2 ^ r) {c : Symbol} (hc : lastSymbols p q v r = [c]) :
    fieldOf fit p q true (K + 1) (streamHead bs (11 * K)).count c = some (r, v) := by
  unfold lastSymbols at hc
  split_ifs at hc with h0 h3
  · cases hc
    have hval : (Fin.ofNat 8 v).val = v := Nat.mod_eq_of_lt (hv.trans_le (Nat.pow_le_pow_right (by decide) h3))
    rw [fieldOf_trailing (n := r) h (by rw [streamHead_count]; omega) (by rwa [hval]), hval]
  · cases hc
    have hval : (Fin.ofNat 2048 v).val = v :=
      Nat.mod_eq_of_lt (hv.trans_le (Nat.pow_le_pow_right (by decide) (Nat.le_of_lt hr)))
    rw [fieldOf_primary (n := r) h.primary_distinct (by simp; omega) (by rwa [hval]), hval]

end

/-- Left-over bits make up one final symbol (R174). -/
theorem exists_lastSymbols_eq_singleton (p : Table Symbol 2048) (q : Table Symbol 8) (v : Nat) {r : Nat}
    (hr : r ≠ 0) : ∃ c, lastSymbols p q v r = [c] :=
  List.length_eq_one_iff.1 (by rw [lastSymbols_length, if_neg hr])

/-- Settles O35: the groups of `ENC(b)` give their bits back, and the final symbol the bits left over. -/
theorem codecRoundTrip : Obligations.CodecRoundTrip := by
  intro fit p q bs h
  obtain ⟨K, hK⟩ : ∃ K, K = 8 * bs.length / 11 := ⟨_, rfl⟩
  obtain ⟨r, hr⟩ : ∃ r, r = 8 * bs.length % 11 := ⟨_, rfl⟩
  have hbits : 11 * K + r = 8 * bs.length := by omega
  have hdrop : (encodedSymbols p q bs).drop K = lastSymbols p q (streamBits bs (11 * K) r) r := by
    rw [encodedSymbols_eq, List.drop_left' (by rw [groupSymbols_length, hK]), ← hK, ← hr]
  rw [h.decode_groups bs (Nat.le_of_eq hK), hdrop]
  by_cases h0 : r = 0
  · rw [h0, Nat.add_zero] at hbits
    rw [h0, hbits]
    exact congrArg (DecodeResult.mk none) (streamHead_bytes bs)
  · obtain ⟨c, hc⟩ := exists_lastSymbols_eq_singleton p q (streamBits bs (11 * K) r) h0
    have hlen : K + 1 = (encodedSymbols p q bs).length := by rw [encodedSymbols_length, encodedLen]; omega
    have hlast := lastNonWs_beq_of_clean (h.encodedSymbols_clean bs) (pos := K) (by omega)
    rw [hlen, beq_self_eq_true] at hlast
    have hws : isWs c = false := h.encodedSymbols_clean bs c (List.mem_of_mem_drop (by rw [hdrop, hc]; simp))
    have hf := h.fieldOf_lastSymbols (fit := fit) bs hbits (by omega) (streamBits_lt bs _ _) hc
    rw [← hlast] at hf
    rw [hc, decodeFrom_cons_of_field hws hf, streamHead_append (Nat.le_of_eq hbits), hbits]
    exact congrArg (DecodeResult.mk none) (streamHead_bytes bs)

/-! ## A symbol step and the field it contributes -/

section
variable {s : State} {src : List Symbol}

/-- A field has at most 11 bits (R205, R206). -/
theorem fieldOf_le {fit : LastFit} {p : Table Symbol 2048} {q : Table Symbol 8} {last : Bool} {k held n x : Nat}
    {c : Symbol} (h : fieldOf fit p q last k held c = some (n, x)) : n ≤ 11 := by
  obtain ⟨w, hw⟩ : ∃ w, w = if last then 11 - 11 * k % 8 else 11 := ⟨_, rfl⟩
  have hle : w ≤ 11 := by rw [hw]; split <;> omega
  rw [fieldOf] at h
  split at h
  · simp only [← hw] at h
    split at h
    · cases h; exact hle
    · cases fit <;> cases h <;> exact hle
  · split at h
    · split at h <;> cases h
      omega
    · cases h

/-- A symbol step accumulates the field of its symbol, and is CORRUPT on a symbol that contributes none (R204 to
R209). -/
theorem decodeSymbol_eq_elim_fieldOf {k held : Nat} (hres : s.decRes.toNat = 11 * k % 8)
    (hrem : s.decRem.toNat = held % 8) (c : Symbol) :
    decodeSymbol c s = (fieldOf s.cfg.lastFit s.actP s.actT (isLast s) (k + 1) held c).elim
      (corruptHere (updateResidue s)) fun f => advance (accumulate f.1 f.2 (updateResidue s)) := by
  have hbits : primaryBits (updateResidue s) = if isLast s then 11 - 11 * (k + 1) % 8 else 11 := by
    rw [primaryBits_updateResidue, hres, show (11 * k % 8 + 11) % 8 = 11 * (k + 1) % 8 by omega]
    rfl
  cases hp : primaryInverse s c with
  | some v =>
    rw [decodeSymbol_of_primary hp, fieldOf, (map_lastIndexOf_eq_some (k := 11)).1 hp]
    simp only [← hbits]
    by_cases hv : v.toNat < 2 ^ primaryBits (updateResidue s)
    · rw [decodePrimary_of_lt hv, if_pos hv]
      rfl
    · rw [decodePrimary, if_neg hv, if_neg hv, updateResidue_cfg]
      cases s.cfg.lastFit <;> simp [mask, Nat.and_two_pow_sub_one_eq_mod]
  | none =>
    rw [fieldOf, Option.map_eq_none_iff.1 hp]
    cases hq : trailingInverse s c with
    | some v =>
      rw [decodeSymbol_of_trailing hp hq, decodeTrailing, (map_lastIndexOf_eq_some (k := 3)).1 hq,
        trailingBits_updateResidue, hrem]
      change ite (isLast s && _) _ _ = Option.elim (ite (isLast s && _) _ _) _ _
      split <;> rfl
    | none =>
      rw [decodeSymbol_of_unknown hp hq, Option.map_eq_none_iff.1 hq]
      rfl

/-- The decoder's registers for the last symbol and the residue, by the source (R201, R204). -/
theorem DecodeInv.of_source (h : DecodeInv s)
    (hsrc : Memory.readRun s.symMem s.lSrc.toNat s.lLen.toNat = some src) :
    isLast s = (lastNonWs src == some s.idx) ∧ s.decRes.toNat = 11 * nonWsCount (src.take s.idx) % 8 := by
  obtain ⟨src', hsrc', hlast, hres⟩ := h.source
  obtain rfl : src' = src := Option.some.inj (hsrc'.symm.trans hsrc)
  refine ⟨?_, by omega⟩
  rw [← hlast, isLast]
  cases s.decHasLast <;> simp [eq_comm]

end

/-! ## A whole run of DECODE -/

/-- States that agree in every field an engine step keeps are in the frame of its steps. -/
theorem engineFrame_of_engineKept {s t : State} (h : engineKept t = engineKept s) : EngineFrame s t := by
  simp only [engineKept, State.mk.injEq] at h
  constructor <;> simp [SameOperands, SameLatches, SameActive, SameStaging, SameHostSide, SameLast, h]

/-- `Decoding t b m`: a DECODE that started in `t` has taken the bits `b` of its source and written their whole bytes,
and is now in `m`, still running (R214, R215). -/
structure Decoding (t : State) (b : BitStream) (m : State) : Prop where
  counts : DecodeInv m
  bits_eq : b.count = 8 * m.out + m.decRem.toNat
  acc_eq : m.decAcc.toNat = b.value % 2 ^ m.decRem.toNat
  kept : engineKept m = engineKept t
  busy : m.engine = .busy
  noError : m.err = .none ∧ m.errPos = 0
  symMem_eq : m.symMem = t.symMem
  byteMem_eq : m.byteMem = Memory.writeRun t.byteMem t.lDst.toNat b.bytes

/-- `DecodeEnded t n r u`: a DECODE of `n` symbols that started in `t` has ended in `u`, with the outcome and the bytes
of `r` (R210, R211). -/
structure DecodeEnded (t : State) (n : Nat) (r : DecodeResult) (u : State) : Prop where
  done : r.corruptAt = none → u.engine = .done ∧ u.err = .none ∧ u.errPos = 0
  corrupt : ∀ p, r.corruptAt = some p → p < n ∧ u.engine = .error ∧ u.err = .corrupt ∧ u.errPos.toNat = p
  result_eq : u.result.toNat = r.bytes.length
  symMem_eq : u.symMem = t.symMem
  byteMem_eq : u.byteMem = Memory.writeRun t.byteMem t.lDst.toNat r.bytes

/-- What the function of R221 makes of the rest of the source, from the position the decoder of `m` has reached, the
bits `b` being behind it. -/
def restOfDecode (src : List Symbol) (b : BitStream) (m : State) : DecodeResult :=
  decodeFrom m.cfg.lastFit m.actP m.actT (lastNonWs src) (src.drop m.idx) m.idx (nonWsCount (src.take m.idx)) b

section
variable {t m : State} {b : BitStream} {src : List Symbol} {c : Symbol}

/-- A running DECODE has kept the frame of its steps. -/
theorem Decoding.frame (h : Decoding t b m) : EngineFrame t m := engineFrame_of_engineKept h.kept

/-- An accepted DECODE starts with no bits taken (R202). -/
theorem decoding_decodeStart {s : State} (hroom : decodedLen s.srcLen.toNat ≤ s.dstCap.toNat)
    (hsrc : Memory.readRun s.symMem s.srcBase.toNat s.srcLen.toNat = some src) :
    Decoding (decodeStart src s) ⟨0, 0⟩ (decodeStart src s) where
  counts := { decodeInv_initDecoder (s := latch opDecode (accept s)) hroom hsrc with }
  bits_eq := rfl
  acc_eq := rfl
  kept := rfl
  busy := rfl
  noError := ⟨rfl, rfl⟩
  symMem_eq := rfl
  byteMem_eq := rfl

/-- At its start the whole source is left (R221). -/
theorem restOfDecode_decodeStart (src : List Symbol) (s : State) :
    restOfDecode src ⟨0, 0⟩ (decodeStart src s) = decodedResult s.cfg.lastFit s.actP s.actT src := by
  simp [restOfDecode, decodeStart, decodedResult, nonWsCount]

/-- OUT counts the whole bytes of the bits taken (R214). -/
theorem Decoding.out_eq (h : Decoding t b m) : m.out = b.count / 8 := by
  have := h.bits_eq
  have := m.decRem.isLt
  omega

/-- DEC_REM counts the bits behind them (R214). -/
theorem Decoding.rem_eq (h : Decoding t b m) : m.decRem.toNat = b.count % 8 := by
  have := h.bits_eq
  have := m.decRem.isLt
  omega

/-- A whitespace symbol adds no bits (R203). -/
theorem Decoding.after_skip (h : Decoding t b m) (hidx : m.idx < m.lLen.toNat)
    (hc : Memory.read m.symMem (srcAddr m) = some c) (hws : isWs c = true) : Decoding t b (advance m) :=
  { h with counts := h.counts.after_skip hidx hc hws }

/-- The shifted accumulator holds the low bits of the stream with the field appended (R208). -/
theorem Decoding.accShifted_eq (h : Decoding t b m) (n x : Nat) :
    accShifted n x m = (((b.value % 2 ^ (b.count % 8)) <<< n) ||| x) % 2 ^ (b.count % 8 + n) := by
  rw [accShifted, accBits, mask, Nat.and_two_pow_sub_one_eq_mod, h.acc_eq, h.rem_eq]

/-- A field appends its bits, and the bytes they complete are written (R208, R221). -/
theorem Decoding.after_field (h : Decoding t b m) {n : Nat} (hidx : m.idx < m.lLen.toNat)
    (hc : Memory.read m.symMem (srcAddr m) = some c) (hws : isWs c = false) (hn : n ≤ 11) (x : Nat) :
    Decoding t (b.append n x) (advance (accumulate n x (updateResidue m))) where
  counts := h.counts.after_accumulate hidx hc hws hn x
  bits_eq := by
    have hrem := accumulate_decRem_toNat n x (updateResidue m)
    have := h.bits_eq
    simp only [advance_out, advance_decRem, accumulate_out, accBits, updateResidue_out, updateResidue_decRem, hrem,
      BitStream.append_count]
    omega
  acc_eq := by
    rw [advance_decAcc, advance_decRem, accumulate_decAcc_toNat, accumulate_decRem_toNat]
    rw [accShifted_updateResidue, h.accShifted_eq, ← BitStream.append_value_mod, updateResidue_decRem, h.rem_eq,
      Nat.mod_mod_of_dvd _ (Nat.pow_dvd_pow 2 (Nat.mod_le _ _))]
  kept := by simpa [engineKept] using h.kept
  busy := by simpa using h.busy
  noError := by simpa using h.noError
  symMem_eq := by simpa using h.symMem_eq
  byteMem_eq := by
    obtain ⟨-, -, -, hdst, -⟩ := h.frame.latches
    have hbytes : accBytes n x m = cutBytes ((((b.value % 2 ^ (b.count % 8)) <<< n) ||| x) % 2 ^ (b.count % 8 + n))
        (b.count % 8 + n) ((b.count % 8 + n) / 8) := by
      rw [accBytes, h.accShifted_eq, accBits, h.rem_eq]
    rw [BitStream.bytes_append, ← hbytes, Memory.writeRun_append, ← h.byteMem_eq, BitStream.bytes_length,
      ← h.out_eq, ← hdst]
    simp [dstAddr]

/-- A running DECODE is BUSY before its next step. -/
theorem Decoding.busy_at_zero (h : Decoding t b m) (i : Nat) (hi : i ≤ 0) :
    ∃ m', runSteps i m = .next m' ∧ m'.engine = .busy := by
  obtain rfl := Nat.le_zero.1 hi
  exact ⟨m, rfl, h.busy⟩

/-- With no fault and no host operation, a running DECODE's step is the engine's (R133). -/
theorem Decoding.step_eq (h : Decoding t b m) (hf : t.faulted = []) (ho : t.ops = []) : step m = engineStep m := by
  obtain ⟨-, hops, -, -, hfaulted⟩ := h.frame.hostSide
  exact step_engine (hfaulted.trans hf) ((busy_iff m).2 h.busy) (hops.trans ho)

/-- The final step ends DONE with the bytes written (R210). -/
theorem Decoding.after_final (h : Decoding t b m) (hidx : m.idx ≤ m.lLen.toNat) (n : Nat) :
    DecodeEnded t n ⟨none, b.bytes⟩ (decodeFinal m) where
  done _ := ⟨rfl, h.noError⟩
  corrupt _ hp := by cases hp
  result_eq := by rw [h.counts.decodeFinal_result hidx, BitStream.bytes_length, h.out_eq]
  symMem_eq := h.symMem_eq
  byteMem_eq := h.byteMem_eq

/-- A corrupt symbol ends the run at its position with the bytes written (R211). -/
theorem Decoding.after_corrupt (h : Decoding t b m) (hidx : m.idx < m.lLen.toNat) :
    DecodeEnded t m.lLen.toNat ⟨some m.idx, b.bytes⟩ (corruptHere (updateResidue m)) where
  done hp := by cases hp
  corrupt _ hp := by
    cases hp
    exact ⟨hidx, rfl, rfl, (h.counts.corrupted hidx).errPos_eq⟩
  result_eq := by rw [(h.counts.corrupted hidx).result_eq, BitStream.bytes_length, h.out_eq]
  symMem_eq := h.symMem_eq
  byteMem_eq := h.byteMem_eq

/-- A symbol step takes the symbol as the function of R221 does: it goes on with the rest, or ends CORRUPT. -/
theorem Decoding.engineStep_symbol (h : Decoding t b m) (hop : m.lOp = opDecode)
    (hsrc : Memory.readRun m.symMem m.lSrc.toNat m.lLen.toNat = some src) (hidx : m.idx < m.lLen.toNat) :
    (∃ b' m', engineStep m = .next m' ∧ Decoding t b' m' ∧ m'.idx = m.idx + 1
        ∧ restOfDecode src b m = restOfDecode src b' m')
      ∨ (restOfDecode src b m = ⟨some m.idx, b.bytes⟩
        ∧ engineStep m = .next (corruptHere (updateResidue m))) := by
  obtain ⟨hlen, hread⟩ := Memory.readRun_eq_some.1 hsrc
  have hpos : m.idx < src.length := by omega
  obtain ⟨c, hsym⟩ : ∃ c, c = src[m.idx] := ⟨_, rfl⟩
  have hc : Memory.read m.symMem (srcAddr m) = some c := hsym ▸ hread m.idx hpos
  have htake := nonWsCount_take_succ (hsym ▸ List.getElem?_eq_getElem hpos)
  have hstep := engineStep_of_symbol hop hidx hc
  have hdrop : src.drop m.idx = c :: src.drop (m.idx + 1) := hsym ▸ List.drop_eq_getElem_cons hpos
  rw [restOfDecode, hdrop]
  cases hws : isWs c with
  | true =>
    rw [hws] at hstep htake
    refine .inl ⟨b, advance m, hstep, h.after_skip hidx hc hws, rfl, ?_⟩
    rw [decodeFrom_cons_of_ws hws, restOfDecode, advance_idx, htake]
    rfl
  | false =>
    obtain ⟨hlast, hres⟩ := h.counts.of_source hsrc
    rw [hws] at hstep htake
    rw [if_neg Bool.false_ne_true, decodeSymbol_eq_elim_fieldOf hres h.rem_eq, hlast] at hstep
    cases hf : fieldOf m.cfg.lastFit m.actP m.actT (lastNonWs src == some m.idx) (nonWsCount (src.take m.idx) + 1)
        b.count c with
    | none =>
      rw [hf] at hstep
      exact .inr ⟨decodeFrom_cons_of_corrupt hws hf, hstep⟩
    | some field =>
      obtain ⟨n, x⟩ := field
      rw [hf] at hstep
      refine .inl ⟨_, _, hstep, h.after_field hidx hc hws (fieldOf_le hf) x, rfl, ?_⟩
      rw [decodeFrom_cons_of_field hws hf, restOfDecode]
      simp [htake]

variable (hop : t.lOp = opDecode) (hf : t.faulted = []) (ho : t.ops = [])
  (hsrc : Memory.readRun t.symMem t.lSrc.toNat t.lLen.toNat = some src)
include hop hf ho hsrc

/-- At the end of the source the next step ends the run DONE, with the bytes written (R210). -/
theorem Decoding.step_end (h : Decoding t b m) (hidx : m.idx = src.length) :
    step m = .next (decodeFinal m) ∧ restOfDecode src b m = ⟨none, b.bytes⟩
      ∧ DecodeEnded t src.length ⟨none, b.bytes⟩ (decodeFinal m) := by
  obtain ⟨hopm, -, hlenm, -⟩ := h.frame.latches
  have hlen := (Memory.readRun_eq_some.1 hsrc).1
  have hidx' : m.idx = m.lLen.toNat := by rw [hlenm, ← hlen, hidx]
  refine ⟨(h.step_eq hf ho).trans (engineStep_of_source_end (hopm.trans hop) hidx'), ?_,
    h.after_final (Nat.le_of_eq hidx') _⟩
  rw [restOfDecode, List.drop_of_length_le (Nat.le_of_eq hidx.symm)]
  rfl

/-- With source left the next step takes one symbol as the function of R221 does (R204 to R209), and the run goes on or
ends CORRUPT (R211). -/
theorem Decoding.step_symbol (h : Decoding t b m) (hidx : m.idx < src.length) :
    (∃ b' m', step m = .next m' ∧ Decoding t b' m' ∧ m'.idx = m.idx + 1
        ∧ restOfDecode src b m = restOfDecode src b' m')
      ∨ ∃ u, step m = .next u ∧ restOfDecode src b m = ⟨some m.idx, b.bytes⟩
        ∧ DecodeEnded t src.length ⟨some m.idx, b.bytes⟩ u := by
  obtain ⟨hopm, hsrcm, hlenm, -⟩ := h.frame.latches
  have hlen : m.lLen.toNat = src.length := by rw [hlenm, (Memory.readRun_eq_some.1 hsrc).1]
  rw [← hsrcm, ← hlenm, ← h.symMem_eq] at hsrc
  obtain hgo | ⟨hrest, hstep⟩ := h.engineStep_symbol (hopm.trans hop) hsrc (hlen.symm ▸ hidx)
  · rw [h.step_eq hf ho]
    exact .inl hgo
  · exact .inr ⟨_, (h.step_eq hf ho).trans hstep, hrest, hlen ▸ h.after_corrupt (hlen.symm ▸ hidx)⟩

/-- The run from `m` on comes to what the function of R221 makes of the rest of the source, with one step a symbol and
a final one, unless a symbol is corrupt (R221, R306). -/
theorem Decoding.run (d : Nat) (h : Decoding t b m) (hd : m.idx + d = src.length) :
    ∃ j u, (restOfDecode src b m).corruptAt.getD src.length = m.idx + j ∧ runSteps (j + 1) m = .next u
      ∧ (∀ i, i ≤ j → ∃ m', runSteps i m = .next m' ∧ m'.engine = .busy)
      ∧ DecodeEnded t src.length (restOfDecode src b m) u := by
  induction d generalizing b m with
  | zero =>
    obtain ⟨hstep, hrest, hend⟩ := h.step_end hop hf ho hsrc hd
    rw [hrest]
    exact ⟨0, _, hd.symm, runSteps_succ_of_step rfl hstep, h.busy_at_zero, hend⟩
  | succ d ih =>
    obtain ⟨b', m', hstep, h', hidx', hrest⟩ | ⟨u, hstep, hrest, hend⟩ :=
      h.step_symbol hop hf ho hsrc (by omega)
    · obtain ⟨j, u, hstop, hrun, hbusy, hend⟩ := ih h' (by omega)
      rw [hrest]
      refine ⟨j + 1, u, by omega, runSteps_succ_eq_next.2 ⟨m', hstep, hrun⟩, fun i hi => ?_, hend⟩
      cases i with
      | zero => exact ⟨m, rfl, h.busy⟩
      | succ i =>
        obtain ⟨m'', hrun', hbusy'⟩ := hbusy i (by omega)
        exact ⟨m'', runSteps_succ_eq_next.2 ⟨m', hstep, hrun'⟩, hbusy'⟩
    · rw [hrest]
      exact ⟨0, u, rfl, runSteps_succ_of_step rfl hstep, h.busy_at_zero, hend⟩

end

/-- Settles O34: the run from the accepted state decodes the whole source, and its end is that of R221. -/
theorem decodeRunComputesItsFunction : Obligations.DecodeRunComputesItsFunction := by
  intro s src hf ho hs hd hroom hsrc
  have hstart : (decodeStart src s).idx = 0 := rfl
  obtain ⟨j, u, hstop, hrun, hbusy, hend⟩ := (decoding_decodeStart hroom hsrc).run (t := decodeStart src s) rfl hf ho
    hsrc src.length (by rw [hstart, Nat.zero_add])
  rw [restOfDecode_decodeStart] at hstop hend
  rw [hstart, Nat.zero_add] at hstop
  rw [← hstop] at hrun hbusy
  have hbytes := hend.byteMem_eq
  rw [decodeStart_byteMem, decodeStart_lDst] at hbytes
  refine ⟨decodeStart src s, u, _, rfl, execDecode_of_room (operandsOutOfRange_of_le hs hd) hroom hsrc, hrun, hbusy,
    hend.done, hend.corrupt, hend.result_eq, ?_, fun a ha => ?_, fun a => ?_⟩
  · rw [hbytes, Memory.readRun_writeRun]
  · rw [hbytes, Memory.read_writeRun_outside ha]
  · rw [hend.symMem_eq, decodeStart_symMem]

/-- Settles O36: the run computes its function, which inverts the encoder's. -/
theorem decodeOfEncodeGivesInputBack : Obligations.DecodeOfEncodeGivesInputBack := by
  intro s bs halpha hf ho hs hd hroom hsrc
  obtain ⟨t, u, r, hr, hexec, hrun, -, hdone, -, hresult, hbytes, -⟩ :=
    decodeRunComputesItsFunction s _ hf ho hs hd hroom hsrc
  rw [codecRoundTrip s.cfg.lastFit s.actP s.actT bs halpha] at hr
  subst hr
  have hlen := (Memory.readRun_eq_some.1 hsrc).1
  obtain ⟨hengine, herr, -⟩ := hdone rfl
  exact ⟨t, u, hexec, hlen ▸ hrun, hengine, herr, hresult, hbytes⟩

end Sys2Proof.Machine

/-! PROOFS. The length calculator: the two length functions as exact quotients, their laws and how one undoes the other;
and ENCLEN and DECLEN, which leave them in RESULT where they fit a word. -/

namespace Sys2Proof.Machine

/-! ## The two lengths as quotients -/

section
variable (n : Nat)

/-- `encoded_len(n)` symbols of 11 bits hold the `8n` bits of `n` bytes and less than one symbol more: it is the ceiling
of `8n / 11` (R241). -/
theorem encodedLen_bounds : 8 * n ≤ 11 * encodedLen n ∧ 11 * encodedLen n < 8 * n + 11 := by
  unfold encodedLen
  omega

/-- `decoded_len(n)` bytes are the whole bytes in the `11n` bits of `n` symbols: it is the floor of `11n / 8` (R243). -/
theorem decodedLen_bounds : 8 * decodedLen n ≤ 11 * n ∧ 11 * n < 8 * decodedLen n + 8 := by
  unfold decodedLen
  omega

/-! ## Their laws -/

/-- 11 bytes are 8 symbols (R246). -/
theorem encodedLen_add_eleven : encodedLen (n + 11) = encodedLen n + 8 := by
  have hn := encodedLen_bounds n
  have hn' := encodedLen_bounds (n + 11)
  omega

/-- 8 symbols are 11 bytes (R246). -/
theorem decodedLen_add_eight : decodedLen (n + 8) = decodedLen n + 11 := by
  have hn := decodedLen_bounds n
  have hn' := decodedLen_bounds (n + 8)
  omega

/-- More bytes need no fewer symbols (R246). -/
theorem encodedLen_mono : Monotone encodedLen := fun _ _ h =>
  Nat.div_le_div_right (Nat.add_le_add_right (Nat.mul_le_mul_left 8 h) 10)

/-- More symbols hold no fewer bytes. -/
theorem decodedLen_mono : Monotone decodedLen := fun _ _ h => Nat.div_le_div_right (Nat.mul_le_mul_left 11 h)

/-- A symbol holds more bits than a byte, so no more symbols than bytes are needed (R246). -/
theorem encodedLen_le_self : encodedLen n ≤ n := by
  have hn := encodedLen_bounds n
  omega

/-- As many symbols as bytes are needed only while the 3 bits a symbol has more do not save one (R246). -/
theorem encodedLen_eq_self_iff : encodedLen n = n ↔ n ≤ 3 := by
  have hn := encodedLen_bounds n
  omega

variable {n}

/-- The encoded length of a 32-bit count fits 32 bits (R246). -/
theorem encodedLen_lt_two_pow_32 (h : n < 2 ^ 32) : encodedLen n < 2 ^ 32 := (encodedLen_le_self n).trans_lt h

/-- The decoded length of a source that fits the largest memory fits 32 bits (R246). -/
theorem decodedLen_lt_two_pow_32 (h : n ≤ 2 ^ 28) : decodedLen n < 2 ^ 32 := (decodedLen_mono h).trans_lt (by decide)

/-- From 3123612579 symbols on the decoded length does not fit 32 bits (R243). -/
theorem two_pow_32_sub_one_lt_decodedLen_iff : 2 ^ 32 - 1 < decodedLen n ↔ 3123612579 ≤ n := by
  have hn := decodedLen_bounds n
  omega

end

/-- Settles O8: both functions are quotients, with a symbol of 11 bits and a byte of 8. -/
theorem lengthLaws : Obligations.LengthLaws :=
  ⟨encodedLen_add_eleven, decodedLen_add_eight, fun _ _ h => encodedLen_mono h, encodedLen_le_self,
    encodedLen_eq_self_iff, fun _ h => encodedLen_lt_two_pow_32 h, fun _ h => decodedLen_lt_two_pow_32 h, rfl, rfl⟩

/-! ## Encoding and decoding a length -/

/-- The padding bits in the symbols of `n` bytes: the `8n` bits are padded to a whole number of symbols (R247). -/
def paddingBits (n : Nat) : Nat := 11 * encodedLen n - 8 * n

/-- The bits of the bytes and the padding fill the symbols. -/
theorem paddingBits_add (n : Nat) : paddingBits n + 8 * n = 11 * encodedLen n :=
  Nat.sub_add_cancel (encodedLen_bounds n).1

/-- The padding is less than a symbol. -/
theorem paddingBits_lt (n : Nat) : paddingBits n < 11 := by
  have hfill := paddingBits_add n
  have hn := encodedLen_bounds n
  omega

/-- Decoding the length of `n` encoded bytes counts the `n` bytes, and one more where the padding holds a whole byte. -/
theorem decodedLen_encodedLen (n : Nat) : decodedLen (encodedLen n) = n + paddingBits n / 8 := by
  rw [decodedLen, ← paddingBits_add, Nat.add_mul_div_left _ _ (by decide), Nat.add_comm]

/-- The padding and the source bits in the last symbol are nothing or one whole symbol. -/
theorem paddingBits_add_mod (n : Nat) : paddingBits n + 8 * n % 11 = 0 ∨ paddingBits n + 8 * n % 11 = 11 := by
  have hpad := paddingBits_lt n
  have hmod : 8 * n % 11 < 11 := Nat.mod_lt _ (by decide)
  obtain ⟨k, hk⟩ : 11 ∣ paddingBits n + 8 * n % 11 := by
    rw [Nat.dvd_iff_mod_eq_zero, Nat.add_mod_mod, paddingBits_add, Nat.mul_mod_right]
  have hk2 : k < 2 := by omega
  interval_cases k
  · exact .inl hk
  · exact .inr hk

/-- The padding holds a byte exactly when the last symbol carries 1 to 3 bits of the source (R247). -/
theorem eight_le_paddingBits_iff (n : Nat) : 8 ≤ paddingBits n ↔ 1 ≤ 8 * n % 11 ∧ 8 * n % 11 ≤ 3 := by
  have hpad := paddingBits_lt n
  obtain hsum | hsum := paddingBits_add_mod n
  · omega
  · omega

/-- Settles O9: the difference is the number of whole bytes in the padding. -/
theorem decodedLengthOfEncodedLength : Obligations.DecodedLengthOfEncodedLength := by
  intro n
  have hlt := paddingBits_lt n
  rw [decodedLen_encodedLen, ← eight_le_paddingBits_iff]
  omega

/-! ## ENCLEN and DECLEN -/

/-- A length that fits a word is RESULT after the command, exactly (R28). -/
theorem finish_ofNat_result_toNat {r : Nat} (h : r < 2 ^ 32) (s : State) :
    (finish (BitVec.ofNat 32 r) s).result.toNat = r :=
  (BitVec.toNat_ofNat _ _).trans (Nat.mod_eq_of_lt h)

section
variable {s : State}

/-- DECLEN ends with RANGE when the length does not fit 32 bits (R242). -/
theorem execDeclen_of_range (h : 2 ^ 32 - 1 < decodedLen s.srcLen.toNat) :
    execDeclen s = .next (endedWith .range s) := by
  rw [← raiseError_accept (by decide)]
  exact if_pos h

/-- DECLEN leaves a length that fits 32 bits in RESULT (R242). -/
theorem execDeclen_of_fits (h : decodedLen s.srcLen.toNat ≤ 2 ^ 32 - 1) :
    execDeclen s = .next (finish (BitVec.ofNat 32 (decodedLen s.srcLen.toNat)) (accept s)) :=
  if_neg (Nat.not_lt.2 h)

end

/-- Settles O6: `encodedLen` of a word fits RESULT, and is the ceiling. -/
theorem enclenGivesEncodedLength : Obligations.EnclenGivesEncodedLength := by
  intro s
  have hresult := finish_ofNat_result_toNat (encodedLen_lt_two_pow_32 s.srcLen.isLt) (accept s)
  obtain ⟨hle, hlt⟩ := encodedLen_bounds s.srcLen.toNat
  rw [← hresult] at hle hlt
  exact ⟨_, rfl, hresult, hle, hlt, rfl, rfl, rfl⟩

/-- Settles O7: `execDeclen` compares `decodedLen` with the largest word, which it exceeds from 3123612579 on. -/
theorem declenGivesDecodedLengthOrRange : Obligations.DeclenGivesDecodedLengthOrRange := by
  refine fun s => ⟨fun hlt => ?_, fun hge => ?_, two_pow_32_sub_one_lt_decodedLen_iff⟩
  · have hfits : decodedLen s.srcLen.toNat ≤ 2 ^ 32 - 1 :=
      Nat.not_lt.1 (mt two_pow_32_sub_one_lt_decodedLen_iff.1 (Nat.not_le.2 hlt))
    exact ⟨_, execDeclen_of_fits hfits, finish_ofNat_result_toNat (Nat.lt_succ_of_le hfits) _, rfl, rfl, rfl⟩
  · exact execDeclen_of_range (two_pow_32_sub_one_lt_decodedLen_iff.2 hge)

end Sys2Proof.Machine

/-! PROOFS. The two rules of the exceptions that speak of a whole state: a command that ends in ERROR at acceptance, read
off the cases of `Accepted`, and the step of an idle core. -/

namespace Sys2Proof.Machine

/-- An accepting step whose STATE is ERROR has raised an Error other than CORRUPT: every other end of a command leaves
STATE DONE or IDLE, and a command that starts to run leaves it BUSY. -/
theorem Accepted.eq_endedWith_of_error {i : Instr} {s t : State} (h : Accepted s i t) (he : t.engine = .error) :
    ∃ code, code ≠ .none ∧ t = endedWith code s := by
  cases h with
  | error hnone hcorrupt => exact ⟨_, hnone, raiseError_accept hcorrupt s⟩
  | enclen | declen | build | loaddef | clear | encode | decode => simp at he

/-- Settles O18: the Error was raised with some code, and that code is the ERR it has written. -/
theorem errorAtAcceptanceWritesNothingElse : Obligations.ErrorAtAcceptanceWritesNothingElse := by
  intro i s t h he
  obtain ⟨code, hnone, rfl⟩ := (accepted_of_exec h).eq_endedWith_of_error he
  exact ⟨rfl, hnone⟩

/-- Settles O42: FAULTED does not stop the step, and neither agent has one, whatever turns are still to come. -/
theorem idleCoreKeepsItsState : Obligations.IdleCoreKeepsItsState := by
  intro s hf hb ho
  unfold step
  rw [if_neg (by simp [hf]), ho, hb]

end Sys2Proof.Machine

/-! PROOFS. Reset and the hazards: the steps after which a WAIT is over, the two steps that meet an unwritten source
element, a register write and an engine step in either order, and the state after a reset. -/

namespace Sys2Proof.Machine

/-! ## A WAIT while the engine runs -/

/-- The steps of a running command that still has its source: at most one for each element left, and the final one
(R306). -/
def engineStepsLeft (s : State) : Nat := s.lLen.toNat - s.idx + 1

/-- At most so many steps end a WAIT: while BUSY one for each turn still to come and each of the engine's steps, and
then the read that shows STATE no longer BUSY (R99, R305, R306). -/
def waitStepsLeft (s : State) : Nat := if s.busy then s.turns.length + engineStepsLeft s + 1 else 1

section
variable {s t : State}

/-- The bound while BUSY. -/
theorem waitStepsLeft_of_busy (hb : s.busy = true) :
    waitStepsLeft s = s.turns.length + engineStepsLeft s + 1 :=
  if_pos hb

/-- No more turns to come, no more steps left. -/
theorem waitStepsLeft_le_of_turns {turns : List Agent} (hb : s.busy = true) (ht : turns.length ≤ s.turns.length) :
    waitStepsLeft { s with turns := turns } ≤ waitStepsLeft s := by
  rw [waitStepsLeft_of_busy hb, waitStepsLeft_of_busy (s := { s with turns := turns }) hb]
  exact Nat.add_le_add_right (Nat.add_le_add_right ht _) 1

/-- While BUSY, the engine goes when the turns are used up. -/
theorem step_engine_no_turn (hf : s.faulted = []) (hb : s.busy = true) (ht : s.turns = []) :
    step s = engineStep s := by
  unfold step
  rw [if_neg (by simp [hf]), hb, ht]
  cases s.ops <;> rfl

/-- A running command whose source is written has a step (R133): only an unwritten element could stop it (R303). -/
theorem Inv.exists_engineStep (h : Inv s) (hbusy : s.engine = .busy) (hw : s.lOp = opEncode → SourceWritten s) :
    ∃ t, engineStep s = .next t := by
  have hrun := h.running hbusy
  obtain hidx | hidx := Nat.lt_or_eq_of_le hrun.idx_le
  · obtain hop | hop := hrun.op
    · obtain ⟨b, hb⟩ := Option.isSome_iff_exists.1 (hw hop s.idx (Nat.le_refl _) hidx)
      exact ⟨_, engineStep_of_byte hop hidx hb⟩
    · obtain ⟨src, hsrc, -, -⟩ := (hrun.decode hop).source
      obtain ⟨hlen, hread⟩ := Memory.readRun_eq_some.1 hsrc
      exact ⟨_, engineStep_of_symbol hop hidx (hread s.idx (hlen ▸ hidx))⟩
  · obtain hop | hop := hrun.op
    · exact ⟨_, engineStep_of_end hop hidx⟩
    · exact ⟨_, engineStep_of_source_end hop hidx⟩

/-- An engine step after which STATE is still BUSY is no final step (R174, R210). -/
theorem idx_lt_of_engineStep_busy (he : engineStep s = .next t) (hbusy : t.engine = .busy) : s.idx < s.lLen.toNat := by
  obtain ⟨-, hidx, -⟩ | ⟨-, -, rfl⟩ | ⟨-, hidx, -⟩ | ⟨-, -, rfl⟩ := engineStep_cases he
  · exact hidx
  · cases hbusy
  · exact hidx
  · cases hbusy

/-- An engine step after which STATE is still BUSY leaves one step less. -/
theorem engineStepsLeft_of_engineStep_busy (he : engineStep s = .next t) (hbusy : t.engine = .busy) :
    engineStepsLeft t + 1 = engineStepsLeft s := by
  have hidx := idx_lt_of_engineStep_busy he hbusy
  have hnext := engineStep_advances he hidx hbusy
  obtain ⟨-, -, hlen, -, -⟩ := (engineFrame_of_engineStep he).latches
  rw [engineStepsLeft, engineStepsLeft, hnext, hlen]
  omega

/-- An ENCODE step writes no byte, so its source stays written (R69). -/
theorem SourceWritten.after_engineStep (h : SourceWritten s) (he : engineStep s = .next t) (hop : s.lOp = opEncode)
    (hbusy : t.engine = .busy) : SourceWritten t := by
  have hnext := engineStep_advances he (idx_lt_of_engineStep_busy he hbusy) hbusy
  obtain ⟨hbytes, -⟩ := encode_engineStep_writes he hop
  obtain ⟨-, hsrc, hlen, -, -⟩ := (engineFrame_of_engineStep he).latches
  intro i hi hlt
  rw [hbytes, hsrc]
  exact h i (by omega) (hlen ▸ hlt)

end

/-- The host waits, with the operations `ops` behind the WAIT, and a command that is running can take its steps. -/
structure Waiting (ops : List HostOp) (s : State) : Prop where
  inv : Inv s
  noFault : s.faulted = []
  ops_eq : s.ops = .wait :: ops
  source : s.engine = .busy → s.lOp = opEncode → SourceWritten s

section
variable {s t : State} {ops : List HostOp}

/-- The host waits on after an engine step, which has used up one of the steps left. -/
theorem Waiting.after_engineStep (h : Waiting ops s) (hb : s.busy = true) (he : engineStep s = .next t) :
    Waiting ops t ∧ waitStepsLeft t < waitStepsLeft s := by
  have hbusy := (busy_iff s).1 hb
  obtain ⟨-, hops, hturns, -, hfaulted⟩ := (engineFrame_of_engineStep he).hostSide
  obtain ⟨hop, -⟩ := (engineFrame_of_engineStep he).latches
  refine ⟨⟨h.inv.after_engineStep hbusy he, hfaulted.trans h.noFault, hops.trans h.ops_eq, fun hb ho => ?_⟩, ?_⟩
  · exact (h.source hbusy (hop ▸ ho)).after_engineStep he (hop ▸ ho) hb
  · rw [waitStepsLeft_of_busy hb, waitStepsLeft, hturns]
    split
    · next hb' =>
      have := engineStepsLeft_of_engineStep_busy he ((busy_iff t).1 hb')
      omega
    · rw [engineStepsLeft]
      omega

/-- While BUSY the engine can go, whatever turns its step leaves, and the host waits on. -/
theorem Waiting.engine_goes (h : Waiting ops s) (hb : s.busy = true) {turns : List Agent}
    (ht : turns.length ≤ s.turns.length) :
    ∃ m, engineStep { s with turns := turns } = .next m ∧ Waiting ops m ∧ waitStepsLeft m < waitStepsLeft s := by
  have hbusy := (busy_iff s).1 hb
  have h' : Waiting ops { s with turns := turns } := { h with inv := h.inv.congr rfl }
  obtain ⟨m, he⟩ := h'.inv.exists_engineStep hbusy (h'.source hbusy)
  obtain ⟨hm, hlt⟩ := h'.after_engineStep hb he
  exact ⟨m, he, hm, hlt.trans_le (waitStepsLeft_le_of_turns hb ht)⟩

/-- While BUSY a read shows BUSY, and the host waits on with one turn used up (R99). -/
theorem Waiting.after_waitStep (h : Waiting ops s) (hb : s.busy = true) {a : Agent} {turns : List Agent}
    (ht : s.turns = a :: turns) :
    Waiting ops (waitStep { s with ops := ops, turns := turns })
      ∧ waitStepsLeft (waitStep { s with ops := ops, turns := turns }) < waitStepsLeft s := by
  rw [waitStep_of_busy (s := { s with ops := ops, turns := turns }) hb]
  refine ⟨⟨h.inv.congr rfl, h.noFault, rfl, h.source⟩, ?_⟩
  rw [waitStepsLeft_of_busy hb, waitStepsLeft_of_busy, ht]
  · exact Nat.add_lt_add_right (Nat.add_lt_add_right (Nat.lt_succ_self _) _) 1
  · exact hb

/-- While BUSY a step of either agent uses up one of the steps left, and the host waits on (R71). -/
theorem Waiting.step_of_busy (h : Waiting ops s) (hb : s.busy = true) :
    ∃ m, step s = .next m ∧ Waiting ops m ∧ waitStepsLeft m < waitStepsLeft s := by
  cases ht : s.turns with
  | nil =>
    rw [step_engine_no_turn h.noFault hb ht]
    exact h.engine_goes hb (Nat.le_refl _)
  | cons a turns =>
    cases a with
    | engine =>
      rw [step_engine_turn h.noFault hb h.ops_eq ht]
      exact h.engine_goes hb (by simp [ht])
    | host => exact ⟨_, step_host_turn h.noFault hb h.ops_eq ht, h.after_waitStep hb ht⟩

/-- While not BUSY one read ends the WAIT (R99). -/
theorem Waiting.step_of_not_busy (h : Waiting ops s) (hb : s.busy = false) :
    ∃ t, step s = .next t ∧ t.ops = ops ∧ t.busy = false := by
  refine ⟨waitStep { s with ops := ops }, step_host h.noFault hb h.ops_eq, ?_⟩
  rw [waitStep_of_not_busy (s := { s with ops := ops }) hb]
  exact ⟨rfl, hb⟩

/-- A WAIT is over after at most `waitStepsLeft` steps: each step before the last read leaves fewer of them (R306). -/
theorem Waiting.ends (h : Waiting ops s) :
    ∃ k t, k ≤ waitStepsLeft s ∧ runSteps k s = .next t ∧ t.ops = ops ∧ t.busy = false := by
  induction hn : waitStepsLeft s using Nat.strong_induction_on generalizing s with
  | _ n ih =>
    cases hb : s.busy with
    | false =>
      obtain ⟨t, hstep, hend⟩ := h.step_of_not_busy hb
      refine ⟨1, t, ?_, runSteps_succ_of_step rfl hstep, hend⟩
      rw [← hn, waitStepsLeft, hb]
      rfl
    | true =>
      obtain ⟨m, hstep, hm, hlt⟩ := h.step_of_busy hb
      obtain ⟨k, t, hk, hrun, hend⟩ := ih _ (hn ▸ hlt) hm rfl
      exact ⟨k + 1, t, by omega, runSteps_succ_eq_next.2 ⟨m, hstep, hrun⟩, hend⟩

end

/-- Settles O43: while BUSY each step uses up a turn or one of the engine's steps, and then one read ends the WAIT. -/
theorem waitEnds : Obligations.WaitEnds := by
  intro s ops hinv hf hbusy ho hw
  obtain ⟨k, t, hk, hend⟩ := Waiting.ends ⟨hinv, hf, ho, fun _ => hw⟩
  rw [waitStepsLeft_of_busy ((busy_iff s).2 hbusy)] at hk
  exact ⟨k, t, hk, hend⟩

/-! ## An unwritten source element -/

/-- A run of elements does not read whole when one of them is unwritten (R79). -/
theorem Memory.readRun_eq_none {α : Type} {m : Memory α} {a n i : Nat} (hi : i < n)
    (h : Memory.read m (a + i) = none) : Memory.readRun m a n = none := by
  rw [Option.eq_none_iff_forall_not_mem]
  intro xs hxs
  obtain ⟨hlen, hread⟩ := Memory.readRun_eq_some.1 hxs
  cases h.symm.trans (hread i (hlen ▸ hi))

section
variable {s : State}

/-- A DECODE that passes its checks reads its whole source at acceptance (R201, R303). -/
theorem execDecode_of_unwritten (hr : operandsOutOfRange s = false) (hc : decodedLen s.srcLen.toNat ≤ s.dstCap.toNat)
    (hsrc : Memory.readRun s.symMem s.srcBase.toNat s.srcLen.toNat = none) :
    execDecode s = modelFault .unwritten s := by
  rw [execDecode, if_neg (by simp [hr]), if_neg (Nat.not_lt.2 hc), hsrc]

/-- The engine's step on an unwritten source byte of a running ENCODE (R303). -/
theorem engineStep_of_unwritten_byte (hop : s.lOp = opEncode) (hidx : s.idx < s.lLen.toNat)
    (hb : Memory.read s.byteMem (srcAddr s) = none) : engineStep s = modelFault .unwritten s := by
  rw [engineStep, if_pos hop, encodeStep, if_pos hidx, encodeByteStep, hb]

end

/-- Settles O27: DECODE's acceptance reads the whole source and an ENCODE step its one byte. -/
theorem unwrittenSourceFaults : Obligations.UnwrittenSourceFaults :=
  ⟨fun _ _ hs hd hc hi hread =>
      execDecode_of_unwritten (operandsOutOfRange_of_le hs hd) hc (Memory.readRun_eq_none hi hread),
    fun _ ⟨_, hop⟩ hidx hread => engineStep_of_unwritten_byte hop hidx hread⟩

/-! ## A register write and an engine step -/

/-- `s` with the fields that a register write other than CMD can change taken from `u` (R125, R128, R130): the operand
registers, the table port, the candidate sizes, STAGING and VIOL. -/
def withWritten (u s : State) : State :=
  { s with
    viol := u.viol, srcBase := u.srcBase, srcLen := u.srcLen, dstBase := u.dstBase, dstCap := u.dstCap
    tblIndex := u.tblIndex, tblBank := u.tblBank, plen := u.plen, tlen := u.tlen, stgP := u.stgP, stgT := u.stgT }

/-- An aligned offset of the window behind CMD selects a register other than CMD (R22). -/
theorem exists_registerAt_ne_cmd {off : Nat} (halign : off % 4 = 0) (hlo : 0x04 ≤ off) (hhi : off < 0x40) :
    ∃ r, r ≠ .cmd ∧ registerAt 4 off = some r := by
  have hk : off / 4 < registerMap.length := by change _ < 16; omega
  have hr : registerAt 4 off = some registerMap[off / 4] := by
    simp [registerAt, registerAccessOk, halign, hhi, hk]
  refine ⟨_, fun hcmd => ?_, hr⟩
  obtain ⟨-, hoff⟩ := offset_of_registerAt (hcmd ▸ hr) (by decide)
  simp only [Reg.offset] at hoff
  omega

/-- A register write other than CMD takes those fields, from their values before it, to values that no other field has a
part in, and changes no other field (R125, R127, R128, R130). -/
theorem exists_writeReg_withWritten {r : Reg} (hr : r ≠ .cmd) (w : Word) (s : State) :
    ∃ u, ∀ t, writeReg r w (withWritten s t) = .next (withWritten u t) := by
  cases r with
  | cmd => exact absurd rfl hr
  | tblData =>
    refine ⟨writeTblData w s, fun t => congrArg Host.Outcome.next ?_⟩
    unfold writeTblData
    simp only [apply_ite (withWritten · t)]
    rfl
  | srcBase => exact ⟨{ s with srcBase := w }, fun _ => rfl⟩
  | srcLen => exact ⟨{ s with srcLen := w }, fun _ => rfl⟩
  | dstBase => exact ⟨{ s with dstBase := w }, fun _ => rfl⟩
  | dstCap => exact ⟨{ s with dstCap := w }, fun _ => rfl⟩
  | plen => exact ⟨{ s with plen := w }, fun _ => rfl⟩
  | tlen => exact ⟨{ s with tlen := w }, fun _ => rfl⟩
  | tblIndex => exact ⟨writeTblIndex w s, fun _ => rfl⟩
  | status | result | errPos | id | reserved => exact ⟨s, fun _ => rfl⟩

section
variable (u s : State)

/-- The final symbol of ENCODE neither reads those fields nor changes them (R174). -/
theorem encodeTail_withWritten : encodeTail (withWritten u s) = withWritten u (encodeTail s) := by
  unfold encodeTail
  simp only [apply_ite (withWritten u)]
  rfl

/-- Nor does a primary symbol of DECODE (R205, R209). -/
theorem decodePrimary_withWritten (v : BitVec 11) :
    decodePrimary v (withWritten u s) = withWritten u (decodePrimary v s) := by
  have hcfg : (withWritten u s).cfg = s.cfg := rfl
  rw [decodePrimary, decodePrimary, apply_ite (withWritten u), hcfg]
  cases s.cfg.lastFit <;> rfl

/-- Nor does a trailing one (R206). -/
theorem decodeTrailing_withWritten (v : BitVec 3) :
    decodeTrailing v (withWritten u s) = withWritten u (decodeTrailing v s) := by
  unfold decodeTrailing
  rw [apply_ite (withWritten u)]
  rfl

/-- Nor, then, does any symbol of DECODE that is not whitespace (R204 to R207). -/
theorem decodeSymbol_withWritten (c : Symbol) :
    decodeSymbol c (withWritten u s) = withWritten u (decodeSymbol c s) := by
  cases hp : primaryInverse s c with
  | some v =>
    rw [decodeSymbol_of_primary hp, decodeSymbol_of_primary (s := withWritten u s) hp]
    exact decodePrimary_withWritten u (updateResidue s) v
  | none =>
    cases hq : trailingInverse s c with
    | some v =>
      rw [decodeSymbol_of_trailing hp hq, decodeSymbol_of_trailing (s := withWritten u s) hp hq]
      exact decodeTrailing_withWritten u (updateResidue s) v
    | none =>
      rw [decodeSymbol_of_unknown hp hq, decodeSymbol_of_unknown (s := withWritten u s) hp hq]
      rfl

end

section
variable {s t : State}

/-- An engine step neither reads those fields nor changes them (R301). -/
theorem engineStep_withWritten (he : engineStep s = .next t) (u : State) :
    engineStep (withWritten u s) = .next (withWritten u t) := by
  obtain ⟨hop, hidx, b, hb, rfl⟩ | ⟨hop, hidx, rfl⟩ | ⟨hop, hidx, c, hc, rfl⟩ | ⟨hop, hidx, rfl⟩ := engineStep_cases he
  · refine (engineStep_of_byte (s := withWritten u s) hop hidx hb).trans (congrArg Host.Outcome.next ?_)
    rw [apply_ite (withWritten u)]
    rfl
  · refine (engineStep_of_end (s := withWritten u s) hop hidx).trans (congrArg Host.Outcome.next ?_)
    rw [encodeFinal, encodeTail_withWritten]
    rfl
  · refine (engineStep_of_symbol (s := withWritten u s) hop hidx hc).trans (congrArg Host.Outcome.next ?_)
    rw [decodeSymbol_withWritten, apply_ite (withWritten u)]
    rfl
  · exact engineStep_of_source_end (s := withWritten u s) hop hidx

/-- After an engine step those fields are as they were. -/
theorem withWritten_of_engineStep (he : engineStep s = .next t) : withWritten s t = t := by
  obtain ⟨⟨hsb, hsl, hdb, hdc, hti, htb, hpl, htl⟩, -, -, ⟨hsp, hst⟩, -, -, hviol⟩ := engineFrame_of_engineStep he
  simp only [withWritten, ← hsb, ← hsl, ← hdb, ← hdc, ← hti, ← htb, ← hpl, ← htl, ← hsp, ← hst, ← hviol]

end

/-- Settles O40: the write puts values into fields that the engine's step neither reads nor changes. -/
theorem registerWriteCommutesWithEngine : Obligations.RegisterWriteCommutesWithEngine := by
  intro s t off w he halign hlo hhi
  obtain ⟨r, hr, hat⟩ := exists_registerAt_ne_cmd halign hlo hhi
  obtain ⟨u, hwrite⟩ := exists_writeReg_withWritten hr w s
  refine ⟨withWritten u s, withWritten u t, ?_, engineStep_withWritten he u, ?_⟩
  · exact (hostStep_wr hat w s).trans (hwrite s)
  · rw [hostStep_wr hat, ← hwrite, withWritten_of_engineStep he]

/-! ## The state after a reset -/

/-- A filled table holds its one value everywhere. -/
@[simp] theorem Table.get_fill {α : Type} {n : Nat} (x : α) (i : Fin n) : (Table.fill n x).get i = x :=
  List.getElem_replicate _

/-- STATUS reads 0 after a reset: STATE is IDLE, ERR none and VIOL clear (R290). -/
theorem statusWord_resetEvent (s : State) : statusWord (resetEvent s) = 0 := by
  simp only [statusWord, resetEvent_engine, resetEvent_viol, resetEvent_err]
  decide

/-- Settles O54: the fields of `resetEvent`, in which every table and memory is empty or the default one. -/
theorem resetEventClearsTheCore : Obligations.ResetEventClearsTheCore := fun s =>
  ⟨resetEvent s, rfl, statusWord_resetEvent s, by simp⟩

end Sys2Proof.Machine
